-- ==== Sys2Proof/Word.lean ====
section
/-! DEFINITION. The widths of the framing engine's values (10_state.md rules R21, R40; 00_scope.md rule R11): a CSR is 32 bits, a
space element is 8 or 16 bits, and every quantity a rule computes with is an unbounded natural number until it is stored. -/

namespace Sys2Proof

/-- An element of a byte space (R40, u8). -/
abbrev Byte := BitVec 8

/-- An element of a 16-bit space (R40, u16). -/
abbrev Half := BitVec 16

/-- A CSR or a command word (R21, R100). -/
abbrev Word := BitVec 32

end Sys2Proof
end

