-- ==== Sys2Proof/Syntax.lean ====
section
/-! DEFINITION. The thirteen commands of the opcode map (30_encoding.md rule R101). A command has no operand field: every operand is
implied (R100, R103), so no constructor carries data. -/

namespace Sys2Proof

/-- One constructor per row of spec/opcode_table.json. -/
inductive Instr where
  /-- R140 -/
  | nop
  /-- R141 -/
  | init
  /-- R160 -/
  | configure
  /-- R182 -/
  | synth
  /-- R185 -/
  | verify
  /-- R204 -/
  | map
  /-- R206 -/
  | unmap
  /-- R224 -/
  | stuff
  /-- R225 -/
  | unstuff
  /-- R240 -/
  | encode
  /-- R260 -/
  | decode
  /-- R146 -/
  | clrerr
  /-- R145 -/
  | destroy
  deriving DecidableEq, Repr

end Sys2Proof
end

