-- ==== Sys2Proof/WellFormed.lean ====
section
/-! DEFINITION. Well-formedness. A command has no operands (30_encoding.md rule R100), so every term of `Instr` is well formed; what
can be ill formed is a command WORD: its reserved bits must be 0 and its opcode assigned (R100, R102). The two checks of a word stand
here as the spec words them, apart from the decoder, which must agree with them. -/

namespace Sys2Proof

/-- Every command is well formed: no constructor has a field (R100). -/
def Instr.wellFormed (_ : Instr) : Bool := true

/-- R100: bits `[31:8]` of a command word are reserved and must be 0. -/
def reservedBitsClear (c : Word) : Bool := c.toNat / 256 == 0

/-- R101, R102: opcodes 0x0B, 0x0C, 0x0D and 0x10 to 0xFF are not assigned. -/
def opcodeAssigned (c : Word) : Bool :=
  let op := c.toNat % 256
  op ≤ 0x0A || op == 0x0E || op == 0x0F

/-- A legal command word passes both checks (R102). -/
def commandWordWellFormed (c : Word) : Bool := reservedBitsClear c && opcodeAssigned c

end Sys2Proof
end

