-- ==== Sys2Proof/Decode.lean ====
section
/-! DEFINITION. The decoder and the encoder of command words (30_encoding.md rules R100 to R102). The decoder is total over all
2^32 words and rejects by name; the encoder is written from the opcode map of R101. -/

namespace Sys2Proof

/-- Why a command word is illegal (R102). -/
inductive IllegalWord where
  /-- some bit of `[31:8]` is 1 -/
  | reservedBits
  /-- the opcode is 0x0B, 0x0C, 0x0D or 0x10 to 0xFF -/
  | unassignedOpcode
  deriving DecidableEq, Repr

/-- The opcode map, one row per command (R101). -/
def opcodeRows : List (Byte × Instr) :=
  [(0x00#8, .nop), (0x01#8, .init), (0x02#8, .configure), (0x03#8, .synth), (0x04#8, .verify), (0x05#8, .map), (0x06#8, .unmap),
   (0x07#8, .stuff), (0x08#8, .unstuff), (0x09#8, .encode), (0x0A#8, .decode), (0x0E#8, .clrerr), (0x0F#8, .destroy)]

/-- Format C0 (R100): the opcode in bits `[7:0]`, bits `[31:8]` zero. -/
def decode (c : Word) : Except IllegalWord Instr :=
  if c.extractLsb' 8 24 = 0#24 then
    match opcodeRows.lookup (c.extractLsb' 0 8) with
    | some i => .ok i
    | none => .error .unassignedOpcode
  else .error .reservedBits

/-- The opcode of a command (R101). -/
def opcodeOf : Instr → Byte
  | .nop => 0x00#8
  | .init => 0x01#8
  | .configure => 0x02#8
  | .synth => 0x03#8
  | .verify => 0x04#8
  | .map => 0x05#8
  | .unmap => 0x06#8
  | .stuff => 0x07#8
  | .unstuff => 0x08#8
  | .encode => 0x09#8
  | .decode => 0x0A#8
  | .clrerr => 0x0E#8
  | .destroy => 0x0F#8

/-- The command word of a command: reserved bits 0, then the opcode (R100). -/
def encode (i : Instr) : Word := 0#24 ++ opcodeOf i

/-- What the decoder reads from a command word given as a number. A command is one whole 32-bit word written to CMD (R107), so there
is no byte order to lay out, and a number of more than 32 bits is no command word. -/
def decodeTableWord (nbits w : Nat) : Option Instr :=
  if nbits ≤ 32 ∧ w < 2 ^ 32 then (decode (BitVec.ofNat 32 w)).toOption else none

end Sys2Proof
end

