-- ==== Sys2Proof/Machine/Port.lean ====
section
/-! DEFINITION. The vocabulary of the two ports of one FE instance: what the host can do (10_state.md rule R31, 70_reset_and_hazards.md
rule R350) and the eleven ECE transactions with their answers (47_engine_port.md). -/

namespace Sys2Proof.Machine

/-- One act of the host on one instance (R31, R105), in the order the host issues them (R80). Numbers and indices are any naturals:
what does not exist is written without effect and reads as 0 (R31). -/
inductive HostAccess where
  /-- `HostRead(CSR, n)` -/
  | readCsr (n : Nat)
  /-- `HostWrite(CSR, n, v)`; a write of CSR 0 is a command (R24) -/
  | writeCsr (n : Nat) (v : Word)
  /-- `HostRead(SPACE, id, i)` -/
  | readElem (id i : Nat)
  /-- `HostWrite(SPACE, id, i, v)` with a value as wide as a u8 element -/
  | writeByte (id i : Nat) (v : Byte)
  /-- `HostWrite(SPACE, id, i, v)` with a value as wide as a u16 element -/
  | writeHalf (id i : Nat) (v : Half)
  /-- hardware reset, an event between host accesses (R350) -/
  | hardwareReset
  deriving DecidableEq, Repr

/-- `kind ∈ {DC, AC}` of `set_huffman_table` (R284). -/
inductive HuffKind where
  | dc
  | ac
  deriving DecidableEq, Repr

/-- A Huffman table as it crosses the port (R284): `lengths:[u8;16]`, `symbols:[u8]`. -/
structure HuffTable where
  lengths : List Byte
  symbols : List Byte
  deriving DecidableEq, Repr

/-- The transactions of R283 to R293 with their arguments. The context argument is left out: an instance has at most one (R280).
Row pointers are XBUF indices (R43). -/
inductive Transaction where
  | createContext (precision : Nat)
  | destroyContext
  | setQuantTable (slot : Nat) (entries : List Half)
  | setHuffmanTable (kind : HuffKind) (slot : Nat) (table : HuffTable)
  | beginCompress (width height components : Nat)
  | writeScanlines (rows : List Nat)
  | finishCompress
  | readHeader (input : List Byte)
  | beginDecompress
  | readScanlines (rows : List Nat) (max : Nat)
  | finishDecompress
  deriving DecidableEq, Repr

/-- One answer of the ECE. A transaction looks at the fields that its answer has and at no other: every transaction at `error` (R282);
`write_scanlines` and `read_scanlines` at `count`, any natural number (R300 c); `finish_compress` at `output` (R287), where `none`
stands for the bytes of ECE_ENC (R300 a) and `some b` for other bytes, on a run that is going to fail (R300 c). -/
structure Reply where
  error : Bool
  count : Nat
  output : Option (List Byte)
  deriving DecidableEq, Repr, Inhabited

/-- What a context holds between images: the precision of `create_context` and the tables of slot 0 (R50, R292). The `cfg` argument of
ECE_ENC and ECE_DEC (R242, R300). -/
structure EceCfg where
  precision : Nat
  quant : Option (List Half)
  dc : Option HuffTable
  ac : Option HuffTable
  deriving DecidableEq, Repr, Inhabited

/-- The image a context is driven through (R50, R294). -/
inductive EcePhase where
  /-- no image in progress -/
  | idle
  /-- after `begin_compress`; `rows` are the rows accepted so far, each a list of samples (R286) -/
  | compressing (width height : Nat) (rows : List (List Half))
  /-- after `read_header`; `delivered` counts the rows read so far (R290) -/
  | decompressing (stream : List Byte) (delivered : Nat)
  deriving DecidableEq, Repr

/-- The ECE context of an instance (R50, R280). -/
structure EceContext where
  cfg : EceCfg
  phase : EcePhase
  deriving DecidableEq, Repr

/-- The arguments of ECE_ENC (R300 a). -/
structure EncKey where
  cfg : EceCfg
  width : Nat
  height : Nat
  rows : List (List Half)
  deriving DecidableEq, Repr

/-- The arguments of ECE_DEC (R300 b). -/
structure DecKey where
  cfg : EceCfg
  stream : List Byte
  deriving DecidableEq, Repr

end Sys2Proof.Machine
end

