-- ==== Sys2Proof/Config.lean ====
section
/-! DEFINITION. What an implementation fixes (00_scope.md rule R9) and the free values. The constants declared `opaque` have no body:
nothing can be proved of them but what every value of their type satisfies. -/

namespace Sys2Proof

open Machine

/-- How far MAX_SAMPLES exceeds its lower bound. -/
opaque Config.maxSamplesExtra : Nat
/-- How far EBUF_CAP exceeds its lower bound. -/
opaque Config.ebufExtra : Nat
/-- How far PBUF_CAP exceeds its lower bound. -/
opaque Config.pbufExtra : Nat
/-- How far N_INST exceeds its lower bound. -/
opaque Config.instExtra : Nat

/-- MAX_SAMPLES, a natural number of at least 512 (R9). -/
def Config.maxSamples : Nat := Config.maxSamplesExtra + 512

/-- EBUF_CAP, a natural number of at least 27 (R9). -/
def Config.ebufCap : Nat := Config.ebufExtra + 27

/-- PBUF_CAP, a natural number of at least EBUF_CAP − 27 (R9). -/
def Config.pbufCap : Nat := Config.pbufExtra + Config.ebufExtra

/-- N_INST, a natural number of at least 1 (R9). -/
def Config.nInst : Nat := Config.instExtra + 1

/-- FREE VALUE (R12 `unspecified`, U1): the draw number `n` of a `w`-bit value. -/
opaque Config.freeBits (w n : Nat) : BitVec w

/-- FREE VALUE (R300 c, U7): the ECE's answer at draw number `n`. -/
opaque Config.eceReply (n : Nat) : Reply

/-- FREE VALUE (R300 a, U8): the uninterpreted function ECE_ENC. -/
opaque Config.eceEnc (key : EncKey) : List Byte

/-- FREE VALUE (R300 b, U8): the uninterpreted function ECE_DEC, as the sample in cell `i × w + x` of the image. -/
opaque Config.eceDec (key : DecKey) (cell : Nat) : Half

end Sys2Proof
end

