-- ==== Sys2Proof/Machine/State.lean ====
section
/-! DEFINITION. The state of one FE instance (10_state.md rule R20), the reasons a step can stop, and the state after hardware reset
(R52). State is plain data. CMD is stored nowhere (R84), STATUS is computed from `lifecycle` and `csr.err` (R25), and the reserved CSRs
19 to 31 hold nothing (R21). -/

namespace Sys2Proof.Machine

/-- STATE (R29). -/
inductive Lifecycle where
  | unconfigured
  | constructed
  | ready
  deriving DecidableEq, Repr

/-- The stored CSRs (R21), and the flag STATUS.ERR (R30). -/
structure Csrs where
  err : Bool
  errcode : Word
  errinfo : Word
  shapeW : Word
  shapeH : Word
  shapeD : Word
  prec : Word
  rowPitch : Word
  planePitch : Word
  qtN : Word
  hsNclsDC : Word
  hsNclsAC : Word
  plen : Word
  elen : Word
  cfgW : Word
  cfgH : Word
  cfgD : Word
  cfgP : Word
  deriving DecidableEq, Repr

/-- One memory space (R40) of `w`-bit elements: the elements whose content is specified, by index, indices strictly rising. The
content of an index that is not listed is unspecified (R31, R52): every read of it is a fresh draw. -/
structure Space (w : Nat) where
  cells : List (Nat × BitVec w)
  deriving DecidableEq, Repr

/-- The seventeen spaces (R40). -/
structure Memory where
  qtStage : Space 16
  hsCntDC : Space 16
  hsSymDC : Space 8
  hsCntAC : Space 16
  hsSymAC : Space 8
  blkIn : Space 16
  blkOut : Space 16
  xbuf : Space 16
  ebuf : Space 8
  pbuf : Space 8
  hdr : Space 8
  ftr : Space 8
  qtab : Space 16
  hufCntDC : Space 8
  hufValDC : Space 8
  hufCntAC : Space 8
  hufValAC : Space 8
  deriving DecidableEq, Repr

/-- The engine side of the ECE port. `ctx` is the hidden state of R50. The other three fields are the model's own: `port` records the
transactions issued so far, oldest first (log 14); `replies` are the ECE's coming answers (log 4); the two tables give values of ECE_ENC
and ECE_DEC where they have an entry (log 5). -/
structure Ece where
  ctx : Option EceContext
  port : List Transaction
  replies : List Reply
  encTable : List (EncKey × List Byte)
  decTable : List (DecKey × List Half)
  deriving DecidableEq, Repr

/-- The host port; both fields are the model's own: the host's coming accesses in their order (R80, log 1), and what its most recent
read returned (R31, log 13). -/
structure HostPort where
  pending : List HostAccess
  readData : Word
  deriving DecidableEq, Repr

/-- The state of one instance (R20). `draws` is the model's own: the number of free values drawn so far (log 2). -/
structure State where
  lifecycle : Lifecycle
  csr : Csrs
  mem : Memory
  ece : Ece
  host : HostPort
  draws : Nat
  deriving DecidableEq, Repr

/-- Why the machine stops with a fault. -/
inductive Fault where
  /-- ENCODE and DECODE: a transaction of the recovery after an engine error answers engine error again. The spec defines no state
  after it (47_engine_port.md rule R298; 93_implementation_defined.md U5, treatment `fault`). Safe: the machine stops. -/
  | recoveryFailed
  deriving DecidableEq, Repr

/-- Why a step has no meaning. -/
inductive Refusal where
  /-- An arm of `exec` that has no meaning yet. Safe: the machine stops. -/
  | notModelled (mnemonic : String)
  /-- A host write to an existing, writable element with a value of another width than the element's. The spec has no such access
  (00_scope.md rule R12, 20_memory.md rule R70); narrowing a bus word is FE_MAP's (10_state.md rule R31). Safe: the machine stops. -/
  | mixedWidthAccess (id : Nat)
  deriving DecidableEq, Repr

/-- A space with no element specified (R52). -/
def Space.unspecified (w : Nat) : Space w := ⟨[]⟩

/-- Every implemented CSR is 0 after reset (R52). -/
def Csrs.reset : Csrs where
  err := false
  errcode := 0#32
  errinfo := 0#32
  shapeW := 0#32
  shapeH := 0#32
  shapeD := 0#32
  prec := 0#32
  rowPitch := 0#32
  planePitch := 0#32
  qtN := 0#32
  hsNclsDC := 0#32
  hsNclsAC := 0#32
  plen := 0#32
  elen := 0#32
  cfgW := 0#32
  cfgH := 0#32
  cfgD := 0#32
  cfgP := 0#32

/-- The contents of all seventeen spaces are unspecified after reset (R52). -/
def Memory.reset : Memory where
  qtStage := .unspecified 16
  hsCntDC := .unspecified 16
  hsSymDC := .unspecified 8
  hsCntAC := .unspecified 16
  hsSymAC := .unspecified 8
  blkIn := .unspecified 16
  blkOut := .unspecified 16
  xbuf := .unspecified 16
  ebuf := .unspecified 8
  pbuf := .unspecified 8
  hdr := .unspecified 8
  ftr := .unspecified 8
  qtab := .unspecified 16
  hufCntDC := .unspecified 8
  hufValDC := .unspecified 8
  hufCntAC := .unspecified 8
  hufValAC := .unspecified 8

/-- The machine right after hardware reset (R52, R350): UNCONFIGURED, no ECE context. The model's own fields start empty. -/
def State.reset : State where
  lifecycle := .unconfigured
  csr := Csrs.reset
  mem := Memory.reset
  ece := ⟨none, [], [], [], []⟩
  host := ⟨[], 0#32⟩
  draws := 0

end Sys2Proof.Machine
end

