-- ==== Sys2Proof/Machine/Flags.lean ====
section
/-! DEFINITION. The result registers and the one flag: error classes, causes and codes (60_exceptions.md rules R311 to R313), STATUS
(10_state.md rule R25), and how the end of a command writes ERRCODE, ERRINFO and STATUS.ERR (40_lifecycle.md rule R147). -/

namespace Sys2Proof.Machine

/-- The four error classes (R311). -/
inductive ErrClass where
  | configurationError
  | framingViolation
  | decoderStalled
  | sequenceError
  deriving DecidableEq, Repr

/-- The causes of the code table (R313). -/
inductive Cause where
  | badPrec
  | zeroDim
  | notMult8
  | dimRange
  | capacity
  | stride
  | qtSize
  | huffNcls
  | huffNsym
  | huffClassOvf
  | engineCtx
  | headerMismatch
  | footerMismatch
  | unescapedFf
  | engineError
  | overflow
  | decoderStalled
  | badState
  | badCmd
  | badOperand
  deriving DecidableEq, Repr

/-- What `raise K(cause, info)` carries (R312). -/
structure Err where
  cause : Cause
  info : Nat
  deriving DecidableEq, Repr

/-- The class a cause belongs to (R313). -/
def classOf : Cause → ErrClass
  | .badPrec | .zeroDim | .notMult8 | .dimRange | .capacity | .stride => .configurationError
  | .qtSize | .huffNcls | .huffNsym | .huffClassOvf | .engineCtx => .configurationError
  | .headerMismatch | .footerMismatch | .unescapedFf | .engineError | .overflow => .framingViolation
  | .decoderStalled => .decoderStalled
  | .badState | .badCmd | .badOperand => .sequenceError

/-- The class number in ERRCODE bits `[7:4]` (R26, R313). -/
def classNumber : ErrClass → Nat
  | .configurationError => 1
  | .framingViolation => 2
  | .decoderStalled => 3
  | .sequenceError => 4

/-- The cause number in ERRCODE bits `[3:0]` (R26, R313). -/
def causeNumber : Cause → Nat
  | .badPrec => 0x1
  | .zeroDim => 0x2
  | .notMult8 => 0x3
  | .dimRange => 0x4
  | .capacity => 0x5
  | .stride => 0x6
  | .qtSize => 0x7
  | .huffNcls => 0x8
  | .huffNsym => 0x9
  | .huffClassOvf => 0xA
  | .engineCtx => 0xB
  | .headerMismatch => 0x1
  | .footerMismatch => 0x2
  | .unescapedFf => 0x3
  | .engineError => 0x4
  | .overflow => 0x5
  | .decoderStalled => 0x0
  | .badState => 0x1
  | .badCmd => 0x2
  | .badOperand => 0x3

/-- `16 × class(K) + cause` (R312). -/
def errorCode (c : Cause) : Word := BitVec.ofNat 32 (16 * classNumber (classOf c) + causeNumber c)

/-- STATUS.STATE as a number (R25). -/
def lifecycleNumber : Lifecycle → Nat
  | .unconfigured => 0
  | .constructed => 1
  | .ready => 2

/-- STATUS as the host reads it: STATE in bits `[1:0]`, ERR in bit `[2]`, the rest 0 (R25). -/
def State.status (s : State) : Word := BitVec.ofNat 32 (lifecycleNumber s.lifecycle + if s.csr.err then 4 else 0)

/-- The 32-bit register value for a number a rule stores: the number itself when it fits. A number of 2^32 or more does not fit and the
spec states no value for it: a FREE VALUE (log 8). -/
def State.fit (s : State) (n : Nat) : Word := if n < 2 ^ 32 then BitVec.ofNat 32 n else Config.freeBits 32 s.draws

/-- How many free values storing a number in a 32-bit register draws (log 8). -/
def fitDraws (n : Nat) : Nat := if n < 2 ^ 32 then 0 else 1

/-- `x[PLEN] <- n` by a command (R23). -/
def State.setPlen (n : Nat) (s : State) : State :=
  { s with csr := { s.csr with plen := s.fit n }, draws := s.draws + fitDraws n }

/-- `x[ELEN] <- n` by a command (R23). -/
def State.setElen (n : Nat) (s : State) : State :=
  { s with csr := { s.csr with elen := s.fit n }, draws := s.draws + fitDraws n }

/-- `finish(code, info)` (R147): the result registers, and STATUS.ERR set when the code is not 0 (R30). -/
def State.finish (code : Word) (info : Nat) (s : State) : State :=
  { s with
    csr := { s.csr with errcode := code, errinfo := s.fit info, err := s.csr.err || code != 0#32 }
    draws := s.draws + fitDraws info }

end Sys2Proof.Machine
end

