-- ==== Sys2Proof/Machine/Operands.lean ====
section
/-! DEFINITION. The operand forms: the values derived from the latched configuration (00_scope.md rule R10), the legality of a command
by lifecycle state (30_encoding.md rule R104), the effective addresses of samples and the sample conversions (43_scanline_mapper.md
rules R200 to R203), and the configuration checks' notion of a legal shape (40_lifecycle.md rule R142). -/

namespace Sys2Proof.Machine

/-- R104: the states in which a command is executed rather than refused. -/
def legalIn (i : Instr) (l : Lifecycle) : Bool :=
  match i with
  | .nop | .clrerr | .destroy | .stuff | .unstuff => true
  | .init => l == .unconfigured
  | .configure | .synth | .verify | .map | .unmap => l != .unconfigured
  | .encode | .decode => l == .ready

/-- `w`, the latched width (R28). -/
def State.width (s : State) : Nat := s.csr.cfgW.toNat

/-- `h`, the latched height (R28). -/
def State.height (s : State) : Nat := s.csr.cfgH.toNat

/-- `d`, the latched depth (R28). -/
def State.depth (s : State) : Nat := s.csr.cfgD.toNat

/-- `P`, the latched precision (R28). -/
def State.precision (s : State) : Nat := s.csr.cfgP.toNat

/-- NROWS = h × d (R10). -/
def State.nRows (s : State) : Nat := s.height * s.depth

/-- NSAMP = w × h × d (R10). -/
def State.nSamp (s : State) : Nat := s.width * s.height * s.depth

/-- ESW, the engine sample container width in bits (R10). -/
def esw (p : Nat) : Nat := if p = 8 then 8 else 16

/-- `row_of(y, z)` (R200). -/
def rowOf (h y z : Nat) : Nat := y + h * z

/-- `coord_of(i)` (R200). -/
def coordOf (h i : Nat) : Nat × Nat := (i % h, i / h)

/-- `A_in(x, y, z)` and `A_out(x, y, z)`, the element of BLK_IN or BLK_OUT that holds a sample (R201). -/
def blockAddr (w h x y z : Nat) : Nat := x + w * y + w * h * z

/-- `RP(i) = i × w`, the row pointer of row `i` (R43). -/
def rowPtr (w i : Nat) : Nat := i * w

/-- The row pointers `RP(a) .. RP(a + n − 1)` (R241, R261). -/
def rowPtrs (w a n : Nat) : List Nat := (List.range n).map fun k => rowPtr w (a + k)

/-- Bits `[ESW−1:0]` of a cell, as 16 bits (R43, R203). -/
def cellBits (p : Nat) (v : Half) : Half := (v.setWidth (esw p)).setWidth 16

/-- `NARROW_P` (R202). For samples of 2^P or more the truncation is the spec's own choice (D12, log 9). -/
def narrow (p : Nat) (v : Half) : Half := cellBits p v

/-- `WIDEN_P` (R203): zero extension of the container. -/
def widen (p : Nat) (c : Half) : Half := cellBits p c

/-- `map_rows(blk)` (R205): row `i` is the list of the narrowed samples of block coordinate `(i mod h, i div h)`. -/
def mapRows (w h d p : Nat) (blk : Nat → Half) : List (List Half) :=
  (List.range (h * d)).map fun i =>
    (List.range w).map fun x => narrow p (blk (blockAddr w h x (coordOf h i).1 (coordOf h i).2))

/-- `unmap_rows(rows)` (R207), as the list of the samples of BLK_OUT in index order: index `n` is the sample `(x, y, z)` with
`n = x + w × y + w × h × z`, and it comes from pixel `(x, y + h × z)`. The loops of R206 run in the same order. -/
def unmapBlock (w h d p : Nat) (px : Nat → Nat → Half) : List Half :=
  (List.range d).flatMap fun z => (List.range h).flatMap fun y => (List.range w).map fun x => widen p (px x (rowOf h y z))

end Sys2Proof.Machine
end

