-- ==== Sys2Proof/Machine/Format.lean ====
section
/-! DEFINITION. The pure functions over bytes and tables: `synth` and `verify_framing` (42_header_footer.md), `stuff` and `unstuff`
(44_stuffing_codec.md), the checks of INIT and CONFIGURE and the array form of a Huffman specification (40_lifecycle.md,
41_table_injector.md), and the acceptance of an engine stream (45_block_encoder.md). -/

namespace Sys2Proof.Machine

/-- `v[15:8]` as a byte (R11, R71). -/
def highByte (v : Nat) : Byte := BitVec.ofNat 8 (v / 256)

/-- `v[7:0]` as a byte (R11, R71). -/
def lowByte (v : Nat) : Byte := BitVec.ofNat 8 v

/-- SOF (R10). -/
def sofByte (p : Nat) : Byte := if p = 8 then 0xC0#8 else 0xC1#8

/-- The Header of `synth(w, h, d, P)` (R180): start, frame, scan. -/
def synthHeader (w h d p : Nat) : List Byte :=
  [0xFF#8, 0xD8#8]
  ++ [0xFF#8, sofByte p, 0x00#8, 0x0B#8, lowByte p, highByte (h * d), lowByte (h * d), highByte w, lowByte w, 0x01#8, 0x01#8, 0x11#8,
      0x00#8]
  ++ [0xFF#8, 0xDA#8, 0x00#8, 0x08#8, 0x01#8, 0x01#8, 0x00#8, 0x00#8, 0x3F#8, 0x00#8]

/-- The Footer of `synth` (R180, R111). -/
def synthFooter : List Byte := [0xFF#8, 0xD9#8]

/-- `verify_framing(s, hdr, ftr)` (R184). -/
def verifyFraming (s hdr ftr : List Byte) : Except Err Unit :=
  let n := s.length
  match (List.range 25).find? fun k => s[k]? != hdr[k]? with
  | some k => .error ⟨.headerMismatch, k⟩
  | none =>
    if n < 27 then .error ⟨.footerMismatch, n⟩
    else if s[n - 2]? ≠ ftr[0]? then .error ⟨.footerMismatch, n - 2⟩
    else if s[n - 1]? ≠ ftr[1]? then .error ⟨.footerMismatch, n - 1⟩
    else .ok ()

/-- The entropy region `s[25 .. n − 2)` of an engine stream (R114). -/
def entropyRegion (s : List Byte) : List Byte := (s.drop 25).take (s.length - 27)

/-- `stuff` (R220). -/
def stuff : List Byte → List Byte
  | [] => []
  | b :: rest => if b = 0xFF#8 then b :: 0x00#8 :: stuff rest else b :: stuff rest

/-- `unstuff` (R221) of a sequence whose first byte has index `k`: the bytes, or the index of the first 0xFF not followed by 0x00. -/
def unstuffFrom (k : Nat) : List Byte → Except Nat (List Byte)
  | [] => .ok []
  | b :: rest =>
    if b = 0xFF#8 then
      match rest with
      | [] => .error k
      | z :: rest' =>
        if z = 0x00#8 then
          match unstuffFrom (k + 2) rest' with
          | .ok out => .ok (0xFF#8 :: out)
          | .error e => .error e
        else .error k
    else
      match unstuffFrom (k + 1) rest with
      | .ok out => .ok (b :: out)
      | .error e => .error e

/-- `unstuff` (R221). -/
def unstuff (y : List Byte) : Except Nat (List Byte) := unstuffFrom 0 y

/-- What ENCODE makes of the engine's output (R241 steps 3 to 5, in their order, R320): the payload, or the error raised. -/
def acceptStream (hdr ftr out : List Byte) : Except Err (List Byte) :=
  if Config.ebufCap < out.length then .error ⟨.overflow, out.length⟩
  else
    match verifyFraming out hdr ftr with
    | .error e => .error e
    | .ok _ =>
      match unstuff (entropyRegion out) with
      | .error k => .error ⟨.unescapedFf, k⟩
      | .ok p => .ok p

/-- Rows 1 to 6 of INIT's checks (R142), in their order: the first that fails. -/
def initCheck (w h d p rowPitch planePitch : Nat) : Option Err :=
  if p ≠ 8 ∧ p ≠ 12 then some ⟨.badPrec, p⟩
  else if w = 0 then some ⟨.zeroDim, 0⟩
  else if h = 0 then some ⟨.zeroDim, 1⟩
  else if d = 0 then some ⟨.zeroDim, 2⟩
  else if w % 8 ≠ 0 then some ⟨.notMult8, 0⟩
  else if h % 8 ≠ 0 then some ⟨.notMult8, 1⟩
  else if d % 8 ≠ 0 then some ⟨.notMult8, 2⟩
  else if 65535 < w then some ⟨.dimRange, 0⟩
  else if 65535 < h * d then some ⟨.dimRange, 1⟩
  else if Config.maxSamples < w * h * d then some ⟨.capacity, 0⟩
  else if rowPitch ≠ w then some ⟨.stride, 0⟩
  else if planePitch ≠ w * h then some ⟨.stride, 1⟩
  else none

/-- `T_K`, the total of the staged counts as an exact natural (R161). -/
def symbolTotal (cnt : List Half) : Nat := (cnt.map BitVec.toNat).sum

/-- Rows 2 to 4 of CONFIGURE's checks (R161) for one kind; `info` is 0 for DC and 1 for AC. -/
def huffCheck (info ncls : Nat) (cnt : List Half) : Option Err :=
  if ncls ≠ 16 then some ⟨.huffNcls, info⟩
  else if 256 < symbolTotal cnt then some ⟨.huffNsym, info⟩
  else if cnt.any (fun c => 255 < c.toNat) then some ⟨.huffClassOvf, info⟩
  else none

/-- Rows 1 to 7 of CONFIGURE's checks (R161): the quantization table's size, then DC, then AC. -/
def configureCheck (qtN nclsDC nclsAC : Nat) (cntDC cntAC : List Half) : Option Err :=
  if qtN ≠ 64 then some ⟨.qtSize, qtN⟩
  else
    match huffCheck 0 nclsDC cntDC with
    | some e => some e
    | none => huffCheck 1 nclsAC cntAC

/-- The code-length histogram of `huff_arrays` (R162): the sixteen counts, then zeros up to 256 slots. -/
def huffCounts (cnt : List Half) : List Byte := cnt.map (BitVec.setWidth 8) ++ List.replicate 240 0#8

/-- The symbol values of `huff_arrays` (R162): the first `T` staged symbols, then zeros up to 256 slots. -/
def huffValues (cnt : List Half) (sym : List Byte) : List Byte :=
  sym.take (symbolTotal cnt) ++ List.replicate (256 - symbolTotal cnt) 0#8

end Sys2Proof.Machine
end

