-- ==== Sys2Proof/Machine/Ops.lean ====
section
/-! DEFINITION. The named operations over spaces and registers, the ECE transactions (47_engine_port.md), and TAKING AN ERROR, the one
shared operation that ends a command (60_exceptions.md rule R312, 40_lifecycle.md rule R147), with CLRERR's acknowledgement beside it:
the FE has no return from an error (R323). -/

namespace Sys2Proof.Machine

/-! ## Spaces (R40, R70, R77) -/

/-- The specified content of an element, if it has one. -/
def Space.get? {w : Nat} (sp : Space w) (i : Nat) : Option (BitVec w) := sp.cells.lookup i

/-- Reading element `i` (R31): its content, or draw number `draw` when the content is unspecified (log 2). -/
def Space.read {w : Nat} (sp : Space w) (draw i : Nat) : BitVec w := (sp.get? i).getD (Config.freeBits w draw)

/-- `MemRead(SPACE, a, n)` (R12), each element with a draw number of its own. -/
def Space.readRange {w : Nat} (sp : Space w) (draw a n : Nat) : List (BitVec w) :=
  (List.range n).map fun k => sp.read (draw + k) (a + k)

/-- The cells of a sequence stored from index `a` on. -/
def cellsFrom {w : Nat} (a : Nat) : List (BitVec w) → List (Nat × BitVec w)
  | [] => []
  | v :: vs => (a, v) :: cellsFrom (a + 1) vs

/-- `MemWrite(SPACE, a, n, v)` (R12): indices `a .. a + n − 1` get the sequence, every other element stays. -/
def Space.write {w : Nat} (sp : Space w) (a : Nat) (vs : List (BitVec w)) : Space w :=
  ⟨sp.cells.filter (fun c => c.1 < a) ++ cellsFrom a vs ++ sp.cells.filter (fun c => a + vs.length ≤ c.1)⟩

/-- The contents of indices `0 .. n − 1` become unspecified, every other element stays (R241, R261, R316). -/
def Space.voidBelow {w : Nat} (sp : Space w) (n : Nat) : Space w := ⟨sp.cells.filter (fun c => n ≤ c.1)⟩

/-- A space of which exactly the elements `0 .. n − 1` are specified. -/
def Space.exactly {w : Nat} (vs : List (BitVec w)) : Space w := ⟨cellsFrom 0 vs⟩

/-- The canonical form of a space of `len` elements: indices strictly rising and below the length (R40). An unlisted index reads as a
fresh draw, so no entry equals what an unlisted index reads as. -/
abbrev Space.wf {w : Nat} (len : Nat) (sp : Space w) : Prop :=
  sp.cells.Pairwise (fun a b => a.1 < b.1) ∧ ∀ c ∈ sp.cells, c.1 < len

/-- The canonical form of the seventeen spaces, with the lengths of R40. -/
abbrev Memory.wf (m : Memory) : Prop :=
  m.qtStage.wf 64 ∧ m.hsCntDC.wf 16 ∧ m.hsSymDC.wf 256 ∧ m.hsCntAC.wf 16 ∧ m.hsSymAC.wf 256
  ∧ m.blkIn.wf Config.maxSamples ∧ m.blkOut.wf Config.maxSamples ∧ m.xbuf.wf Config.maxSamples
  ∧ m.ebuf.wf Config.ebufCap ∧ m.pbuf.wf Config.pbufCap ∧ m.hdr.wf 25 ∧ m.ftr.wf 2
  ∧ m.qtab.wf 64 ∧ m.hufCntDC.wf 256 ∧ m.hufValDC.wf 256 ∧ m.hufCntAC.wf 256 ∧ m.hufValAC.wf 256

/-! ## State updates -/

/-- The state with other spaces. -/
def State.setMem (m : Memory) (s : State) : State := { s with mem := m }

/-- The state with other CSRs. -/
def State.setCsr (c : Csrs) (s : State) : State := { s with csr := c }

/-- `state <- S` (R12). -/
def State.setLifecycle (l : Lifecycle) (s : State) : State := { s with lifecycle := l }

/-- The state with another ECE context. -/
def State.setCtx (c : Option EceContext) (s : State) : State := { s with ece := { s.ece with ctx := c } }

/-- `n` more free values have been drawn (log 2). -/
def State.advance (n : Nat) (s : State) : State := { s with draws := s.draws + n }

/-- `MemRead(HDR, 0, 25)`. -/
def State.readHdr (s : State) : List Byte := s.mem.hdr.readRange s.draws 0 25

/-- `MemRead(FTR, 0, 2)`, with the draws after those of HDR. -/
def State.readFtr (s : State) : List Byte := s.mem.ftr.readRange (s.draws + 25) 0 2

/-- The state after HDR and FTR have been read. -/
def State.afterFraming (s : State) : State := s.advance 27

/-! ## ECE transactions (R281, R282) -/

/-- Issue one transaction and take the ECE's answer: the next of `replies`, or a free one when the list is empty (R300 c, log 4). -/
def State.issue (t : Transaction) (s : State) : Reply × State :=
  match s.ece.replies with
  | r :: rest => (r, { s with ece := { s.ece with port := s.ece.port ++ [t], replies := rest } })
  | [] => (Config.eceReply s.draws, { s with ece := { s.ece with port := s.ece.port ++ [t] }, draws := s.draws + 1 })

/-- What the context holds between images; no table and no precision where there is no context. -/
def State.eceCfg (s : State) : EceCfg :=
  match s.ece.ctx with
  | some c => c.cfg
  | none => ⟨0, none, none, none⟩

/-- The image the context is driven through. -/
def State.ecePhase (s : State) : EcePhase :=
  match s.ece.ctx with
  | some c => c.phase
  | none => .idle

/-- The context with other tables. -/
def State.setCfg (c : EceCfg) (s : State) : State := s.setCtx (some ⟨c, s.ecePhase⟩)

/-- The context in another phase. -/
def State.setPhase (p : EcePhase) (s : State) : State := s.setCtx (some ⟨s.eceCfg, p⟩)

/-- `create_context(precision)` (R292): the new context is idle and holds no tables. `true` is an engine error. -/
def State.eceCreate (precision : Nat) (s : State) : Bool × State :=
  let a := s.issue (.createContext precision)
  if a.1.error then (true, a.2) else (false, a.2.setCtx (some ⟨⟨precision, none, none, none⟩, .idle⟩))

/-- `destroy_context(ctx)` (R293): afterwards the context does not exist, and an engine error is ignored. -/
def State.eceDestroy (s : State) : State := (s.issue .destroyContext).2.setCtx none

/-- `set_quant_table(ctx, 0, q)` (R283, R163). -/
def State.eceSetQuant (q : List Half) (s : State) : Bool × State :=
  let a := s.issue (.setQuantTable 0 q)
  if a.1.error then (true, a.2) else (false, a.2.setCfg { a.2.eceCfg with quant := some q })

/-- `set_huffman_table(ctx, kind, 0, lengths, symbols)` (R284, R163). -/
def State.eceSetHuffman (kind : HuffKind) (t : HuffTable) (s : State) : Bool × State :=
  let a := s.issue (.setHuffmanTable kind 0 t)
  if a.1.error then (true, a.2)
  else
    match kind with
    | .dc => (false, a.2.setCfg { a.2.eceCfg with dc := some t })
    | .ac => (false, a.2.setCfg { a.2.eceCfg with ac := some t })

/-- ECE_ENC (R300 a): the value the table gives, or the uninterpreted function's (log 5). -/
def State.eceEnc (s : State) (key : EncKey) : List Byte := (s.ece.encTable.lookup key).getD (Config.eceEnc key)

/-- ECE_DEC (R300 b) at one cell of the image: the value the table gives, or the uninterpreted function's, kept below 2^ESW as the ECE
is obliged to (R296, logs 5 and 6). -/
def State.eceDec (s : State) (p : Nat) (key : DecKey) (cell : Nat) : Half :=
  cellBits p (((s.ece.decTable.lookup key).bind (fun cells => cells[cell]?)).getD (Config.eceDec key cell))

/-- Recovery of the context (R298): destroy, create, and inject the shadows again. `none` when one of the four transactions after
`destroy_context` answers engine error (U5). -/
def State.recover (s : State) : Option State :=
  let q := s.mem.qtab.readRange s.draws 0 64
  let dc : HuffTable := ⟨s.mem.hufCntDC.readRange (s.draws + 64) 0 16, s.mem.hufValDC.readRange (s.draws + 80) 0 256⟩
  let ac : HuffTable := ⟨s.mem.hufCntAC.readRange (s.draws + 336) 0 16, s.mem.hufValAC.readRange (s.draws + 352) 0 256⟩
  let c := ((s.advance 608).eceDestroy).eceCreate s.precision
  if c.1 then none
  else
    let x := c.2.eceSetQuant q
    if x.1 then none
    else
      let y := x.2.eceSetHuffman .dc dc
      if y.1 then none
      else
        let z := y.2.eceSetHuffman .ac ac
        if z.1 then none else some z.2

/-! ## Taking an error (R312, R315, R316, R318) and ending a command (R147) -/

/-- Teardown (R144), shared by DESTROY and by every ConfigurationError: the context is destroyed when one exists, CFG is cleared, header,
footer and shadows become unspecified, and the state is UNCONFIGURED. -/
def State.teardown (s : State) : State :=
  let t := if s.lifecycle = .unconfigured then s else s.eceDestroy
  { t with
    lifecycle := .unconfigured
    csr := { t.csr with cfgW := 0#32, cfgH := 0#32, cfgD := 0#32, cfgP := 0#32 }
    mem := { t.mem with
      hdr := .unspecified 8, ftr := .unspecified 8, qtab := .unspecified 16
      hufCntDC := .unspecified 8, hufValDC := .unspecified 8, hufCntAC := .unspecified 8, hufValAC := .unspecified 8 } }

/-- The outputs and scratch of ENCODE: lengths 0, contents unspecified (R241 step 0, R316). -/
def State.voidEncode (s : State) : State :=
  { s with
    csr := { s.csr with elen := 0#32, plen := 0#32 }
    mem := { s.mem with xbuf := s.mem.xbuf.voidBelow s.nSamp, ebuf := .unspecified 8, pbuf := .unspecified 8 } }

/-- The outputs and scratch of DECODE: length 0, contents unspecified (R261 step 0, R316). -/
def State.voidDecode (s : State) : State :=
  { s with
    csr := { s.csr with elen := 0#32 }
    mem := { s.mem with
      ebuf := .unspecified 8, xbuf := s.mem.xbuf.voidBelow s.nSamp, blkOut := s.mem.blkOut.voidBelow s.nSamp } }

/-- What a FramingViolation or DecoderStalled voids, per command (R316). -/
def State.voidOutputs (i : Instr) (s : State) : State :=
  match i with
  | .stuff => { s with csr := { s.csr with elen := 0#32 }, mem := { s.mem with ebuf := .unspecified 8 } }
  | .unstuff => { s with csr := { s.csr with plen := 0#32 }, mem := { s.mem with pbuf := .unspecified 8 } }
  | .encode => s.voidEncode
  | .decode => s.voidDecode
  | .nop | .init | .configure | .synth | .verify | .map | .unmap | .clrerr | .destroy => s

/-- The effects of an error's class (R312). -/
def State.errorEffects (i : Instr) (c : Cause) (s : State) : State :=
  match classOf c with
  | .configurationError => s.teardown
  | .framingViolation | .decoderStalled => s.voidOutputs i
  | .sequenceError => s

/-- TAKING AN ERROR in command `i` (R312): the effects of its class, then the result registers and STATUS.ERR. Nothing is vectored and
nothing is saved (R310, R322). -/
def State.takeError (i : Instr) (e : Err) (s : State) : State := (s.errorEffects i e.cause).finish (errorCode e.cause) e.info

/-- Acknowledging errors (R146): STATUS.ERR <- 0. There is no return from an error (R323). -/
def State.acknowledge (s : State) : State := { s with csr := { s.csr with err := false } }

/-- How the body of a command ends (R147): by falling off its end, by raising an error, or in the one case the spec leaves without an
effect (R298, U5). -/
inductive BodyResult where
  | done (s : State)
  | raise (e : Err) (s : State)
  | fault (r : Fault)
  deriving DecidableEq, Repr

/-- The frame every command but NOP runs in, from the state check on (R147). -/
def runCommand (i : Instr) (body : State → BodyResult) (s : State) : Host.Outcome State Fault Refusal :=
  if legalIn i s.lifecycle then
    match body s with
    | .done t => .next (t.finish 0#32 0)
    | .raise e t => .next (t.takeError i e)
    | .fault r => .fault r
  else .next (s.takeError i ⟨.badState, (opcodeOf i).toNat⟩)

/-- What an illegal command word does (R102, R147): SequenceError BAD_CMD with the word in ERRINFO. -/
def State.illegalWord (c : Word) (s : State) : State := s.finish (errorCode .badCmd) c.toNat

/-- Recover, then raise the error (R241 label E, R261 label E); an engine error during recovery is the fault of U5. -/
def recoverThenRaise (e : Err) (s : State) : BodyResult :=
  match s.recover with
  | some t => .raise e t
  | none => .fault .recoveryFailed

end Sys2Proof.Machine
end

