-- ==== Sys2Proof/Machine/Mapper.lean ====
section
/-! DEFINITION. The Scanline Mapper: MAP and UNMAP (43_scanline_mapper.md). -/

namespace Sys2Proof.Machine

/-- The rows that the block in BLK_IN maps to (R205); the sample at index `n` is read with draw number `draws + n`. -/
def State.blockRows (s : State) : List (List Half) :=
  mapRows s.width s.height s.depth s.precision fun n => s.mem.blkIn.read (s.draws + n) n

/-- The loops of R204: `XBUF[i × w + x]` for every row `i` and column `x`. -/
def State.mapBlock (s : State) : State :=
  { s with mem := { s.mem with xbuf := s.mem.xbuf.write 0 s.blockRows.flatten }, draws := s.draws + s.nSamp }

/-- The samples that the rows in XBUF unmap to (R206); cell `n` is read with draw number `draws + n`. -/
def State.rowSamples (s : State) : List Half :=
  unmapBlock s.width s.height s.depth s.precision fun x i =>
    s.mem.xbuf.read (s.draws + (rowPtr s.width i + x)) (rowPtr s.width i + x)

/-- The loops of R206: `BLK_OUT[x + w × y + w × h × z]` for every sample. -/
def State.unmapRows (s : State) : State :=
  { s with mem := { s.mem with blkOut := s.mem.blkOut.write 0 s.rowSamples }, draws := s.draws + s.nSamp }

/-- MAP (R204). -/
def execMap (s : State) : Host.Outcome State Fault Refusal := runCommand .map (fun t => .done t.mapBlock) s

/-- UNMAP (R206). -/
def execUnmap (s : State) : Host.Outcome State Fault Refusal := runCommand .unmap (fun t => .done t.unmapRows) s

end Sys2Proof.Machine
end

