-- ==== Sys2Proof/Machine/Encoder.lean ====
section
/-! DEFINITION. The Block Encoder: ENCODE (45_block_encoder.md). -/

namespace Sys2Proof.Machine

/-- How driving the engine through one image ends: with its result, or with the error that the command raises after recovery. -/
inductive EngineRun (α : Type) where
  | ok (a : α) (s : State)
  | bad (e : Err) (s : State)
  deriving Repr

/-- `begin_compress(ctx, w, h × d, 1)` (R285). -/
def State.eceBeginCompress (s : State) : Bool × State :=
  let a := s.issue (.beginCompress s.width s.nRows 1)
  if a.1.error then (true, a.2) else (false, a.2.setPhase (.compressing s.width s.nRows []))

/-- The rows `a .. a + n − 1` as the ECE reads them from XBUF: `w` cells from each row pointer on, the low ESW bits of each (R286). -/
def State.xbufRows (a n : Nat) (s : State) : List (List Half) :=
  (List.range n).map fun k =>
    (s.mem.xbuf.readRange (s.draws + k * s.width) (rowPtr s.width (a + k)) s.width).map (cellBits s.precision)

/-- The ECE accepts rows `a .. a + n − 1` after those it has (R286). -/
def State.acceptRows (a n : Nat) (s : State) : State :=
  match s.ecePhase with
  | .compressing w h rows => (s.setPhase (.compressing w h (rows ++ s.xbufRows a n))).advance (n * s.width)
  | .idle | .decompressing _ _ => s.advance (n * s.width)

/-- `write_scanlines(ctx, rows = [RP(done), .., RP(NROWS−1)])` (R286): the number of rows accepted, `none` for an engine error or a
count out of range, which R241 treats alike. -/
def State.eceWriteScanlines (done : Nat) (s : State) : Option Nat × State :=
  let a := s.issue (.writeScanlines (rowPtrs s.width done (s.nRows - done)))
  if a.1.error then (none, a.2)
  else if a.1.count = 0 ∨ s.nRows - done < a.1.count then (none, a.2)
  else (some a.1.count, a.2.acceptRows done a.1.count)

/-- The write loop of R241 step 2. `done` grows by at least 1 per iteration, so with `fuel` at least the number of missing rows the
first line is reached only when no row is missing. -/
def writeRows : Nat → Nat → State → EngineRun Unit
  | 0, _, s => .ok () s
  | fuel + 1, done, s =>
    if done < s.nRows then
      match s.eceWriteScanlines done with
      | (none, t) => .bad ⟨.engineError, done⟩ t
      | (some n, t) => writeRows fuel (done + n) t
    else .ok () s

/-- The arguments of ECE_ENC for the image in progress (R300 a). -/
def State.encKey (s : State) : EncKey :=
  match s.ecePhase with
  | .compressing w h rows => ⟨s.eceCfg, w, h, rows⟩
  | .idle | .decompressing _ _ => ⟨s.eceCfg, 0, 0, []⟩

/-- `output[0 .. used_len)` of `finish_compress` (R287, R300): ECE_ENC's bytes, or other bytes, and those only on a run that is going
to fail with them (R300 c, log 5). -/
def State.encOutput (hdr ftr : List Byte) (r : Reply) (s : State) : List Byte :=
  match r.output with
  | none => s.eceEnc s.encKey
  | some b =>
    match acceptStream hdr ftr b with
    | .ok _ => s.eceEnc s.encKey
    | .error _ => b

/-- `finish_compress(ctx)` (R287): the output, `none` for an engine error; afterwards the context is idle. -/
def State.eceFinishCompress (hdr ftr : List Byte) (s : State) : Option (List Byte) × State :=
  let a := s.issue .finishCompress
  if a.1.error then (none, a.2) else (some (a.2.encOutput hdr ftr a.1), a.2.setPhase .idle)

/-- Step 2 of R241: begin, write loop, finish. -/
def driveCompress (hdr ftr : List Byte) (s : State) : EngineRun (List Byte) :=
  let b := s.eceBeginCompress
  if b.1 then .bad ⟨.engineError, 0⟩ b.2
  else
    match writeRows s.nRows 0 b.2 with
    | .bad e t => .bad e t
    | .ok _ t =>
      match t.eceFinishCompress hdr ftr with
      | (none, u) => .bad ⟨.engineError, s.nRows⟩ u
      | (some out, u) => .ok out u

/-- The results of a successful ENCODE (R241 steps 3 and 5): the stream in EBUF, the payload in PBUF, their lengths. -/
def State.storePayload (out p : List Byte) (s : State) : State :=
  ((s.setMem { s.mem with ebuf := .exactly out, pbuf := .exactly p }).setElen out.length).setPlen p.length

/-- ENCODE's body (R241). Steps 3 to 5 issue no transaction, and what they check is decided before anything is stored, since an error
voids EBUF and PBUF (R316). -/
def encodeBody (s : State) : BodyResult :=
  let s1 := s.voidEncode.mapBlock
  match driveCompress s1.readHdr s1.readFtr s1.afterFraming with
  | .bad e t => recoverThenRaise e t
  | .ok out t =>
    match acceptStream s1.readHdr s1.readFtr out with
    | .error e => .raise e t
    | .ok p => .done (t.storePayload out p)

/-- ENCODE (R240). -/
def execEncode (s : State) : Host.Outcome State Fault Refusal := runCommand .encode encodeBody s

end Sys2Proof.Machine
end

