-- ==== Sys2Proof/Machine/Decoder.lean ====
section
/-! DEFINITION. The Block Decoder: DECODE (46_block_decoder.md). -/

namespace Sys2Proof.Machine

/-- `read_header(ctx, input)` (R288): the whole framed stream. -/
def State.eceReadHeader (input : List Byte) (s : State) : Bool × State :=
  let a := s.issue (.readHeader input)
  if a.1.error then (true, a.2) else (false, a.2.setPhase (.decompressing input 0))

/-- `begin_decompress(ctx)` (R289). -/
def State.eceBeginDecompress (s : State) : Bool × State :=
  let a := s.issue .beginDecompress
  (a.1.error, a.2)

/-- The arguments of ECE_DEC for the image in progress (R300 b). -/
def State.decKey (s : State) : DecKey :=
  match s.ecePhase with
  | .decompressing stream _ => ⟨s.eceCfg, stream⟩
  | .idle | .compressing _ _ _ => ⟨s.eceCfg, []⟩

/-- The ECE delivers rows `a .. a + n − 1` into XBUF (R290, R300 b). -/
def State.deliverRows (a n : Nat) (s : State) : State :=
  let cells := (List.range (n * s.width)).map fun k => s.eceDec s.precision s.decKey (rowPtr s.width a + k)
  let t := s.setMem { s.mem with xbuf := s.mem.xbuf.write (rowPtr s.width a) cells }
  match s.ecePhase with
  | .decompressing stream k => t.setPhase (.decompressing stream (k + n))
  | .idle | .compressing _ _ _ => t

/-- `read_scanlines(ctx, rows = [RP(done), .., RP(NROWS−1)], max = NROWS − done)` (R290), with the FE's reaction to the answer (R261):
a zero count is a stall, an engine error or a count above `max` is an engine error. -/
def State.eceReadScanlines (done : Nat) (s : State) : Except Err Nat × State :=
  let a := s.issue (.readScanlines (rowPtrs s.width done (s.nRows - done)) (s.nRows - done))
  if a.1.error then (.error ⟨.engineError, done⟩, a.2)
  else if a.1.count = 0 then (.error ⟨.decoderStalled, done⟩, a.2)
  else if s.nRows - done < a.1.count then (.error ⟨.engineError, done⟩, a.2)
  else (.ok a.1.count, a.2.deliverRows done a.1.count)

/-- The read loop of R261 step 3. `done` grows by at least 1 per iteration, so with `fuel` at least the number of missing rows the first
line is reached only when no row is missing. -/
def readRows : Nat → Nat → State → EngineRun Unit
  | 0, _, s => .ok () s
  | fuel + 1, done, s =>
    if done < s.nRows then
      match s.eceReadScanlines done with
      | (.error e, t) => .bad e t
      | (.ok n, t) => readRows fuel (done + n) t
    else .ok () s

/-- `finish_decompress(ctx)` (R291): afterwards the context is idle. -/
def State.eceFinishDecompress (s : State) : Bool × State :=
  let a := s.issue .finishDecompress
  if a.1.error then (true, a.2) else (false, a.2.setPhase .idle)

/-- Step 3 of R261: header, begin, read loop, finish. -/
def driveDecompress (stream : List Byte) (s : State) : EngineRun Unit :=
  let r := s.eceReadHeader stream
  if r.1 then .bad ⟨.engineError, 0⟩ r.2
  else
    let b := r.2.eceBeginDecompress
    if b.1 then .bad ⟨.engineError, 0⟩ b.2
    else
      match readRows s.nRows 0 b.2 with
      | .bad e t => .bad e t
      | .ok _ t =>
        let f := t.eceFinishDecompress
        if f.1 then .bad ⟨.engineError, s.nRows⟩ f.2 else .ok () f.2

/-- DECODE's body (R261). -/
def decodeBody (s : State) : BodyResult :=
  let n := s.csr.plen.toNat
  if Config.pbufCap < n then .raise ⟨.badOperand, 13⟩ s
  else
    let t := (s.advance n).voidDecode
    let stream := t.readHdr ++ stuff (s.mem.pbuf.readRange s.draws 0 n) ++ t.readFtr
    let u := t.afterFraming
    if Config.ebufCap < stream.length then .raise ⟨.overflow, stream.length⟩ u
    else
      match driveDecompress stream ((u.setMem { u.mem with ebuf := .exactly stream }).setElen stream.length) with
      | .bad e v => recoverThenRaise e v
      | .ok _ v => .done v.unmapRows

/-- DECODE (R260). -/
def execDecode (s : State) : Host.Outcome State Fault Refusal := runCommand .decode decodeBody s

end Sys2Proof.Machine
end

