-- ==== Sys2Proof/Machine/Framing.lean ====
section
/-! DEFINITION. The Header/Footer Synthesizer: SYNTH and VERIFY (42_header_footer.md). -/

namespace Sys2Proof.Machine

/-- SYNTH's body (R182): header and footer from the latched configuration. -/
def synthBody (s : State) : BodyResult :=
  .done { s with mem := { s.mem with
    hdr := .exactly (synthHeader s.width s.height s.depth s.precision), ftr := .exactly synthFooter } }

/-- SYNTH (R182). -/
def execSynth (s : State) : Host.Outcome State Fault Refusal := runCommand .synth synthBody s

/-- VERIFY's body (R185): the operand check, then `verify_framing` of `EBUF[0 .. ELEN)`; it writes nothing. -/
def verifyBody (s : State) : BodyResult :=
  let n := s.csr.elen.toNat
  if Config.ebufCap < n then .raise ⟨.badOperand, 14⟩ s
  else
    let t := s.advance n
    match verifyFraming (s.mem.ebuf.readRange s.draws 0 n) t.readHdr t.readFtr with
    | .error e => .raise e t.afterFraming
    | .ok _ => .done t.afterFraming

/-- VERIFY (R185). -/
def execVerify (s : State) : Host.Outcome State Fault Refusal := runCommand .verify verifyBody s

end Sys2Proof.Machine
end

