-- ==== Sys2Proof/Machine/Injector.lean ====
section
/-! DEFINITION. The Table Injector: CONFIGURE (41_table_injector.md). -/

namespace Sys2Proof.Machine

/-- The staged tables as one CONFIGURE reads them: each element once, with a draw of its own (log 10). -/
structure StagedTables where
  cntDC : List Half
  cntAC : List Half
  quant : List Half
  symDC : List Byte
  symAC : List Byte
  deriving DecidableEq, Repr

/-- Reading the staging spaces (R47, R48): 16 + 16 + 64 + 256 + 256 elements. -/
def State.readStaging (s : State) : StagedTables where
  cntDC := s.mem.hsCntDC.readRange s.draws 0 16
  cntAC := s.mem.hsCntAC.readRange (s.draws + 16) 0 16
  quant := s.mem.qtStage.readRange (s.draws + 32) 0 64
  symDC := s.mem.hsSymDC.readRange (s.draws + 96) 0 256
  symAC := s.mem.hsSymAC.readRange (s.draws + 352) 0 256

/-- The DC table as it is injected: 16 lengths, 256 symbol slots (R163). -/
def dcTable (t : StagedTables) : HuffTable := ⟨(huffCounts t.cntDC).take 16, huffValues t.cntDC t.symDC⟩

/-- The AC table as it is injected (R163). -/
def acTable (t : StagedTables) : HuffTable := ⟨(huffCounts t.cntAC).take 16, huffValues t.cntAC t.symAC⟩

/-- The shadows after a successful CONFIGURE, and the state READY (R163). -/
def State.install (t : StagedTables) (s : State) : State :=
  { s with
    lifecycle := .ready
    mem := { s.mem with
      qtab := .exactly t.quant
      hufCntDC := .exactly (huffCounts t.cntDC), hufValDC := .exactly (huffValues t.cntDC t.symDC)
      hufCntAC := .exactly (huffCounts t.cntAC), hufValAC := .exactly (huffValues t.cntAC t.symAC) } }

/-- CONFIGURE's effects when rows 1 to 7 have passed: three injections in order, then the shadows (R163, row 8 of R161). -/
def inject (t : StagedTables) (s : State) : BodyResult :=
  let q := s.eceSetQuant t.quant
  if q.1 then .raise ⟨.engineCtx, 1⟩ q.2
  else
    let x := q.2.eceSetHuffman .dc (dcTable t)
    if x.1 then .raise ⟨.engineCtx, 2⟩ x.2
    else
      let y := x.2.eceSetHuffman .ac (acTable t)
      if y.1 then .raise ⟨.engineCtx, 3⟩ y.2 else .done (y.2.install t)

/-- CONFIGURE's body: the checks of R161 in order, then R163. -/
def configureBody (s : State) : BodyResult :=
  let t := s.readStaging
  let s1 := s.advance 608
  match configureCheck s.csr.qtN.toNat s.csr.hsNclsDC.toNat s.csr.hsNclsAC.toNat t.cntDC t.cntAC with
  | some e => .raise e s1
  | none => inject t s1

/-- CONFIGURE (R160). -/
def execConfigure (s : State) : Host.Outcome State Fault Refusal := runCommand .configure configureBody s

end Sys2Proof.Machine
end

