-- ==== Sys2Proof/Machine/Lifecycle.lean ====
section
/-! DEFINITION. The lifecycle commands NOP, INIT, DESTROY and CLRERR (40_lifecycle.md). -/

namespace Sys2Proof.Machine

/-- NOP (R140): nothing at all, not even ERRCODE; legal in every state (R104). -/
def execNop (s : State) : Host.Outcome State Fault Refusal := .next s

/-- INIT's effects when every check has passed (R143). -/
def State.construct (s : State) : State :=
  let w := s.csr.shapeW.toNat
  let h := s.csr.shapeH.toNat
  let d := s.csr.shapeD.toNat
  let p := s.csr.prec.toNat
  { s with
    lifecycle := .constructed
    csr := { s.csr with cfgW := s.csr.shapeW, cfgH := s.csr.shapeH, cfgD := s.csr.shapeD, cfgP := s.csr.prec }
    mem := { s.mem with hdr := .exactly (synthHeader w h d p), ftr := .exactly synthFooter } }

/-- INIT's body: rows 1 to 6 of R142, row 7 by `create_context`, then R143. -/
def initBody (s : State) : BodyResult :=
  match initCheck s.csr.shapeW.toNat s.csr.shapeH.toNat s.csr.shapeD.toNat s.csr.prec.toNat s.csr.rowPitch.toNat
      s.csr.planePitch.toNat with
  | some e => .raise e s
  | none =>
    let c := s.eceCreate s.csr.prec.toNat
    if c.1 then .raise ⟨.engineCtx, 0⟩ c.2 else .done c.2.construct

/-- INIT (R141). -/
def execInit (s : State) : Host.Outcome State Fault Refusal := runCommand .init initBody s

/-- CLRERR (R146). -/
def execClrerr (s : State) : Host.Outcome State Fault Refusal := runCommand .clrerr (fun t => .done t.acknowledge) s

/-- DESTROY (R145). -/
def execDestroy (s : State) : Host.Outcome State Fault Refusal := runCommand .destroy (fun t => .done t.teardown) s

end Sys2Proof.Machine
end

