-- ==== Sys2Proof/Machine/Stuffing.lean ====
section
/-! DEFINITION. The Stuffing Codec: STUFF and UNSTUFF (44_stuffing_codec.md). -/

namespace Sys2Proof.Machine

/-- STUFF's body (R224). EBUF bytes at ELEN and above are unspecified afterwards. -/
def stuffBody (s : State) : BodyResult :=
  let n := s.csr.plen.toNat
  if Config.pbufCap < n then .raise ⟨.badOperand, 13⟩ s
  else
    let out := stuff (s.mem.pbuf.readRange s.draws 0 n)
    let t := s.advance n
    if Config.ebufCap < out.length then .raise ⟨.overflow, out.length⟩ t
    else .done ((t.setMem { t.mem with ebuf := .exactly out }).setElen out.length)

/-- STUFF (R224). -/
def execStuff (s : State) : Host.Outcome State Fault Refusal := runCommand .stuff stuffBody s

/-- UNSTUFF's body (R225). PBUF bytes at PLEN and above are unspecified afterwards (U1, log 11). -/
def unstuffBody (s : State) : BodyResult :=
  let n := s.csr.elen.toNat
  if Config.ebufCap < n then .raise ⟨.badOperand, 14⟩ s
  else
    let t := s.advance n
    match unstuff (s.mem.ebuf.readRange s.draws 0 n) with
    | .error k => .raise ⟨.unescapedFf, k⟩ t
    | .ok out =>
      if Config.pbufCap < out.length then .raise ⟨.overflow, out.length⟩ t
      else .done ((t.setMem { t.mem with pbuf := .exactly out }).setPlen out.length)

/-- UNSTUFF (R225). -/
def execUnstuff (s : State) : Host.Outcome State Fault Refusal := runCommand .unstuff unstuffBody s

end Sys2Proof.Machine
end

