-- ==== Sys2Proof/Machine/HostPort.lean ====
section
/-! DEFINITION. The host's accesses (10_state.md rule R31) and hardware reset (70_reset_and_hazards.md rule R350). A write of CMD is a
command and is `step`'s (R24, R147); every other access is here. -/

namespace Sys2Proof.Machine

/-- What a space is to the host (R40): its length, its element width, and whether the host may write it. -/
structure SpaceInfo where
  len : Nat
  width : Nat
  hostWrites : Bool
  deriving DecidableEq, Repr

/-- The space map (R40); ids 1 to 17 exist. -/
def spaceInfo (id : Nat) : Option SpaceInfo :=
  match id with
  | 1 => some ⟨64, 16, true⟩
  | 2 => some ⟨16, 16, true⟩
  | 3 => some ⟨256, 8, true⟩
  | 4 => some ⟨16, 16, true⟩
  | 5 => some ⟨256, 8, true⟩
  | 6 => some ⟨Config.maxSamples, 16, true⟩
  | 7 => some ⟨Config.maxSamples, 16, false⟩
  | 8 => some ⟨Config.maxSamples, 16, true⟩
  | 9 => some ⟨Config.ebufCap, 8, true⟩
  | 10 => some ⟨Config.pbufCap, 8, true⟩
  | 11 => some ⟨25, 8, false⟩
  | 12 => some ⟨2, 8, false⟩
  | 13 => some ⟨64, 16, false⟩
  | 14 => some ⟨256, 8, false⟩
  | 15 => some ⟨256, 8, false⟩
  | 16 => some ⟨256, 8, false⟩
  | 17 => some ⟨256, 8, false⟩
  | _ => none

/-- The host's read of one element, widened by zeros to the 32 bits of `readData` (log 13): `draw` is the free value's number. -/
def Memory.hostElem (m : Memory) (draw id i : Nat) : Word :=
  match id with
  | 1 => (m.qtStage.read draw i).setWidth 32
  | 2 => (m.hsCntDC.read draw i).setWidth 32
  | 3 => (m.hsSymDC.read draw i).setWidth 32
  | 4 => (m.hsCntAC.read draw i).setWidth 32
  | 5 => (m.hsSymAC.read draw i).setWidth 32
  | 6 => (m.blkIn.read draw i).setWidth 32
  | 7 => (m.blkOut.read draw i).setWidth 32
  | 8 => (m.xbuf.read draw i).setWidth 32
  | 9 => (m.ebuf.read draw i).setWidth 32
  | 10 => (m.pbuf.read draw i).setWidth 32
  | 11 => (m.hdr.read draw i).setWidth 32
  | 12 => (m.ftr.read draw i).setWidth 32
  | 13 => (m.qtab.read draw i).setWidth 32
  | 14 => (m.hufCntDC.read draw i).setWidth 32
  | 15 => (m.hufValDC.read draw i).setWidth 32
  | 16 => (m.hufCntAC.read draw i).setWidth 32
  | 17 => (m.hufValAC.read draw i).setWidth 32
  | _ => 0#32

/-- Writing one element of a host-writable u16 space (R40). -/
def Memory.writeHalf (m : Memory) (id i : Nat) (v : Half) : Memory :=
  match id with
  | 1 => { m with qtStage := m.qtStage.write i [v] }
  | 2 => { m with hsCntDC := m.hsCntDC.write i [v] }
  | 4 => { m with hsCntAC := m.hsCntAC.write i [v] }
  | 6 => { m with blkIn := m.blkIn.write i [v] }
  | 8 => { m with xbuf := m.xbuf.write i [v] }
  | _ => m

/-- Writing one element of a host-writable u8 space (R40). A byte of EBUF or PBUF at or above ELEN or PLEN is kept like the others
(log 11). -/
def Memory.writeByte (m : Memory) (id i : Nat) (v : Byte) : Memory :=
  match id with
  | 3 => { m with hsSymDC := m.hsSymDC.write i [v] }
  | 5 => { m with hsSymAC := m.hsSymAC.write i [v] }
  | 9 => { m with ebuf := m.ebuf.write i [v] }
  | 10 => { m with pbuf := m.pbuf.write i [v] }
  | _ => m

/-- `HostRead(CSR, n)` (R21, R31): CMD and the reserved CSRs read as 0, and so does a number above 31. -/
def State.csrValue (s : State) (n : Nat) : Word :=
  match n with
  | 1 => s.status
  | 2 => s.csr.errcode
  | 3 => s.csr.errinfo
  | 4 => s.csr.shapeW
  | 5 => s.csr.shapeH
  | 6 => s.csr.shapeD
  | 7 => s.csr.prec
  | 8 => s.csr.rowPitch
  | 9 => s.csr.planePitch
  | 10 => s.csr.qtN
  | 11 => s.csr.hsNclsDC
  | 12 => s.csr.hsNclsAC
  | 13 => s.csr.plen
  | 14 => s.csr.elen
  | 15 => s.csr.cfgW
  | 16 => s.csr.cfgH
  | 17 => s.csr.cfgD
  | 18 => s.csr.cfgP
  | _ => 0#32

/-- `HostWrite(CSR, n, v)` for every CSR but CMD (R21, R31): the RW registers are 4 to 14; every other write is ignored. DESIGN CHOICE,
unsafe (log 26): a write that lowers PLEN or ELEN leaves the bytes of PBUF or EBUF at and above the new value as they were, and they read
back, where U1 lists them as any value. -/
def Csrs.hostWrite (c : Csrs) (n : Nat) (v : Word) : Csrs :=
  match n with
  | 4 => { c with shapeW := v }
  | 5 => { c with shapeH := v }
  | 6 => { c with shapeD := v }
  | 7 => { c with prec := v }
  | 8 => { c with rowPitch := v }
  | 9 => { c with planePitch := v }
  | 10 => { c with qtN := v }
  | 11 => { c with hsNclsDC := v }
  | 12 => { c with hsNclsAC := v }
  | 13 => { c with plen := v }
  | 14 => { c with elen := v }
  | _ => c

/-- What a read returned (log 13). -/
def State.setReadData (v : Word) (s : State) : State := { s with host := { s.host with readData := v } }

/-- `HostRead(SPACE, id, i)` (R31): 0 where no element exists; an unspecified element reads as a fresh draw. -/
def State.hostReadElem (id i : Nat) (s : State) : State :=
  match spaceInfo id with
  | none => s.setReadData 0#32
  | some info =>
    if info.len ≤ i then s.setReadData 0#32 else (s.setReadData (s.mem.hostElem s.draws id i)).advance 1

/-- `HostWrite(SPACE, id, i, v)` with a u16 value (R31): ignored where no element exists or the host may not write. -/
def State.hostWriteHalf (id i : Nat) (v : Half) (s : State) : Host.Outcome State Fault Refusal :=
  match spaceInfo id with
  | none => .next s
  | some info =>
    if info.hostWrites = false ∨ info.len ≤ i then .next s
    else if info.width = 16 then .next (s.setMem (s.mem.writeHalf id i v))
    else .refused (.mixedWidthAccess id)

/-- `HostWrite(SPACE, id, i, v)` with a u8 value (R31): ignored where no element exists or the host may not write. -/
def State.hostWriteByte (id i : Nat) (v : Byte) (s : State) : Host.Outcome State Fault Refusal :=
  match spaceInfo id with
  | none => .next s
  | some info =>
    if info.hostWrites = false ∨ info.len ≤ i then .next s
    else if info.width = 8 then .next (s.setMem (s.mem.writeByte id i v))
    else .refused (.mixedWidthAccess id)

/-- Hardware reset (R350, R52): the instance as after power-on, the ECE context forgotten without a transaction. The model's own fields
are not the instance's and stay (log 18). -/
def State.hardwareReset (s : State) : State :=
  { State.reset with ece := { s.ece with ctx := none }, host := s.host, draws := s.draws }

/-- The next access of the host, taken off the list (R80). -/
def State.setPending (rest : List HostAccess) (s : State) : State := { s with host := { s.host with pending := rest } }

/-- The command word an access writes to CMD, if it does (R24). -/
def commandWord : HostAccess → Option Word
  | .writeCsr 0 c => some c
  | .writeCsr (_ + 1) _ | .readCsr _ | .readElem _ _ | .writeByte _ _ _ | .writeHalf _ _ _ | .hardwareReset => none

/-- Every host access but a write of CMD (R31, R350). -/
def State.hostAccess (a : HostAccess) (s : State) : Host.Outcome State Fault Refusal :=
  match a with
  | .readCsr n => .next (s.setReadData (s.csrValue n))
  | .writeCsr n v => .next (s.setCsr (s.csr.hostWrite n v))
  | .readElem id i => .next (s.hostReadElem id i)
  | .writeByte id i v => s.hostWriteByte id i v
  | .writeHalf id i v => s.hostWriteHalf id i v
  | .hardwareReset => .next s.hardwareReset

end Sys2Proof.Machine
end

