-- ==== Sys2Proof/Machine/Step.lean ====
section
/-! DEFINITION. One step: the host's next access (20_memory.md rule R80). A write of CMD runs the command its word encodes, an illegal
word is reported (40_lifecycle.md rule R147), and with no access pending the FE is idle (log 1). -/

namespace Sys2Proof.Machine

/-- The host's next access, performed. -/
def step (s : State) : Host.Outcome State Fault Refusal :=
  match s.host.pending with
  | [] => .next s
  | a :: rest =>
    match commandWord a with
    | none => (s.setPending rest).hostAccess a
    | some c =>
      match decode c with
      | .error _ => .next ((s.setPending rest).illegalWord c)
      | .ok i => exec i (s.setPending rest)

/-- `s` with a write of the command word `w` to CMD as the host's next access (log 1). -/
def State.withFetchWord (s : State) (_nbits w : Nat) : State :=
  s.setPending (.writeCsr 0 (BitVec.ofNat 32 w) :: s.host.pending)

end Sys2Proof.Machine
end

