-- ==== Sys2Proof/Machine/Platform.lean ====
section
/-! DEFINITION. A platform of N_INST instances (60_exceptions.md rule R340): disjoint copies of the state of one instance, each with its
own host port, its own ECE context and its own order of accesses. A platform step is a step of one instance; which one moves is the
environment's choice, so it is an argument. -/

namespace Sys2Proof.Machine

/-- The instances of a platform (R340). -/
structure Platform where
  instances : List State
  deriving DecidableEq, Repr

/-- N_INST instances after hardware reset (R9, R350). DESIGN CHOICE, unsafe for a claim that compares free values of two instances
(log 27): every instance starts with `draws = 0` and no replies, so draws of equal number and width, and free ECE answers of equal number,
are one value in all of them, where R12 and R300 (c) leave them independent. -/
def Platform.reset : Platform := ⟨List.replicate Config.nInst State.reset⟩

/-- Instance `k` performs its host's next access; the others are not touched (R88, R340). An instance that does not exist does nothing. -/
def Platform.step (k : Nat) (p : Platform) : Host.Outcome Platform Fault Refusal :=
  match p.instances[k]? with
  | none => .next p
  | some s =>
    match Machine.step s with
    | .next t => .next ⟨p.instances.set k t⟩
    | .fault r => .fault r
    | .refused r => .refused r

end Sys2Proof.Machine
end

