-- ==== Sys2Proof/Safety.lean ====
section
/-! DEFINITION. What the claims speak of: the legal configurations (40_lifecycle.md rule R142), the state invariants (10_state.md rules
R28, R46, R49, R50, R53), the refusal table (30_encoding.md rule R104), the byte table of the header (R110), and short names for the
result registers after a command. -/

namespace Sys2Proof.Machine

/-! ## Results of a command (R26, R30) -/

/-- The CSRs after a command that ended without error: ERRCODE and ERRINFO are 0, STATUS.ERR keeps its value. -/
def Csrs.okResult (c : Csrs) : Csrs := { c with errcode := 0#32, errinfo := 0#32 }

/-- The CSRs after a command that ended with an error: code, detail, and STATUS.ERR set. -/
def Csrs.errResult (c : Csrs) (code info : Word) : Csrs := { c with errcode := code, errinfo := info, err := true }

/-- A refused command (R318): nothing but the error registers changes. -/
def State.refusedWith (s : State) (code info : Word) : State := { s with csr := s.csr.errResult code info }

/-! ## Legal configurations (R53, R142) -/

/-- Rows 1 to 5 of R142: what every constructed instance's shape and precision satisfy (R53). -/
def LegalShape (w h d p : Nat) : Prop :=
  (p = 8 ∨ p = 12) ∧ 0 < w ∧ 0 < h ∧ 0 < d ∧ w % 8 = 0 ∧ h % 8 = 0 ∧ d % 8 = 0 ∧ w ≤ 65535 ∧ h * d ≤ 65535
  ∧ w * h * d ≤ Config.maxSamples

/-- Staged tables that pass rows 3, 4, 6 and 7 of R161, with the sizes CONFIGURE reads. -/
def TablesOk (t : StagedTables) : Prop :=
  t.cntDC.length = 16 ∧ t.cntAC.length = 16 ∧ t.quant.length = 64 ∧ t.symDC.length = 256 ∧ t.symAC.length = 256
  ∧ symbolTotal t.cntDC ≤ 256 ∧ symbolTotal t.cntAC ≤ 256
  ∧ (∀ c ∈ t.cntDC, c.toNat ≤ 255) ∧ (∀ c ∈ t.cntAC, c.toNat ≤ 255)

/-! ## The invariant (R28, R29, R46, R49, R50, R53) -/

/-- The shadow tables hold nothing specified (R49: in UNCONFIGURED and CONSTRUCTED). -/
def State.ShadowsUnspecified (s : State) : Prop :=
  s.mem.qtab = .unspecified 16 ∧ s.mem.hufCntDC = .unspecified 8 ∧ s.mem.hufValDC = .unspecified 8
  ∧ s.mem.hufCntAC = .unspecified 8 ∧ s.mem.hufValAC = .unspecified 8

/-- What holds in UNCONFIGURED: CFG is 0, nothing synthesized, no ECE context. -/
def State.UnconfiguredOk (s : State) : Prop :=
  (s.csr.cfgW = 0#32 ∧ s.csr.cfgH = 0#32 ∧ s.csr.cfgD = 0#32 ∧ s.csr.cfgP = 0#32)
  ∧ s.mem.hdr = .unspecified 8 ∧ s.mem.ftr = .unspecified 8 ∧ s.ShadowsUnspecified ∧ s.ece.ctx = none

/-- What holds in CONSTRUCTED and READY: a legal configuration, and `HDR ++ FTR = synth(w, h, d, P)`. -/
def State.FramedOk (s : State) : Prop :=
  LegalShape s.width s.height s.depth s.precision
  ∧ s.mem.hdr = .exactly (synthHeader s.width s.height s.depth s.precision) ∧ s.mem.ftr = .exactly synthFooter

/-- What holds in CONSTRUCTED: an idle context without tables. -/
def State.ConstructedOk (s : State) : Prop :=
  s.FramedOk ∧ s.ShadowsUnspecified ∧ s.ece.ctx = some ⟨⟨s.precision, none, none, none⟩, .idle⟩

/-- What holds in READY when the tables `t` are injected: the shadows hold them, and so does the idle context, in slot 0. -/
def State.ReadyWith (s : State) (t : StagedTables) : Prop :=
  s.FramedOk ∧ TablesOk t
  ∧ s.mem.qtab = .exactly t.quant
  ∧ s.mem.hufCntDC = .exactly (huffCounts t.cntDC) ∧ s.mem.hufValDC = .exactly (huffValues t.cntDC t.symDC)
  ∧ s.mem.hufCntAC = .exactly (huffCounts t.cntAC) ∧ s.mem.hufValAC = .exactly (huffValues t.cntAC t.symAC)
  ∧ s.ece.ctx = some ⟨⟨s.precision, some t.quant, some (dcTable t), some (acTable t)⟩, .idle⟩

/-- What holds of the lifecycle state and all that depends on it. -/
def State.LifecycleOk (s : State) : Prop :=
  match s.lifecycle with
  | .unconfigured => s.UnconfiguredOk
  | .constructed => s.ConstructedOk
  | .ready => ∃ t, s.ReadyWith t

/-- The invariant of one instance: the spaces are in canonical form, and the lifecycle state agrees with all that depends on it. -/
def State.Inv (s : State) : Prop := s.mem.wf ∧ s.LifecycleOk

/-- The ERRCODE values of R313: "No other ERRCODE value is ever produced". -/
def errorCodes : List Nat :=
  [0x00, 0x11, 0x12, 0x13, 0x14, 0x15, 0x16, 0x17, 0x18, 0x19, 0x1A, 0x1B, 0x21, 0x22, 0x23, 0x24, 0x25, 0x30, 0x41, 0x42, 0x43]

/-- ERRCODE holds a value of the code table, and a non-zero ERRCODE comes with STATUS.ERR set (R30, R313). -/
def State.ResultOk (s : State) : Prop := s.csr.errcode.toNat ∈ errorCodes ∧ (s.csr.errcode ≠ 0#32 → s.csr.err = true)

/-! ## Tables of the spec -/

/-- The refused entries of the legality table (R104). -/
def refusedIn (i : Instr) (l : Lifecycle) : Bool :=
  match l with
  | .unconfigured => [Instr.configure, .synth, .verify, .map, .unmap, .encode, .decode].contains i
  | .constructed => [Instr.init, .encode, .decode].contains i
  | .ready => [Instr.init].contains i

/-- The header byte by byte (R110): the value at index `k`. -/
def headerTable (w h d p k : Nat) : Nat :=
  match k with
  | 0 => 0xFF
  | 1 => 0xD8
  | 2 => 0xFF
  | 3 => if p = 8 then 0xC0 else 0xC1
  | 4 => 0x00
  | 5 => 0x0B
  | 6 => p
  | 7 => h * d / 256
  | 8 => h * d % 256
  | 9 => w / 256
  | 10 => w % 256
  | 11 => 0x01
  | 12 => 0x01
  | 13 => 0x11
  | 14 => 0x00
  | 15 => 0xFF
  | 16 => 0xDA
  | 17 => 0x00
  | 18 => 0x08
  | 19 => 0x01
  | 20 => 0x01
  | 21 => 0x00
  | 22 => 0x00
  | 23 => 0x3F
  | _ => 0x00

/-- Well-stuffed byte sequences, by the equivalent form of R115: every 0xFF is immediately followed by 0x00. -/
def WellStuffed (y : List Byte) : Prop := ∀ k, y[k]? = some 0xFF#8 → y[k + 1]? = some 0x00#8

/-- The engine output `b` that ENCODE rejects with ERRCODE `code` and ERRINFO `info` (R241 steps 3 to 5), in the order of R246 (h) and
R320: OVERFLOW, then the first header byte that is wrong or missing, then the footer, then, the framing being right, the first 0xFF of
the entropy region `e` that is not followed by 0x00 inside it. -/
def RejectedWith (hdr ftr b : List Byte) (code : Word) (info : Nat) : Prop :=
  (Config.ebufCap < b.length ∧ code = 0x25#32 ∧ info = b.length)
  ∨ (b.length ≤ Config.ebufCap
    ∧ ((info < 25 ∧ b[info]? ≠ hdr[info]? ∧ (∀ j, j < info → b[j]? = hdr[j]?) ∧ code = 0x21#32)
      ∨ ((∀ j, j < 25 → b[j]? = hdr[j]?) ∧ code = 0x22#32
        ∧ ((b.length < 27 ∧ info = b.length)
          ∨ (27 ≤ b.length ∧ b[b.length - 2]? ≠ ftr[0]? ∧ info = b.length - 2)
          ∨ (27 ≤ b.length ∧ b[b.length - 2]? = ftr[0]? ∧ b[b.length - 1]? ≠ ftr[1]? ∧ info = b.length - 1)))
      ∨ (∃ e, b = hdr ++ e ++ ftr ∧ WellStuffed (e.take info) ∧ e[info]? = some 0xFF#8 ∧ e[info + 1]? ≠ some 0x00#8
        ∧ code = 0x23#32)))

/-- The space map of R40, written apart from the one `step` uses: length and element width of space `id`, where it exists. -/
def spaceSize (id : Nat) : Option (Nat × Nat) :=
  match id with
  | 1 | 13 => some (64, 16)
  | 2 | 4 => some (16, 16)
  | 3 | 5 | 14 | 15 | 16 | 17 => some (256, 8)
  | 6 | 7 | 8 => some (Config.maxSamples, 16)
  | 9 => some (Config.ebufCap, 8)
  | 10 => some (Config.pbufCap, 8)
  | 11 => some (25, 8)
  | 12 => some (2, 8)
  | _ => none

/-- The content of element `i` of space `id`, by the names of R40, widened by zeros to 32 bits; `none` where it is unspecified. -/
def Memory.content (m : Memory) (id i : Nat) : Option Word :=
  match id with
  | 1 => (m.qtStage.get? i).map (BitVec.setWidth 32)
  | 2 => (m.hsCntDC.get? i).map (BitVec.setWidth 32)
  | 3 => (m.hsSymDC.get? i).map (BitVec.setWidth 32)
  | 4 => (m.hsCntAC.get? i).map (BitVec.setWidth 32)
  | 5 => (m.hsSymAC.get? i).map (BitVec.setWidth 32)
  | 6 => (m.blkIn.get? i).map (BitVec.setWidth 32)
  | 7 => (m.blkOut.get? i).map (BitVec.setWidth 32)
  | 8 => (m.xbuf.get? i).map (BitVec.setWidth 32)
  | 9 => (m.ebuf.get? i).map (BitVec.setWidth 32)
  | 10 => (m.pbuf.get? i).map (BitVec.setWidth 32)
  | 11 => (m.hdr.get? i).map (BitVec.setWidth 32)
  | 12 => (m.ftr.get? i).map (BitVec.setWidth 32)
  | 13 => (m.qtab.get? i).map (BitVec.setWidth 32)
  | 14 => (m.hufCntDC.get? i).map (BitVec.setWidth 32)
  | 15 => (m.hufValDC.get? i).map (BitVec.setWidth 32)
  | 16 => (m.hufCntAC.get? i).map (BitVec.setWidth 32)
  | 17 => (m.hufValAC.get? i).map (BitVec.setWidth 32)
  | _ => none

/-! ## ECE answers in claims -/

/-- A run of row counts that brings the rows from `done` to `total`: normal answers, each of at least one row and none beyond what is
asked (R286, R290). -/
def RowCounts : Nat → Nat → List Reply → Prop
  | done, total, [] => done = total
  | done, total, r :: rs => r.error = false ∧ 0 < r.count ∧ done + r.count ≤ total ∧ RowCounts (done + r.count) total rs

/-- The `write_scanlines` transactions of such a run (R286, R294). -/
def writeCalls (w total : Nat) : Nat → List Reply → List Transaction
  | _, [] => []
  | done, r :: rs => .writeScanlines (rowPtrs w done (total - done)) :: writeCalls w total (done + r.count) rs

/-- The `read_scanlines` transactions of such a run (R290, R294). -/
def readCalls (w total : Nat) : Nat → List Reply → List Transaction
  | _, [] => []
  | done, r :: rs => .readScanlines (rowPtrs w done (total - done)) (total - done) :: readCalls w total (done + r.count) rs

/-- The runs of answers on which driving the engine through an ENCODE fails (R241 step 2), with the transactions issued up to the
failure and the number `k` of rows accepted by then: an engine error of `begin_compress`; an engine error, a zero count or a count above
the offer of a `write_scanlines` (R286); an engine error of `finish_compress`. `n` is NROWS. -/
inductive CompressFails (w n : Nat) : List Reply → List Transaction → Nat → Prop where
  | atBegin (bad : Reply) (h : bad.error = true) : CompressFails w n [bad] [.beginCompress w n 1] 0
  | atRows (first bad : Reply) (counts : List Reply) (k : Nat) (hf : first.error = false) (hc : RowCounts 0 k counts) (hk : k < n)
      (h : bad.error = true ∨ bad.count = 0 ∨ n - k < bad.count) :
      CompressFails w n (first :: (counts ++ [bad]))
        ([.beginCompress w n 1] ++ writeCalls w n 0 counts ++ [.writeScanlines (rowPtrs w k (n - k))]) k
  | atFinish (first bad : Reply) (counts : List Reply) (hf : first.error = false) (hc : RowCounts 0 n counts) (h : bad.error = true) :
      CompressFails w n (first :: (counts ++ [bad])) ([.beginCompress w n 1] ++ writeCalls w n 0 counts ++ [.finishCompress]) n

/-- The runs of answers on which driving the engine through a DECODE of `stream` fails (R261 step 3), with the transactions issued up to
the failure, the number `k` of rows delivered by then, and the ERRCODE: DecoderStalled for a zero count (R290), ENGINE_ERROR for an engine
error of any of the four transactions and for a count above the request. `n` is NROWS. -/
inductive DecompressFails (w n : Nat) (stream : List Byte) : List Reply → List Transaction → Nat → Word → Prop where
  | atHeader (bad : Reply) (h : bad.error = true) : DecompressFails w n stream [bad] [.readHeader stream] 0 0x24#32
  | atBegin (header bad : Reply) (hh : header.error = false) (h : bad.error = true) :
      DecompressFails w n stream [header, bad] [.readHeader stream, .beginDecompress] 0 0x24#32
  | atRows (header begun bad : Reply) (counts : List Reply) (k : Nat) (hh : header.error = false) (hb : begun.error = false)
      (hc : RowCounts 0 k counts) (hk : k < n) (h : bad.error = true ∨ n - k < bad.count) :
      DecompressFails w n stream (header :: begun :: (counts ++ [bad]))
        ([.readHeader stream, .beginDecompress] ++ readCalls w n 0 counts ++ [.readScanlines (rowPtrs w k (n - k)) (n - k)]) k 0x24#32
  | stalled (header begun zero : Reply) (counts : List Reply) (k : Nat) (hh : header.error = false) (hb : begun.error = false)
      (hc : RowCounts 0 k counts) (hk : k < n) (h : zero.error = false ∧ zero.count = 0) :
      DecompressFails w n stream (header :: begun :: (counts ++ [zero]))
        ([.readHeader stream, .beginDecompress] ++ readCalls w n 0 counts ++ [.readScanlines (rowPtrs w k (n - k)) (n - k)]) k 0x30#32
  | atFinish (header begun bad : Reply) (counts : List Reply) (hh : header.error = false) (hb : begun.error = false)
      (hc : RowCounts 0 n counts) (h : bad.error = true) :
      DecompressFails w n stream (header :: begun :: (counts ++ [bad]))
        ([.readHeader stream, .beginDecompress] ++ readCalls w n 0 counts ++ [.finishDecompress]) n 0x24#32

/-- The arguments ENCODE gives ECE_ENC when every transaction answers normally (R242): the injected tables, the image's dimensions and
`map_rows` of the block in BLK_IN, an unspecified sample being a free value. -/
def State.encodeKey (s : State) : EncKey := ⟨s.eceCfg, s.width, s.nRows, s.blockRows⟩

/-- The stream DECODE presents for a payload (R262). -/
def State.framedStream (s : State) (p : List Byte) : List Byte :=
  synthHeader s.width s.height s.depth s.precision ++ stuff p ++ synthFooter

/-- The transactions of a recovery (R298, R294) with the tables `t`. -/
def recoveryCalls (precision : Nat) (t : StagedTables) : List Transaction :=
  [.destroyContext, .createContext precision, .setQuantTable 0 t.quant, .setHuffmanTable .dc 0 (dcTable t),
   .setHuffmanTable .ac 0 (acTable t)]

/-- Two instances that hold the same block, configuration and tables, and whose ECEs realise the same functions (R245, R340):
equal tables, beside the one opaque function (log 27). -/
def SameEncodeInputs (s t : State) : Prop :=
  s.csr.cfgW = t.csr.cfgW ∧ s.csr.cfgH = t.csr.cfgH ∧ s.csr.cfgD = t.csr.cfgD ∧ s.csr.cfgP = t.csr.cfgP
  ∧ s.eceCfg = t.eceCfg ∧ s.ece.encTable = t.ece.encTable
  ∧ ∀ n, n < s.nSamp → ∃ v, s.mem.blkIn.get? n = some v ∧ t.mem.blkIn.get? n = some v

/-- Two instances that hold the same payload, configuration and tables, and whose ECEs realise the same functions (R265, R340):
equal tables, beside the one opaque function (log 27). -/
def SameDecodeInputs (s t : State) : Prop :=
  s.csr.cfgW = t.csr.cfgW ∧ s.csr.cfgH = t.csr.cfgH ∧ s.csr.cfgD = t.csr.cfgD ∧ s.csr.cfgP = t.csr.cfgP
  ∧ s.eceCfg = t.eceCfg ∧ s.ece.decTable = t.ece.decTable ∧ s.csr.plen = t.csr.plen
  ∧ ∀ n, n < s.csr.plen.toNat → ∃ v, s.mem.pbuf.get? n = some v ∧ t.mem.pbuf.get? n = some v

/-! ## Shapes of next states in claims -/

/-- The state after a ConfigurationError (R315, R144): the instance no longer exists. -/
def TornDown (s t : State) (code info : Word) : Prop :=
  t.lifecycle = .unconfigured
  ∧ t.csr = { s.csr.errResult code info with cfgW := 0#32, cfgH := 0#32, cfgD := 0#32, cfgP := 0#32 }
  ∧ t.mem = { s.mem with
      hdr := .unspecified 8, ftr := .unspecified 8, qtab := .unspecified 16
      hufCntDC := .unspecified 8, hufValDC := .unspecified 8, hufCntAC := .unspecified 8, hufValAC := .unspecified 8 }
  ∧ t.ece.ctx = none ∧ t.host = s.host

/-- The instance keeps everything but its result registers, ELEN, PLEN and the spaces of ENCODE's outputs and scratch (R243, R316). That
XBUF is kept from NSAMP on, whatever the engine answers, rests on log 6 (DEDUCED from R296 and U6). -/
def KeepsButEncodeOutputs (s t : State) : Prop :=
  t.lifecycle = s.lifecycle
  ∧ t.csr = { s.csr with
      err := t.csr.err, errcode := t.csr.errcode, errinfo := t.csr.errinfo, plen := t.csr.plen, elen := t.csr.elen }
  ∧ t.mem = { s.mem with xbuf := t.mem.xbuf, ebuf := t.mem.ebuf, pbuf := t.mem.pbuf }
  ∧ (∀ i, s.nSamp ≤ i → t.mem.xbuf.get? i = s.mem.xbuf.get? i)
  ∧ t.host = s.host

/-- The instance keeps everything but its result registers, ELEN and the spaces of DECODE's outputs and scratch (R266, R316). That XBUF
is kept from NSAMP on, also after a count above the request, rests on log 6 (DEDUCED from R296 and U6; R267 (f) lets such an ECE have
written elsewhere). -/
def KeepsButDecodeOutputs (s t : State) : Prop :=
  t.lifecycle = s.lifecycle
  ∧ t.csr = { s.csr with err := t.csr.err, errcode := t.csr.errcode, errinfo := t.csr.errinfo, elen := t.csr.elen }
  ∧ t.mem = { s.mem with xbuf := t.mem.xbuf, ebuf := t.mem.ebuf, blkOut := t.mem.blkOut }
  ∧ (∀ i, s.nSamp ≤ i → t.mem.xbuf.get? i = s.mem.xbuf.get? i ∧ t.mem.blkOut.get? i = s.mem.blkOut.get? i)
  ∧ t.host = s.host

/-- ENCODE's outputs and scratch after an error (R316). -/
def EncodeVoided (s t : State) : Prop :=
  t.csr.elen = 0#32 ∧ t.csr.plen = 0#32 ∧ (∀ i, i < s.nSamp → t.mem.xbuf.get? i = none)
  ∧ (∀ i, t.mem.ebuf.get? i = none) ∧ (∀ i, t.mem.pbuf.get? i = none)

/-- DECODE's outputs and scratch after an error (R316). -/
def DecodeVoided (s t : State) : Prop :=
  t.csr.elen = 0#32 ∧ (∀ i, i < s.nSamp → t.mem.xbuf.get? i = none ∧ t.mem.blkOut.get? i = none)
  ∧ (∀ i, t.mem.ebuf.get? i = none)

/-- The state with another value of STATUS.ERR. -/
def State.withErr (b : Bool) (s : State) : State := { s with csr := { s.csr with err := b } }

/-- STATUS.ERR after command `i`, from its value before and the ERRCODE after (R30). -/
def errAfter (i : Instr) (before : Bool) (errcode : Word) : Bool :=
  match i with
  | .nop => before
  | .clrerr => false
  | .init | .configure | .synth | .verify | .map | .unmap | .stuff | .unstuff | .encode | .decode | .destroy =>
    before || errcode != 0#32

end Sys2Proof.Machine
end

