-- ==== Sys2Proof/Certificates/Slice0/Obligations.lean ====
section
/-! DEFINITION. The statements for the provers. Each docstring names the rules of spec/ it formalises. Content of a space is said
through `get?`: `some v` is a specified element, `none` an unspecified one, whose every read is a free value. -/

open Sys2Proof Sys2Proof.Machine

/-! ## Command words -/

/-- R101: the thirteen assigned command words and their commands. -/
def Obligations.OpcodeMapIsThatOfTheSpec : Prop :=
  decode 0x00000000#32 = .ok .nop ∧ decode 0x00000001#32 = .ok .init ∧ decode 0x00000002#32 = .ok .configure
  ∧ decode 0x00000003#32 = .ok .synth ∧ decode 0x00000004#32 = .ok .verify ∧ decode 0x00000005#32 = .ok .map
  ∧ decode 0x00000006#32 = .ok .unmap ∧ decode 0x00000007#32 = .ok .stuff ∧ decode 0x00000008#32 = .ok .unstuff
  ∧ decode 0x00000009#32 = .ok .encode ∧ decode 0x0000000A#32 = .ok .decode ∧ decode 0x0000000E#32 = .ok .clrerr
  ∧ decode 0x0000000F#32 = .ok .destroy

/-- R100, R101, R102: over all 2^32 words, a word decodes to a command exactly when it is that command's word. -/
def Obligations.DecodeExactlyEncodedWords : Prop :=
  ∀ (c : Word) (i : Instr), decode c = .ok i ↔ c = encode i

/-- R102: an illegal word changes nothing but the error registers, which report BAD_CMD and the word; every other word decodes. -/
def Obligations.IllegalWordsReportBadCmd : Prop :=
  ∀ (s : State) (c : Word) (rest : List HostAccess), s.host.pending = .writeCsr 0 c :: rest →
    if c.toNat / 256 ≠ 0 ∨ c.toNat % 256 = 0x0B ∨ c.toNat % 256 = 0x0C ∨ c.toNat % 256 = 0x0D ∨ 0x10 ≤ c.toNat % 256 then
      step s = .next ((s.setPending rest).refusedWith 0x42#32 c)
    else ∃ i, decode c = .ok i ∧ c.toNat = (opcodeOf i).toNat

/-- R24, R147: a host write of a legal word to CMD runs its command, on the state with that access taken off the host's list. -/
def Obligations.StepRunsDecodedCommand : Prop :=
  ∀ (s : State) (c : Word) (rest : List HostAccess) (i : Instr),
    s.host.pending = .writeCsr 0 c :: rest → decode c = .ok i → step s = exec i (s.setPending rest)

/-- The model's choice (log 1), from R27 and R147: nothing happens between host accesses. -/
def Obligations.IdleHostLeavesStateUnchanged : Prop :=
  ∀ s : State, s.host.pending = [] → step s = .next s

/-! ## The frame, the flag, the lifecycle -/

/-- R140: NOP is the word 0, is legal in every state, and keeps everything, ERRCODE, ERRINFO and STATUS.ERR included. -/
def Obligations.NopChangesNothing : Prop :=
  encode .nop = 0#32 ∧ (∀ s : State, exec .nop s = .next s)
  ∧ ∀ (s : State) (c : Word) (rest : List HostAccess), s.host.pending = .writeCsr 0 c :: rest → c.toNat % 256 = 0 → c ≠ 0#32 →
      step s = .next ((s.setPending rest).refusedWith 0x42#32 c)

/-- R104, R318: a command is refused with BAD_STATE, its opcode in ERRINFO and no other change, exactly where the table says so. -/
def Obligations.RefusalsFollowLegalityTable : Prop :=
  ∀ (i : Instr) (s : State),
    if refusedIn i s.lifecycle then exec i s = .next (s.refusedWith 0x41#32 ((opcodeOf i).setWidth 32))
    else i ≠ .nop → ∀ t, exec i s = .next t → t.csr.errcode ≠ 0x41#32

/-- R298, R310, R323: no command is refused by the model, and the only stop is an engine error during recovery, in ENCODE or DECODE. -/
def Obligations.OnlyRecoveryCanStopACommand : Prop :=
  ∀ (i : Instr) (s : State),
    (∀ r, exec i s ≠ .refused r) ∧ (∀ r, exec i s = .fault r → (i = .encode ∨ i = .decode) ∧ s.lifecycle = .ready)

/-- R30, R146, R147: STATUS.ERR is set by a non-zero ERRCODE and cleared by CLRERR alone. -/
def Obligations.ErrFlagIsSticky : Prop :=
  ∀ (i : Instr) (s t : State), exec i s = .next t → t.csr.err = errAfter i s.csr.err t.csr.errcode

/-- R30: no command behaves differently because of STATUS.ERR. -/
def Obligations.ErrFlagGatesNothing : Prop :=
  ∀ (i : Instr) (s : State) (b : Bool),
    match exec i s with
    | .next t => exec i (s.withErr b) = .next (t.withErr (errAfter i b t.csr.errcode))
    | .fault r => exec i (s.withErr b) = .fault r
    | .refused r => exec i (s.withErr b) = .refused r

/-- R29: the transitions of the lifecycle state. -/
def Obligations.LifecycleTransitions : Prop :=
  ∀ (i : Instr) (s t : State), exec i s = .next t →
    t.lifecycle = s.lifecycle
    ∨ (i = .init ∧ s.lifecycle = .unconfigured ∧ t.lifecycle = .constructed ∧ t.csr.errcode = 0#32)
    ∨ (i = .configure ∧ s.lifecycle ≠ .unconfigured ∧ t.lifecycle = .ready ∧ t.csr.errcode = 0#32)
    ∨ (i = .destroy ∧ t.lifecycle = .unconfigured)
    ∨ (t.lifecycle = .unconfigured ∧ t.csr.errcode.toNat / 16 = 1)

/-- R28: CFG is written by a successful INIT from staging, cleared by DESTROY and by any ConfigurationError, written by nothing else. -/
def Obligations.ConfigurationIsLatched : Prop :=
  ∀ (i : Instr) (s t : State), exec i s = .next t →
    if i = .init ∧ t.csr.errcode = 0#32 then
      t.csr.cfgW = s.csr.shapeW ∧ t.csr.cfgH = s.csr.shapeH ∧ t.csr.cfgD = s.csr.shapeD ∧ t.csr.cfgP = s.csr.prec
    else if i = .destroy ∨ (i ≠ .nop ∧ t.csr.errcode.toNat / 16 = 1) then
      t.csr.cfgW = 0#32 ∧ t.csr.cfgH = 0#32 ∧ t.csr.cfgD = 0#32 ∧ t.csr.cfgP = 0#32
    else
      t.csr.cfgW = s.csr.cfgW ∧ t.csr.cfgH = s.csr.cfgH ∧ t.csr.cfgD = s.csr.cfgD ∧ t.csr.cfgP = s.csr.cfgP

/-! ## INIT, DESTROY, CLRERR -/

/-- R141, R143: INIT on a legal, densely packed shape, the engine creating the context: configuration latched, header and footer
synthesized byte by byte (R110, R111), CONSTRUCTED, nothing else written. -/
def Obligations.InitConstructs : Prop :=
  ∀ (s : State) (r : Reply) (rest : List Reply),
    s.lifecycle = .unconfigured →
    LegalShape s.csr.shapeW.toNat s.csr.shapeH.toNat s.csr.shapeD.toNat s.csr.prec.toNat →
    s.csr.rowPitch.toNat = s.csr.shapeW.toNat → s.csr.planePitch.toNat = s.csr.shapeW.toNat * s.csr.shapeH.toNat →
    s.ece.replies = r :: rest → r.error = false →
    ∃ t, exec .init s = .next t
      ∧ t.lifecycle = .constructed
      ∧ t.csr = { s.csr.okResult with
          cfgW := s.csr.shapeW, cfgH := s.csr.shapeH, cfgD := s.csr.shapeD, cfgP := s.csr.prec }
      ∧ (∀ k, k < 25 → t.mem.hdr.get? k = some (BitVec.ofNat 8
          (headerTable s.csr.shapeW.toNat s.csr.shapeH.toNat s.csr.shapeD.toNat s.csr.prec.toNat k)))
      ∧ t.mem.ftr.get? 0 = some 0xFF#8 ∧ t.mem.ftr.get? 1 = some 0xD9#8
      ∧ t.mem = { s.mem with hdr := t.mem.hdr, ftr := t.mem.ftr }
      ∧ t.ece = { s.ece with
          ctx := some ⟨⟨s.csr.prec.toNat, none, none, none⟩, .idle⟩
          port := s.ece.port ++ [.createContext s.csr.prec.toNat], replies := rest }
      ∧ t.host = s.host

/-- R142 rows 1 to 6, R141, R315: the first failing check is the one reported, and nothing but the error registers changes. The
capacity clause has no witness in the tests: MAX_SAMPLES is a constant without a value (log 3). -/
def Obligations.InitReportsFirstFailedCheck : Prop :=
  ∀ (s : State) (W H D P RP PP : Nat),
    s.lifecycle = .unconfigured → s.Inv →
    s.csr.shapeW.toNat = W → s.csr.shapeH.toNat = H → s.csr.shapeD.toNat = D → s.csr.prec.toNat = P →
    s.csr.rowPitch.toNat = RP → s.csr.planePitch.toNat = PP →
    (¬ (P = 8 ∨ P = 12) → exec .init s = .next (s.refusedWith 0x11#32 s.csr.prec))
    ∧ (P = 8 ∨ P = 12 →
        (W = 0 → exec .init s = .next (s.refusedWith 0x12#32 0#32))
        ∧ (0 < W → H = 0 → exec .init s = .next (s.refusedWith 0x12#32 1#32))
        ∧ (0 < W → 0 < H → D = 0 → exec .init s = .next (s.refusedWith 0x12#32 2#32))
        ∧ (0 < W → 0 < H → 0 < D →
            (W % 8 ≠ 0 → exec .init s = .next (s.refusedWith 0x13#32 0#32))
            ∧ (W % 8 = 0 → H % 8 ≠ 0 → exec .init s = .next (s.refusedWith 0x13#32 1#32))
            ∧ (W % 8 = 0 → H % 8 = 0 → D % 8 ≠ 0 → exec .init s = .next (s.refusedWith 0x13#32 2#32))
            ∧ (W % 8 = 0 → H % 8 = 0 → D % 8 = 0 →
                (65535 < W → exec .init s = .next (s.refusedWith 0x14#32 0#32))
                ∧ (W ≤ 65535 → 65535 < H * D → exec .init s = .next (s.refusedWith 0x14#32 1#32))
                ∧ (W ≤ 65535 → H * D ≤ 65535 → Config.maxSamples < W * H * D →
                    exec .init s = .next (s.refusedWith 0x15#32 0#32))
                ∧ (W ≤ 65535 → H * D ≤ 65535 → W * H * D ≤ Config.maxSamples →
                    (RP ≠ W → exec .init s = .next (s.refusedWith 0x16#32 0#32))
                    ∧ (RP = W → PP ≠ W * H → exec .init s = .next (s.refusedWith 0x16#32 1#32))))))

/-- R142 row 7: an engine error of `create_context` is ENGINE_CTX, and the instance stays unconfigured. -/
def Obligations.InitEngineErrorLeavesUnconfigured : Prop :=
  ∀ (s : State) (r : Reply) (rest : List Reply),
    s.lifecycle = .unconfigured → s.Inv →
    LegalShape s.csr.shapeW.toNat s.csr.shapeH.toNat s.csr.shapeD.toNat s.csr.prec.toNat →
    s.csr.rowPitch.toNat = s.csr.shapeW.toNat → s.csr.planePitch.toNat = s.csr.shapeW.toNat * s.csr.shapeH.toNat →
    s.ece.replies = r :: rest → r.error = true →
    ∃ t, exec .init s = .next t ∧ TornDown s t 0x1B#32 0#32
      ∧ t.ece.port = s.ece.port ++ [.createContext s.csr.prec.toNat]

/-- R144, R145: DESTROY ends a constructed instance, ignoring an engine error, and is nothing but a successful command in UNCONFIGURED. -/
def Obligations.DestroyEndsTheInstance : Prop :=
  ∀ s : State,
    (s.lifecycle ≠ .unconfigured →
      ∃ t, exec .destroy s = .next t ∧ t.lifecycle = .unconfigured
        ∧ t.csr = { s.csr.okResult with cfgW := 0#32, cfgH := 0#32, cfgD := 0#32, cfgP := 0#32 }
        ∧ t.mem = { s.mem with
            hdr := .unspecified 8, ftr := .unspecified 8, qtab := .unspecified 16, hufCntDC := .unspecified 8
            hufValDC := .unspecified 8, hufCntAC := .unspecified 8, hufValAC := .unspecified 8 }
        ∧ t.ece.ctx = none ∧ t.ece.port = s.ece.port ++ [.destroyContext] ∧ t.host = s.host)
    ∧ (s.lifecycle = .unconfigured → s.Inv → exec .destroy s = .next (s.setCsr s.csr.okResult))

/-- R146: CLRERR is opcode 0x0E, is legal in every state, clears STATUS.ERR and, as every successful command, ERRCODE and ERRINFO; it
changes nothing else. -/
def Obligations.ClrerrClearsTheFlag : Prop :=
  encode .clrerr = 0x0E#32 ∧ ∀ s : State, exec .clrerr s = .next (s.setCsr { s.csr with err := false, errcode := 0#32, errinfo := 0#32 })

/-! ## CONFIGURE -/

/-- R160, R162, R163: CONFIGURE with well-sized staged tables and three normal answers. The staged symbols beyond the total are not
read into the result: they need not be specified. -/
def Obligations.ConfigureInjectsTables : Prop :=
  ∀ (s : State) (q cd ca : Nat → Half) (sd sa : Nat → Byte) (r1 r2 r3 : Reply) (rest : List Reply) (TD TA : Nat),
    s.lifecycle ≠ .unconfigured →
    s.csr.qtN = 64#32 → s.csr.hsNclsDC = 16#32 → s.csr.hsNclsAC = 16#32 →
    (∀ k, k < 64 → s.mem.qtStage.get? k = some (q k)) →
    (∀ k, k < 16 → s.mem.hsCntDC.get? k = some (cd k) ∧ (cd k).toNat ≤ 255) →
    (∀ k, k < 16 → s.mem.hsCntAC.get? k = some (ca k) ∧ (ca k).toNat ≤ 255) →
    TD = ((List.range 16).map fun k => (cd k).toNat).sum → TA = ((List.range 16).map fun k => (ca k).toNat).sum →
    TD ≤ 256 → TA ≤ 256 →
    (∀ j, j < TD → s.mem.hsSymDC.get? j = some (sd j)) → (∀ j, j < TA → s.mem.hsSymAC.get? j = some (sa j)) →
    s.ece.replies = r1 :: r2 :: r3 :: rest → r1.error = false → r2.error = false → r3.error = false →
    ∃ t, exec .configure s = .next t ∧ t.lifecycle = .ready ∧ t.csr = s.csr.okResult
      ∧ (∀ k, k < 64 → t.mem.qtab.get? k = some (q k))
      ∧ (∀ k, k < 256 → t.mem.hufCntDC.get? k = some (if k < 16 then (cd k).setWidth 8 else 0#8))
      ∧ (∀ k, k < 256 → t.mem.hufCntAC.get? k = some (if k < 16 then (ca k).setWidth 8 else 0#8))
      ∧ (∀ j, j < 256 → t.mem.hufValDC.get? j = some (if j < TD then sd j else 0#8))
      ∧ (∀ j, j < 256 → t.mem.hufValAC.get? j = some (if j < TA then sa j else 0#8))
      ∧ t.mem = { s.mem with
          qtab := t.mem.qtab, hufCntDC := t.mem.hufCntDC, hufValDC := t.mem.hufValDC
          hufCntAC := t.mem.hufCntAC, hufValAC := t.mem.hufValAC }
      ∧ t.ece.port = s.ece.port ++
          [.setQuantTable 0 ((List.range 64).map q),
           .setHuffmanTable .dc 0 ⟨(List.range 16).map fun k => (cd k).setWidth 8,
             (List.range 256).map fun j => if j < TD then sd j else 0#8⟩,
           .setHuffmanTable .ac 0 ⟨(List.range 16).map fun k => (ca k).setWidth 8,
             (List.range 256).map fun j => if j < TA then sa j else 0#8⟩]
      ∧ t.ece.replies = rest ∧ t.host = s.host

/-- R161 rows 1 to 7, R166: the first failing size check is the one reported, and the instance is torn down whichever it is; the only
transaction is `destroy_context` (R294). -/
def Obligations.ConfigureReportsFirstFailedCheck : Prop :=
  ∀ (s : State) (cd ca : Nat → Half) (TD TA : Nat),
    s.lifecycle ≠ .unconfigured →
    (∀ k, k < 16 → s.mem.hsCntDC.get? k = some (cd k)) → (∀ k, k < 16 → s.mem.hsCntAC.get? k = some (ca k)) →
    TD = ((List.range 16).map fun k => (cd k).toNat).sum → TA = ((List.range 16).map fun k => (ca k).toNat).sum →
    ∃ t, exec .configure s = .next t ∧
      (s.csr.qtN ≠ 64#32 → TornDown s t 0x17#32 s.csr.qtN ∧ t.ece.port = s.ece.port ++ [.destroyContext])
      ∧ (s.csr.qtN = 64#32 →
          (s.csr.hsNclsDC ≠ 16#32 → TornDown s t 0x18#32 0#32 ∧ t.ece.port = s.ece.port ++ [.destroyContext])
          ∧ (s.csr.hsNclsDC = 16#32 →
              (256 < TD → TornDown s t 0x19#32 0#32 ∧ t.ece.port = s.ece.port ++ [.destroyContext])
              ∧ (TD ≤ 256 → (∃ k, k < 16 ∧ 255 < (cd k).toNat) →
                  TornDown s t 0x1A#32 0#32 ∧ t.ece.port = s.ece.port ++ [.destroyContext])
              ∧ (TD ≤ 256 → (∀ k, k < 16 → (cd k).toNat ≤ 255) →
                  (s.csr.hsNclsAC ≠ 16#32 → TornDown s t 0x18#32 1#32 ∧ t.ece.port = s.ece.port ++ [.destroyContext])
                  ∧ (s.csr.hsNclsAC = 16#32 → 256 < TA →
                      TornDown s t 0x19#32 1#32 ∧ t.ece.port = s.ece.port ++ [.destroyContext])
                  ∧ (s.csr.hsNclsAC = 16#32 → TA ≤ 256 → (∃ k, k < 16 ∧ 255 < (ca k).toNat) →
                      TornDown s t 0x1A#32 1#32 ∧ t.ece.port = s.ece.port ++ [.destroyContext]))))

/-- R161 row 8, R166, R294: an engine error stops the injection, is reported by its place, and tears the instance down: after the failing
transaction comes `destroy_context` and nothing else. `q`, `dc` and `ac` are the tables as R162 and R163 give them, an unspecified
quantization entry or symbol being a free value (log 2). -/
def Obligations.ConfigureEngineErrorTearsDown : Prop :=
  ∀ (s : State) (cd ca : Nat → Half) (r1 r2 r3 : Reply) (rest : List Reply) (TD TA : Nat),
    s.lifecycle ≠ .unconfigured →
    s.csr.qtN = 64#32 → s.csr.hsNclsDC = 16#32 → s.csr.hsNclsAC = 16#32 →
    (∀ k, k < 16 → s.mem.hsCntDC.get? k = some (cd k) ∧ (cd k).toNat ≤ 255) →
    (∀ k, k < 16 → s.mem.hsCntAC.get? k = some (ca k) ∧ (ca k).toNat ≤ 255) →
    TD = ((List.range 16).map fun k => (cd k).toNat).sum → TA = ((List.range 16).map fun k => (ca k).toNat).sum →
    TD ≤ 256 → TA ≤ 256 →
    s.ece.replies = r1 :: r2 :: r3 :: rest →
    ∃ (t : State) (q : List Half) (dc ac : HuffTable), exec .configure s = .next t
      ∧ (∀ f : Nat → Half, (∀ k, k < 64 → s.mem.qtStage.get? k = some (f k)) → q = (List.range 64).map f)
      ∧ dc.lengths = ((List.range 16).map fun k => (cd k).setWidth 8)
      ∧ ac.lengths = ((List.range 16).map fun k => (ca k).setWidth 8)
      ∧ (∀ f : Nat → Byte, (∀ j, j < TD → s.mem.hsSymDC.get? j = some (f j)) →
          dc.symbols = (List.range 256).map fun j => if j < TD then f j else 0#8)
      ∧ (∀ f : Nat → Byte, (∀ j, j < TA → s.mem.hsSymAC.get? j = some (f j)) →
          ac.symbols = (List.range 256).map fun j => if j < TA then f j else 0#8)
      ∧ (r1.error = true →
          TornDown s t 0x1B#32 1#32 ∧ t.ece.port = s.ece.port ++ [.setQuantTable 0 q, .destroyContext])
      ∧ (r1.error = false → r2.error = true →
          TornDown s t 0x1B#32 2#32
          ∧ t.ece.port = s.ece.port ++ [.setQuantTable 0 q, .setHuffmanTable .dc 0 dc, .destroyContext])
      ∧ (r1.error = false → r2.error = false → r3.error = true →
          TornDown s t 0x1B#32 3#32
          ∧ t.ece.port = s.ece.port ++
              [.setQuantTable 0 q, .setHuffmanTable .dc 0 dc, .setHuffmanTable .ac 0 ac, .destroyContext])

/-! ## SYNTH and VERIFY -/

/-- R110, R111, R180: the header and the footer byte by byte, and (R71, R112) the two dimension fields read back big-endian. -/
def Obligations.HeaderBytesAreThoseOfTheTable : Prop :=
  ∀ w h d p : Nat,
    (synthHeader w h d p).length = 25
    ∧ (∀ k, k < 25 → (synthHeader w h d p)[k]? = some (BitVec.ofNat 8 (headerTable w h d p k)))
    ∧ synthFooter = [0xFF#8, 0xD9#8]
    ∧ (h * d ≤ 65535 → ∃ hi lo, (synthHeader w h d p)[7]? = some hi ∧ (synthHeader w h d p)[8]? = some lo
        ∧ 256 * hi.toNat + lo.toNat = h * d)
    ∧ (w ≤ 65535 → ∃ hi lo, (synthHeader w h d p)[9]? = some hi ∧ (synthHeader w h d p)[10]? = some lo
        ∧ 256 * hi.toNat + lo.toNat = w)

/-- R181: varying the precision changes exactly bytes 3 and 6; the shape enters bytes 7 to 10 only, through `w` and `h × d`. -/
def Obligations.HeaderSensitivity : Prop :=
  (∀ w h d k : Nat, k < 25 → ((synthHeader w h d 8)[k]? ≠ (synthHeader w h d 12)[k]? ↔ k = 3 ∨ k = 6))
  ∧ (∀ w h d w' h' d' p k : Nat, ¬ (7 ≤ k ∧ k ≤ 10) → (synthHeader w h d p)[k]? = (synthHeader w' h' d' p)[k]?)
  ∧ (∀ w h d h' d' p : Nat, h * d = h' * d' → synthHeader w h d p = synthHeader w h' d' p)
  ∧ (∀ w h d w' h' d' p : Nat, w ≤ 65535 → w' ≤ 65535 → h * d ≤ 65535 → h' * d' ≤ 65535 →
      synthHeader w h d p = synthHeader w' h' d' p → w = w' ∧ h * d = h' * d')

/-- R182: SYNTH writes header and footer from the latched configuration and nothing else. -/
def Obligations.SynthWritesHeaderAndFooter : Prop :=
  ∀ s : State, s.lifecycle ≠ .unconfigured →
    ∃ t, exec .synth s = .next t ∧ t.lifecycle = s.lifecycle ∧ t.csr = s.csr.okResult
      ∧ (∀ k, k < 25 → t.mem.hdr.get? k =
          some (BitVec.ofNat 8 (headerTable s.csr.cfgW.toNat s.csr.cfgH.toNat s.csr.cfgD.toNat s.csr.cfgP.toNat k)))
      ∧ t.mem.ftr.get? 0 = some 0xFF#8 ∧ t.mem.ftr.get? 1 = some 0xD9#8
      ∧ t.mem = { s.mem with hdr := t.mem.hdr, ftr := t.mem.ftr }
      ∧ t.ece = s.ece ∧ t.host = s.host

/-- R182, R46: in every state that meets the invariant SYNTH changes no value but the result registers. -/
def Obligations.SynthNeverChangesAValue : Prop :=
  ∀ s : State, s.Inv → s.lifecycle ≠ .unconfigured → exec .synth s = .next (s.setCsr s.csr.okResult)

/-- R184, R114: `verify_framing` accepts exactly the well-framed streams. -/
def Obligations.VerifyFramingAcceptsExactlyWellFramed : Prop :=
  ∀ s hdr ftr : List Byte, hdr.length = 25 → ftr.length = 2 →
    (verifyFraming s hdr ftr = .ok () ↔ ∃ e, s = hdr ++ e ++ ftr)

/-- R184: which mismatch is reported, with which detail, and that there is none. -/
def Obligations.VerifyFramingNamesFirstMismatch : Prop :=
  ∀ (s hdr ftr : List Byte), hdr.length = 25 → ftr.length = 2 →
    (∀ k, verifyFraming s hdr ftr = .error ⟨.headerMismatch, k⟩ ↔
      k < 25 ∧ s[k]? ≠ hdr[k]? ∧ ∀ j, j < k → s[j]? = hdr[j]?)
    ∧ ((∀ j, j < 25 → s[j]? = hdr[j]?) →
        (s.length < 27 → verifyFraming s hdr ftr = .error ⟨.footerMismatch, s.length⟩)
        ∧ (27 ≤ s.length → s[s.length - 2]? ≠ ftr[0]? → verifyFraming s hdr ftr = .error ⟨.footerMismatch, s.length - 2⟩)
        ∧ (27 ≤ s.length → s[s.length - 2]? = ftr[0]? → s[s.length - 1]? ≠ ftr[1]? →
            verifyFraming s hdr ftr = .error ⟨.footerMismatch, s.length - 1⟩)
        ∧ (27 ≤ s.length → s[s.length - 2]? = ftr[0]? → s[s.length - 1]? = ftr[1]? → verifyFraming s hdr ftr = .ok ()))

/-- R185: VERIFY checks `EBUF[0 .. ELEN)` against HDR and FTR and writes nothing but the result registers. -/
def Obligations.VerifyChecksTheStream : Prop :=
  ∀ (s : State) (b : List Byte), s.lifecycle ≠ .unconfigured → s.FramedOk →
    s.csr.elen.toNat = b.length → b.length ≤ Config.ebufCap → (∀ k, k < b.length → s.mem.ebuf.get? k = b[k]?) →
    ∃ t, exec .verify s = .next t ∧ t.lifecycle = s.lifecycle ∧ t.mem = s.mem ∧ t.ece = s.ece ∧ t.host = s.host
      ∧ ((∃ e, b = synthHeader s.width s.height s.depth s.precision ++ e ++ synthFooter) → t.csr = s.csr.okResult)
      ∧ (∀ e, verifyFraming b (synthHeader s.width s.height s.depth s.precision) synthFooter = .error e →
          t.csr = s.csr.errResult (errorCode e.cause) (BitVec.ofNat 32 e.info)
          ∧ (errorCode e.cause = 0x21#32 ∨ errorCode e.cause = 0x22#32))

/-! ## MAP and UNMAP -/

/-- R200, R201: rows and coordinates correspond one to one, and a sample's block index is its cell index. -/
def Obligations.ScanlineCoordinatesCorrespond : Prop :=
  ∀ w h d : Nat,
    (∀ y z, y < h → z < d → rowOf h y z < h * d ∧ coordOf h (rowOf h y z) = (y, z))
    ∧ (∀ i, i < h * d → (coordOf h i).1 < h ∧ (coordOf h i).2 < d ∧ rowOf h (coordOf h i).1 (coordOf h i).2 = i)
    ∧ (∀ x y z, rowPtr w (rowOf h y z) + x = blockAddr w h x y z)

/-- R202, R203: narrowing keeps the low ESW bits (for samples of 2^P or more that is the spec's own choice, D12, log 9), and the two
conversions are inverse below 2^ESW. -/
def Obligations.NarrowAndWidenAreInverse : Prop :=
  ∀ p : Nat, p = 8 ∨ p = 12 →
    (∀ v : Half, (narrow p v).toNat = v.toNat % (if p = 8 then 256 else 65536))
    ∧ (∀ v : Half, v.toNat < 2 ^ p → narrow p v = v)
    ∧ (∀ v : Half, v.toNat < 2 ^ esw p → widen p (narrow p v) = v ∧ narrow p (widen p v) = v)

/-- R204: MAP stores each narrowed sample `(x, y, z)` in cell `x` of row `y + h × z`, and nothing else. A sample whose element is
unspecified becomes a free value below 2^ESW (log 2); a sample of 2^P or more is truncated (log 9). -/
def Obligations.MapStoresNarrowedSamples : Prop :=
  ∀ s : State, s.lifecycle ≠ .unconfigured →
    ∃ t, exec .map s = .next t ∧ t.lifecycle = s.lifecycle ∧ t.csr = s.csr.okResult
      ∧ (∀ x y z, x < s.width → y < s.height → z < s.depth →
          ∃ c, t.mem.xbuf.get? ((y + s.height * z) * s.width + x) = some c ∧ c.toNat < 2 ^ esw s.precision
            ∧ ∀ v, s.mem.blkIn.get? (x + s.width * y + s.width * s.height * z) = some v →
                c.toNat = v.toNat % 2 ^ esw s.precision)
      ∧ (∀ i, s.width * s.height * s.depth ≤ i → t.mem.xbuf.get? i = s.mem.xbuf.get? i)
      ∧ t.mem = { s.mem with xbuf := t.mem.xbuf } ∧ t.ece = s.ece ∧ t.host = s.host

/-- R206: UNMAP stores each widened cell `x` of row `y + h × z` in sample `(x, y, z)`, and nothing else. -/
def Obligations.UnmapStoresWidenedCells : Prop :=
  ∀ s : State, s.lifecycle ≠ .unconfigured →
    ∃ t, exec .unmap s = .next t ∧ t.lifecycle = s.lifecycle ∧ t.csr = s.csr.okResult
      ∧ (∀ x y z, x < s.width → y < s.height → z < s.depth →
          ∃ v, t.mem.blkOut.get? (x + s.width * y + s.width * s.height * z) = some v
            ∧ v.toNat < 2 ^ esw s.precision
            ∧ ∀ c, s.mem.xbuf.get? ((y + s.height * z) * s.width + x) = some c →
                v.toNat = c.toNat % 2 ^ esw s.precision)
      ∧ (∀ i, s.width * s.height * s.depth ≤ i → t.mem.blkOut.get? i = s.mem.blkOut.get? i)
      ∧ t.mem = { s.mem with blkOut := t.mem.blkOut } ∧ t.ece = s.ece ∧ t.host = s.host

/-- R207: MAP followed by UNMAP copies the block, each sample reduced by NARROW_P (log 9). -/
def Obligations.MapThenUnmapCopiesTheBlock : Prop :=
  ∀ s : State, s.lifecycle ≠ .unconfigured →
    ∃ t u, exec .map s = .next t ∧ exec .unmap t = .next u
      ∧ (∀ n v, n < s.width * s.height * s.depth → s.mem.blkIn.get? n = some v →
          u.mem.blkOut.get? n = some (narrow s.precision v))
      ∧ (∀ n, s.width * s.height * s.depth ≤ n → u.mem.blkOut.get? n = s.mem.blkOut.get? n)
      ∧ u.mem.blkIn = s.mem.blkIn

/-! ## STUFF and UNSTUFF -/

/-- R222: the inverse laws, injectivity and image, the behaviour on concatenations, and that `stuff` is no involution; well-stuffed is
R115's equivalent form. -/
def Obligations.StuffingLaws : Prop :=
  (∀ x, unstuff (stuff x) = .ok x)
  ∧ (∀ x x', stuff x = stuff x' → x = x')
  ∧ (∀ y, (∃ x, y = stuff x) ↔ ∃ x, unstuff y = .ok x)
  ∧ (∀ y, (∃ x, unstuff y = .ok x) ↔ WellStuffed y)
  ∧ (∀ y x, unstuff y = .ok x → stuff x = y)
  ∧ (∀ a b, stuff (a ++ b) = stuff a ++ stuff b)
  ∧ (∀ a b x z, unstuff a = .ok x → unstuff b = .ok z → unstuff (a ++ b) = .ok (x ++ z))
  ∧ stuff [] = [] ∧ unstuff [] = .ok []
  ∧ (∀ x, 0xFF#8 ∈ x → stuff (stuff x) ≠ x)

/-- R221: the error of `unstuff` is the index of the first 0xFF, in scan order, that is not followed by 0x00. -/
def Obligations.UnstuffReportsFirstUnescaped : Prop :=
  ∀ (y : List Byte) (k : Nat),
    unstuff y = .error k ↔ y[k]? = some 0xFF#8 ∧ y[k + 1]? ≠ some 0x00#8 ∧ ∃ x, unstuff (y.take k) = .ok x

/-- R223: the length laws. -/
def Obligations.StuffingLengths : Prop :=
  (∀ x, (stuff x).length = x.length + x.count 0xFF#8 ∧ x.length ≤ (stuff x).length ∧ (stuff x).length ≤ 2 * x.length)
  ∧ (∀ y x, unstuff y = .ok x →
      x.length + y.count 0xFF#8 = y.length ∧ y.length ≤ 2 * x.length ∧ x.length ≤ y.length)
  ∧ (∀ n, (stuff (List.replicate n 0xFF#8)).length = 2 * n)

/-- R224, R316, R317: STUFF of a specified payload. That the bytes of EBUF past the result are unspecified rests on log 11. A result that does not fit EBUF is an OVERFLOW and voids EBUF. A length of 2^32 or
more has no stated register value (log 8), hence the two conditions on it. -/
def Obligations.StuffWritesTheStuffedPayload : Prop :=
  ∀ (s : State) (p : List Byte), s.csr.plen.toNat = p.length → p.length ≤ Config.pbufCap →
    (∀ k, k < p.length → s.mem.pbuf.get? k = p[k]?) →
    ∃ t, exec .stuff s = .next t ∧ t.lifecycle = s.lifecycle ∧ t.mem = { s.mem with ebuf := t.mem.ebuf }
      ∧ t.ece = s.ece ∧ t.host = s.host
      ∧ (if (stuff p).length ≤ Config.ebufCap then
          t.csr = { s.csr.okResult with elen := t.csr.elen } ∧ (∀ k, t.mem.ebuf.get? k = (stuff p)[k]?)
          ∧ ((stuff p).length < 2 ^ 32 → t.csr.elen = BitVec.ofNat 32 (stuff p).length)
        else
          t.csr = { s.csr.errResult 0x25#32 t.csr.errinfo with elen := 0#32 } ∧ (∀ k, t.mem.ebuf.get? k = none)
          ∧ ((stuff p).length < 2 ^ 32 → t.csr.errinfo = BitVec.ofNat 32 (stuff p).length))

/-- R225, R316, R317: UNSTUFF of a specified sequence: the payload, or UNESCAPED_FF with the offset, or OVERFLOW. That after a success
every byte of PBUF from the payload's length on is unspecified is not R225's: it rests on log 11 (DEDUCED from U1). -/
def Obligations.UnstuffWritesThePayload : Prop :=
  ∀ (s : State) (y : List Byte), s.csr.elen.toNat = y.length → y.length ≤ Config.ebufCap →
    (∀ k, k < y.length → s.mem.ebuf.get? k = y[k]?) →
    ∃ t, exec .unstuff s = .next t ∧ t.lifecycle = s.lifecycle ∧ t.mem = { s.mem with pbuf := t.mem.pbuf }
      ∧ t.ece = s.ece ∧ t.host = s.host
      ∧ (∀ k, unstuff y = .error k →
          t.csr = { s.csr.errResult 0x23#32 (BitVec.ofNat 32 k) with plen := 0#32 } ∧ ∀ i, t.mem.pbuf.get? i = none)
      ∧ (∀ p, unstuff y = .ok p →
          if p.length ≤ Config.pbufCap then
            t.csr = { s.csr.okResult with plen := BitVec.ofNat 32 p.length } ∧ ∀ i, t.mem.pbuf.get? i = p[i]?
          else
            t.csr = { s.csr.errResult 0x25#32 (BitVec.ofNat 32 p.length) with plen := 0#32 }
            ∧ ∀ i, t.mem.pbuf.get? i = none)

/-- R23, R318: a length operand beyond its buffer is refused with BAD_OPERAND and the CSR's number, and only then. The capacities are
constants without a value (log 3), so this is said as an equivalence, with no hypothesis on them. -/
def Obligations.LengthOperandsAreChecked : Prop :=
  ∀ s : State,
    (∃ t, exec .stuff s = .next t ∧ (t.csr.errcode = 0x43#32 ↔ Config.pbufCap < s.csr.plen.toNat)
      ∧ (t.csr.errcode = 0x43#32 → t = s.refusedWith 0x43#32 13#32))
    ∧ (∃ t, exec .unstuff s = .next t ∧ (t.csr.errcode = 0x43#32 ↔ Config.ebufCap < s.csr.elen.toNat)
      ∧ (t.csr.errcode = 0x43#32 → t = s.refusedWith 0x43#32 14#32))
    ∧ (s.lifecycle ≠ .unconfigured →
        ∃ t, exec .verify s = .next t ∧ (t.csr.errcode = 0x43#32 ↔ Config.ebufCap < s.csr.elen.toNat)
          ∧ (t.csr.errcode = 0x43#32 → t = s.refusedWith 0x43#32 14#32))
    ∧ (s.lifecycle = .ready →
        (∀ t, exec .decode s = .next t → (t.csr.errcode = 0x43#32 ↔ Config.pbufCap < s.csr.plen.toNat))
        ∧ (∀ t, exec .decode s = .next t → t.csr.errcode = 0x43#32 → t = s.refusedWith 0x43#32 13#32))

/-! ## ENCODE -/

/-- R240 to R243, R294: ENCODE when every transaction answers normally and ECE_ENC's stream is the framing around a stuffed payload:
the payload in PBUF, the stream in EBUF, the narrowed samples in XBUF (log 9), one transaction per answer, the context as before. That
the bytes of EBUF and PBUF past them are unspecified rests on log 11, and XBUF from NSAMP on rests on log 6. -/
def Obligations.EncodeProducesThePayload : Prop :=
  ∀ (s : State) (first last : Reply) (counts rest : List Reply) (p : List Byte),
    s.lifecycle = .ready → s.Inv →
    s.ece.replies = first :: (counts ++ last :: rest) →
    first.error = false → RowCounts 0 s.nRows counts → last.error = false → last.output = none →
    s.eceEnc s.encodeKey = s.framedStream p →
    (s.framedStream p).length ≤ Config.ebufCap → (s.framedStream p).length < 2 ^ 32 →
    ∃ t, exec .encode s = .next t ∧ KeepsButEncodeOutputs s t
      ∧ t.csr = { s.csr.okResult with
          elen := BitVec.ofNat 32 (s.framedStream p).length, plen := BitVec.ofNat 32 p.length }
      ∧ (∀ k, t.mem.pbuf.get? k = p[k]?) ∧ (∀ k, t.mem.ebuf.get? k = (s.framedStream p)[k]?)
      ∧ (∀ n, n < s.nSamp → t.mem.xbuf.get? n = some (narrow s.precision (s.mem.blkIn.read (s.draws + n) n)))
      ∧ t.ece = { s.ece with
          replies := rest
          port := s.ece.port ++ [.beginCompress s.width s.nRows 1] ++ writeCalls s.width s.nRows 0 counts ++ [.finishCompress] }

/-- R241 steps 3 to 5, R244, R246 (h), R316, R320: an engine output that ENCODE does not accept, be it ECE_ENC's own value or other bytes
(R300 c), is reported with the first of OVERFLOW, HEADER_MISMATCH, FOOTER_MISMATCH and UNESCAPED_FF that applies; no recovery is
needed, and the outputs are void. An output of 2^32 bytes or more has no stated ERRINFO (log 8). XBUF from NSAMP on: log 6. -/
def Obligations.EncodeRejectsBadStreams : Prop :=
  ∀ (s : State) (first last : Reply) (counts rest : List Reply) (b : List Byte) (code : Word) (info : Nat),
    s.lifecycle = .ready → s.Inv →
    s.ece.replies = first :: (counts ++ last :: rest) →
    first.error = false → RowCounts 0 s.nRows counts → last.error = false →
    (last.output = some b ∨ (last.output = none ∧ s.eceEnc s.encodeKey = b)) → b.length < 2 ^ 32 →
    RejectedWith (synthHeader s.width s.height s.depth s.precision) synthFooter b code info →
    ∃ t, exec .encode s = .next t ∧ KeepsButEncodeOutputs s t ∧ EncodeVoided s t
      ∧ t.csr.errcode = code ∧ t.csr.errinfo = BitVec.ofNat 32 info ∧ t.csr.err = true
      ∧ t.ece.ctx = s.ece.ctx ∧ t.ece.replies = rest
      ∧ t.ece.port =
          s.ece.port ++ [.beginCompress s.width s.nRows 1] ++ writeCalls s.width s.nRows 0 counts ++ [.finishCompress]

/-- R241 label E, R298, R282: an engine error of `begin_compress` (V89), of `write_scanlines` or of `finish_compress`, or a bad row count,
is ENGINE_ERROR with the number of rows accepted, after a recovery that leaves the context idle with the shadows' tables; a failed
recovery is the fault of U5 (log 7). XBUF from NSAMP on: log 6. -/
def Obligations.EncodeEngineErrorRecovers : Prop :=
  ∀ (s : State) (tabs : StagedTables) (answers rest : List Reply) (calls : List Transaction) (k : Nat) (rd rc rq rh ra : Reply),
    s.lifecycle = .ready → s.mem.wf → s.ReadyWith tabs →
    CompressFails s.width s.nRows answers calls k →
    s.ece.replies = answers ++ rd :: rc :: rq :: rh :: ra :: rest →
    (rc.error = false → rq.error = false → rh.error = false → ra.error = false →
      ∃ t, exec .encode s = .next t ∧ KeepsButEncodeOutputs s t ∧ EncodeVoided s t
        ∧ t.csr.errcode = 0x24#32 ∧ t.csr.errinfo = BitVec.ofNat 32 k ∧ t.csr.err = true
        ∧ t.ReadyWith tabs ∧ t.ece.replies = rest
        ∧ t.ece.port = s.ece.port ++ calls ++ recoveryCalls s.precision tabs)
    ∧ (rc.error = true ∨ rq.error = true ∨ rh.error = true ∨ ra.error = true → exec .encode s = .fault .recoveryFailed)

/-- R243, R316, R103: whatever the engine answers, ENCODE keeps everything but its outputs and scratch. XBUF from NSAMP on rests on log 6
(DEDUCED from R296 and U6). -/
def Obligations.EncodeKeepsEverythingElse : Prop :=
  ∀ s t : State, exec .encode s = .next t →
    KeepsButEncodeOutputs s t ∧ (s.lifecycle = .ready → t.csr.errcode ≠ 0#32 → EncodeVoided s t)

/-- R245, R300 (a): two successful ENCODEs with the same block, configuration, tables and engine function give the same payload, on
whichever instances, after whatever history and with whatever batches. -/
def Obligations.EncodeIsDeterministic : Prop :=
  ∀ s s' t t' : State, s.lifecycle = .ready → s'.lifecycle = .ready → s.Inv → s'.Inv → SameEncodeInputs s s' →
    exec .encode s = .next t → exec .encode s' = .next t' → t.csr.errcode = 0#32 → t'.csr.errcode = 0#32 →
    t.mem.pbuf = t'.mem.pbuf ∧ t.mem.ebuf = t'.mem.ebuf

/-! ## DECODE -/

/-- R260 to R262, R266, R294: DECODE when every transaction answers normally: the framed stream in EBUF, ECE_DEC's rows in XBUF, the
block in BLK_OUT, the payload kept, one transaction per answer, the context as before. That the bytes of EBUF past the stream are
unspecified rests on log 11, and XBUF from NSAMP on rests on log 6. -/
def Obligations.DecodeProducesTheBlock : Prop :=
  ∀ (s : State) (rh rb last : Reply) (counts rest : List Reply) (p : List Byte),
    s.lifecycle = .ready → s.Inv →
    s.csr.plen.toNat = p.length → p.length ≤ Config.pbufCap → (∀ k, k < p.length → s.mem.pbuf.get? k = p[k]?) →
    (s.framedStream p).length ≤ Config.ebufCap → (s.framedStream p).length < 2 ^ 32 →
    s.ece.replies = rh :: rb :: (counts ++ last :: rest) →
    rh.error = false → rb.error = false → RowCounts 0 s.nRows counts → last.error = false →
    ∃ t, exec .decode s = .next t ∧ KeepsButDecodeOutputs s t
      ∧ t.csr = { s.csr.okResult with elen := BitVec.ofNat 32 (s.framedStream p).length }
      ∧ (∀ k, t.mem.ebuf.get? k = (s.framedStream p)[k]?)
      ∧ (∀ n, n < s.nSamp → t.mem.xbuf.get? n = some (s.eceDec s.precision ⟨s.eceCfg, s.framedStream p⟩ n))
      ∧ (∀ x y z, x < s.width → y < s.height → z < s.depth →
          t.mem.blkOut.get? (x + s.width * y + s.width * s.height * z) =
            some (s.eceDec s.precision ⟨s.eceCfg, s.framedStream p⟩ ((y + s.height * z) * s.width + x)))
      ∧ t.ece = { s.ece with
          replies := rest
          port := s.ece.port ++ [.readHeader (s.framedStream p), .beginDecompress]
            ++ readCalls s.width s.nRows 0 counts ++ [.finishDecompress] }

/-- R261, R267, R298, R316: a zero-row answer after `k` rows is DecoderStalled with `k`; an engine error of `read_header` (V95),
`begin_decompress`, `read_scanlines` or `finish_decompress` (V97), or a count above the request, is ENGINE_ERROR with the number of rows
delivered; all after recovery, with the outputs void and the payload kept. A failed recovery is the fault of U5 (log 7). That XBUF is
kept from NSAMP on after a count above the request too rests on log 6 (DEDUCED from R296 and U6), not on R267 (f). -/
def Obligations.DecodeStallsAndEngineErrors : Prop :=
  ∀ (s : State) (tabs : StagedTables) (answers rest : List Reply) (calls : List Transaction) (k : Nat) (code : Word)
    (rd rc rq rx ra : Reply) (p : List Byte),
    s.lifecycle = .ready → s.mem.wf → s.ReadyWith tabs →
    s.csr.plen.toNat = p.length → p.length ≤ Config.pbufCap → (∀ j, j < p.length → s.mem.pbuf.get? j = p[j]?) →
    (s.framedStream p).length ≤ Config.ebufCap →
    DecompressFails s.width s.nRows (s.framedStream p) answers calls k code →
    s.ece.replies = answers ++ rd :: rc :: rq :: rx :: ra :: rest →
    (rc.error = false → rq.error = false → rx.error = false → ra.error = false →
      ∃ t, exec .decode s = .next t ∧ KeepsButDecodeOutputs s t ∧ DecodeVoided s t
        ∧ t.csr.errcode = code ∧ t.csr.errinfo = BitVec.ofNat 32 k ∧ t.csr.err = true
        ∧ t.ReadyWith tabs ∧ t.ece.replies = rest
        ∧ t.ece.port = s.ece.port ++ calls ++ recoveryCalls s.precision tabs)
    ∧ (rc.error = true ∨ rq.error = true ∨ rx.error = true ∨ ra.error = true → exec .decode s = .fault .recoveryFailed)

/-- R266, R316, R103: whatever the engine answers, DECODE keeps everything but its outputs and scratch; the payload among the rest. That
XBUF is kept from NSAMP on, after a count above the request too, rests on log 6 (DEDUCED from R296 and U6), not on these rules. -/
def Obligations.DecodeKeepsEverythingElse : Prop :=
  ∀ s t : State, exec .decode s = .next t →
    KeepsButDecodeOutputs s t ∧ t.mem.pbuf = s.mem.pbuf ∧ t.csr.plen = s.csr.plen
    ∧ (t.csr.errcode = 0x24#32 ∨ t.csr.errcode = 0x25#32 ∨ t.csr.errcode = 0x30#32 → DecodeVoided s t)

/-- R317, R320: DECODE reports OVERFLOW exactly when the framed stream does not fit EBUF, before any transaction, with the length that did
not fit in ERRINFO (V98). A length of 2^32 or more has no stated register value (log 8). -/
def Obligations.DecodeOverflowIsExact : Prop :=
  ∀ (s t : State) (p : List Byte), s.lifecycle = .ready → s.Inv → s.csr.plen.toNat = p.length → p.length ≤ Config.pbufCap →
    (∀ k, k < p.length → s.mem.pbuf.get? k = p[k]?) → exec .decode s = .next t →
    (t.csr.errcode = 0x25#32 ↔ Config.ebufCap < (s.framedStream p).length)
    ∧ (t.csr.errcode = 0x25#32 → t.ece = s.ece
        ∧ ((s.framedStream p).length < 2 ^ 32 → t.csr.errinfo = BitVec.ofNat 32 (s.framedStream p).length))

/-- R264: a DECODE that ends without error has written every sample of the configured shape. -/
def Obligations.DecodeNeverLeavesAPartialBlock : Prop :=
  ∀ s t : State, s.lifecycle = .ready → exec .decode s = .next t → t.csr.errcode = 0#32 →
    ∀ x y z, x < s.width → y < s.height → z < s.depth →
      ∃ v, t.mem.blkOut.get? (x + s.width * y + s.width * s.height * z) = some v ∧ v.toNat < 2 ^ esw s.precision

/-- R265, R300 (b): two successful DECODEs with the same payload, configuration, tables and engine function give the same block, with
whatever batches. -/
def Obligations.DecodeIsDeterministic : Prop :=
  ∀ s s' t t' : State, s.lifecycle = .ready → s'.lifecycle = .ready → s.Inv → s'.Inv → SameDecodeInputs s s' →
    exec .decode s = .next t → exec .decode s' = .next t' → t.csr.errcode = 0#32 → t'.csr.errcode = 0#32 →
    (∀ n, n < s.nSamp → t.mem.blkOut.get? n = t'.mem.blkOut.get? n) ∧ t.mem.ebuf = t'.mem.ebuf

/-- R242, R262, R183 (90_conflicts.md C5): what the framing layer guarantees on its own: a DECODE right after a successful ENCODE
presents to the engine, byte for byte, the stream that the engine gave at ENCODE. The condition on EBUF says that the stream is shorter
than 2^32 bytes: a longer one has no stated ELEN (log 8). -/
def Obligations.DecodePresentsTheEncodedStream : Prop :=
  ∀ s t u : State, s.lifecycle = .ready → s.Inv →
    exec .encode s = .next t → t.csr.errcode = 0#32 → (∀ n, 2 ^ 32 - 1 ≤ n → t.mem.ebuf.get? n = none) →
    exec .decode t = .next u → u.csr.errcode = 0#32 →
    u.mem.ebuf = t.mem.ebuf ∧ u.csr.elen = t.csr.elen ∧ u.mem.pbuf = t.mem.pbuf
    ∧ ∃ stream calls, u.mem.ebuf = .exactly stream ∧ u.ece.port = t.ece.port ++ .readHeader stream :: calls

/-! ## Invariants -/

/-- R52, R350: the state after reset meets the invariants, and its registers are those of the reset table. -/
def Obligations.ResetMeetsTheInvariants : Prop :=
  State.reset.Inv ∧ State.reset.ResultOk ∧ State.reset.lifecycle = .unconfigured
  ∧ (∀ n, State.reset.csrValue n = 0#32) ∧ State.reset.ece.ctx = none ∧ State.reset.ece.port = []

/-- R53, R28, R46, R49, R50: every step keeps the invariant: canonical memory, and a lifecycle state in agreement with the latched
configuration, the header and footer, the shadows and the ECE context. -/
def Obligations.StepKeepsTheInvariant : Prop :=
  ∀ s t : State, s.Inv → step s = .next t → t.Inv

/-- R313, R30: every step leaves in ERRCODE a value of the code table, and STATUS.ERR set wherever ERRCODE is not 0. -/
def Obligations.StepKeepsResultRegistersLegal : Prop :=
  ∀ s t : State, s.ResultOk → step s = .next t → t.ResultOk

/-- R53: what the invariant says in the rule's own terms. -/
def Obligations.InvariantGivesTheLaunchPremises : Prop :=
  ∀ s : State, s.Inv →
    (s.lifecycle = .unconfigured → s.csr.cfgW = 0#32 ∧ s.csr.cfgH = 0#32 ∧ s.csr.cfgD = 0#32 ∧ s.csr.cfgP = 0#32)
    ∧ (s.lifecycle ≠ .unconfigured →
        (s.precision = 8 ∨ s.precision = 12)
        ∧ (0 < s.width ∧ s.width % 8 = 0) ∧ (0 < s.height ∧ s.height % 8 = 0) ∧ (0 < s.depth ∧ s.depth % 8 = 0)
        ∧ s.width ≤ 65535 ∧ s.height * s.depth ≤ 65535 ∧ s.width * s.height * s.depth ≤ Config.maxSamples
        ∧ (∀ draw, s.mem.hdr.readRange draw 0 25 ++ s.mem.ftr.readRange (draw + 25) 0 2
            = synthHeader s.width s.height s.depth s.precision ++ synthFooter))
    ∧ (s.lifecycle = .ready →
        ∃ cd ca vd va : Nat → Byte,
          (∀ k, k < 256 → s.mem.hufCntDC.get? k = some (cd k) ∧ s.mem.hufCntAC.get? k = some (ca k)
            ∧ s.mem.hufValDC.get? k = some (vd k) ∧ s.mem.hufValAC.get? k = some (va k))
          ∧ ((List.range 16).map fun k => (cd k).toNat).sum ≤ 256 ∧ ((List.range 16).map fun k => (ca k).toNat).sum ≤ 256
          ∧ (∀ k, 16 ≤ k → k < 256 → cd k = 0#8 ∧ ca k = 0#8)
          ∧ (∀ j, ((List.range 16).map fun k => (cd k).toNat).sum ≤ j → j < 256 → vd j = 0#8)
          ∧ (∀ j, ((List.range 16).map fun k => (ca k).toNat).sum ≤ j → j < 256 → va j = 0#8))

/-! ## The host's accesses -/

/-- R21, R25, R31: which register each CSR number is, STATUS as its fields; a host write of a CSR other than CMD changes the RW register it
names and no other; a read returns the register, 0 for CMD, a reserved number or a number above 31, and changes nothing. That a write
of PLEN or ELEN leaves every byte of PBUF and EBUF as it was rests on log 26. -/
def Obligations.HostReachesRegisters : Prop :=
  ∀ (s : State) (n : Nat) (rest : List HostAccess),
    (∀ v, s.host.pending = .writeCsr n v :: rest → n ≠ 0 →
      ∃ t, step s = .next t ∧ (∀ m, t.csrValue m = if m = n ∧ 4 ≤ n ∧ n ≤ 14 then v else s.csrValue m)
        ∧ t.lifecycle = s.lifecycle ∧ t.csr.err = s.csr.err ∧ t.mem = s.mem ∧ t.ece = s.ece ∧ t.draws = s.draws
        ∧ t.host = { s.host with pending := rest })
    ∧ (s.host.pending = .readCsr n :: rest → step s = .next { s with host := ⟨rest, s.csrValue n⟩ })
    ∧ (n = 0 ∨ 19 ≤ n → s.csrValue n = 0#32)
    ∧ (s.csrValue 1).toNat =
        (match s.lifecycle with | .unconfigured => 0 | .constructed => 1 | .ready => 2) + (if s.csr.err then 4 else 0)
    ∧ s.csrValue 2 = s.csr.errcode ∧ s.csrValue 3 = s.csr.errinfo
    ∧ s.csrValue 4 = s.csr.shapeW ∧ s.csrValue 5 = s.csr.shapeH ∧ s.csrValue 6 = s.csr.shapeD ∧ s.csrValue 7 = s.csr.prec
    ∧ s.csrValue 8 = s.csr.rowPitch ∧ s.csrValue 9 = s.csr.planePitch
    ∧ s.csrValue 10 = s.csr.qtN ∧ s.csrValue 11 = s.csr.hsNclsDC ∧ s.csrValue 12 = s.csr.hsNclsAC
    ∧ s.csrValue 13 = s.csr.plen ∧ s.csrValue 14 = s.csr.elen
    ∧ s.csrValue 15 = s.csr.cfgW ∧ s.csrValue 16 = s.csr.cfgH ∧ s.csrValue 17 = s.csr.cfgD ∧ s.csrValue 18 = s.csr.cfgP

/-- R31, R40: a host write of one element changes that element of that space and nothing else, where the host may write and the value
has the element's width; elsewhere it is ignored. -/
def Obligations.HostWritesOneElement : Prop :=
  ∀ (s : State) (id i : Nat) (v : Half) (rest : List HostAccess), s.host.pending = .writeHalf id i v :: rest →
    ((id = 1 ∧ i < 64 ∨ id = 2 ∧ i < 16 ∨ id = 4 ∧ i < 16 ∨ id = 6 ∧ i < Config.maxSamples ∨ id = 8 ∧ i < Config.maxSamples) →
      ∃ t, step s = .next t ∧ t.lifecycle = s.lifecycle ∧ t.csr = s.csr ∧ t.ece = s.ece ∧ t.draws = s.draws
        ∧ t.host = { s.host with pending := rest }
        ∧ (∀ draw id' i', t.mem.hostElem draw id' i' =
            if id' = id ∧ i' = i then v.setWidth 32 else s.mem.hostElem draw id' i'))
    ∧ ((id = 0 ∨ 18 ≤ id ∨ id = 7 ∨ (11 ≤ id ∧ id ≤ 17) ∨ (id = 1 ∧ 64 ≤ i) ∨ (id = 2 ∧ 16 ≤ i) ∨ (id = 4 ∧ 16 ≤ i)
        ∨ (id = 6 ∧ Config.maxSamples ≤ i) ∨ (id = 8 ∧ Config.maxSamples ≤ i)) →
      step s = .next (s.setPending rest))

/-- R31, R40, R52: reading an element of any of the seventeen spaces returns its content, 0 where no element exists (no such space, or at
and past the space's length), and changes no state of the instance; an unspecified element reads as the next free value of the
element's width (log 2). What is returned is widened by zeros (log 13). Bytes of EBUF and PBUF at and above ELEN and PLEN: logs 11, 26. -/
def Obligations.HostReadsElements : Prop :=
  ∀ (s : State) (id i : Nat) (rest : List HostAccess), s.host.pending = .readElem id i :: rest →
    ∃ t, step s = .next t ∧ t.lifecycle = s.lifecycle ∧ t.csr = s.csr ∧ t.mem = s.mem ∧ t.ece = s.ece
      ∧ t.host.pending = rest
      ∧ (spaceSize id = none → t.host.readData = 0#32)
      ∧ (∀ len width, spaceSize id = some (len, width) →
          (len ≤ i → t.host.readData = 0#32)
          ∧ (∀ v, i < len → s.mem.content id i = some v → t.host.readData = v)
          ∧ (i < len → s.mem.content id i = none →
              t.host.readData = (Config.freeBits width s.draws).setWidth 32 ∧ t.draws = s.draws + 1))

/-- R350, R351, R52: hardware reset puts the instance into its reset state and issues no transaction. -/
def Obligations.HardwareResetForgetsTheInstance : Prop :=
  ∀ (s : State) (rest : List HostAccess), s.host.pending = .hardwareReset :: rest →
    ∃ t, step s = .next t ∧ t.lifecycle = .unconfigured ∧ (∀ n, t.csrValue n = 0#32) ∧ t.mem = Memory.reset
      ∧ t.ece.ctx = none ∧ t.ece.port = s.ece.port ∧ t.host = { s.host with pending := rest }

/-- R340, R88: a step of one instance leaves every other instance of the platform as it was. The platform as a list of states, of which a
step moves one, is the model's choice (log 15). -/
def Obligations.InstancesShareNothing : Prop :=
  ∀ (p q : Platform) (k j : Nat), Platform.step k p = .next q → j ≠ k → q.instances[j]? = p.instances[j]?

/-- R31, R40: a host write of one byte changes that element of that u8 space and nothing else, where the host may write; it is ignored
where no element exists or the host may not write, and refused where the element is a u16 (log 12). Bytes of EBUF and PBUF at and above
ELEN and PLEN are written like the others (log 11). -/
def Obligations.HostWritesOneByte : Prop :=
  ∀ (s : State) (id i : Nat) (v : Byte) (rest : List HostAccess), s.host.pending = .writeByte id i v :: rest →
    ((id = 3 ∧ i < 256 ∨ id = 5 ∧ i < 256 ∨ id = 9 ∧ i < Config.ebufCap ∨ id = 10 ∧ i < Config.pbufCap) →
      ∃ t, step s = .next t ∧ t.lifecycle = s.lifecycle ∧ t.csr = s.csr ∧ t.ece = s.ece ∧ t.draws = s.draws
        ∧ t.host = { s.host with pending := rest }
        ∧ (∀ id' i', t.mem.content id' i' = if id' = id ∧ i' = i then some (v.setWidth 32) else s.mem.content id' i'))
    ∧ ((id = 0 ∨ 18 ≤ id ∨ id = 7 ∨ (11 ≤ id ∧ id ≤ 17) ∨ (id = 3 ∧ 256 ≤ i) ∨ (id = 5 ∧ 256 ≤ i)
        ∨ (id = 9 ∧ Config.ebufCap ≤ i) ∨ (id = 10 ∧ Config.pbufCap ≤ i)
        ∨ ((id = 1 ∧ 64 ≤ i) ∨ (id = 2 ∧ 16 ≤ i) ∨ (id = 4 ∧ 16 ≤ i) ∨ (id = 6 ∧ Config.maxSamples ≤ i)
          ∨ (id = 8 ∧ Config.maxSamples ≤ i))) →
      step s = .next (s.setPending rest))
    ∧ ((id = 1 ∧ i < 64 ∨ id = 2 ∧ i < 16 ∨ id = 4 ∧ i < 16 ∨ id = 6 ∧ i < Config.maxSamples ∨ id = 8 ∧ i < Config.maxSamples) →
      step s = .refused (.mixedWidthAccess id))
end

