-- ==== Sys2Proof/Laws/Space.lean ====
section
/-! SUPPORT. What reading a space gives after each operation on spaces, and that every operation keeps the canonical form. -/

namespace Sys2Proof.Machine

variable {w : Nat}

theorem lookup_append (l₁ l₂ : List (Nat × BitVec w)) (i : Nat) :
    (l₁ ++ l₂).lookup i = (l₁.lookup i).or (l₂.lookup i) := by
  induction l₁ with
  | nil => simp
  | cons c l ih =>
    obtain ⟨k, v⟩ := c
    by_cases h : i = k <;> simp [List.lookup, h, ih]
    split <;> simp_all

theorem lookup_filter (p : Nat → Bool) (l : List (Nat × BitVec w)) (i : Nat) :
    (l.filter (fun c => p c.1)).lookup i = if p i then l.lookup i else none := by
  induction l with
  | nil => simp
  | cons c l ih =>
    obtain ⟨k, v⟩ := c
    by_cases h : i = k
    · subst h
      by_cases hp : p i <;> simp [hp, ih]
    · have hb : (i == k) = false := by simpa using h
      by_cases hp : p k <;> simp [hp, List.lookup, hb, ih]

theorem lookup_cellsFrom (a : Nat) (vs : List (BitVec w)) (i : Nat) :
    (cellsFrom a vs).lookup i = if i < a then none else vs[i - a]? := by
  induction vs generalizing a with
  | nil => simp [cellsFrom]
  | cons v vs ih =>
    by_cases h : i = a
    · subst h
      simp [cellsFrom]
    · have hb : (i == a) = false := by simpa using h
      simp only [cellsFrom, List.lookup, hb, ih]
      by_cases hlt : i < a
      · simp [hlt, Nat.lt_succ_of_lt hlt]
      · have h1 : ¬ i < a + 1 := by omega
        have h2 : i - a = (i - (a + 1)) + 1 := by omega
        simp [hlt, h1, h2]

/-! ## Reading after an operation -/

@[simp] theorem Space.get?_unspecified (i : Nat) : (Space.unspecified w).get? i = none := rfl

@[simp] theorem Space.get?_exactly (vs : List (BitVec w)) (i : Nat) : (Space.exactly vs).get? i = vs[i]? := by
  simp [Space.get?, Space.exactly, lookup_cellsFrom]

theorem Space.get?_voidBelow (sp : Space w) (n i : Nat) :
    (sp.voidBelow n).get? i = if n ≤ i then sp.get? i else none := by
  have := lookup_filter (fun k => decide (n ≤ k)) sp.cells i
  simpa [Space.get?, Space.voidBelow] using this

theorem Space.get?_write (sp : Space w) (a : Nat) (vs : List (BitVec w)) (i : Nat) :
    (sp.write a vs).get? i = if a ≤ i ∧ i < a + vs.length then vs[i - a]? else sp.get? i := by
  have hl := lookup_filter (fun k => decide (k < a)) sp.cells i
  have hr := lookup_filter (fun k => decide (a + vs.length ≤ k)) sp.cells i
  simp only [Space.get?, Space.write, lookup_append, lookup_cellsFrom, hl, hr, decide_eq_true_eq]
  rcases Nat.lt_or_ge i a with h | h
  · have h1 : ¬ a + vs.length ≤ i := by omega
    have h2 : ¬ (a ≤ i ∧ i < a + vs.length) := by omega
    simp [h, h1, h2]
  · have h0 : ¬ i < a := by omega
    rcases Nat.lt_or_ge i (a + vs.length) with h1 | h1
    · have h2 : ¬ a + vs.length ≤ i := by omega
      simp [h0, h, h1, h2]
    · have h2 : ¬ (a ≤ i ∧ i < a + vs.length) := by omega
      have h3 : vs[i - a]? = none := by
        rw [List.getElem?_eq_none_iff]; omega
      simp [h0, h1, h3]

/-- A write covers its own range: reading inside gives the value written. -/
theorem Space.get?_write_inside (sp : Space w) (a : Nat) (vs : List (BitVec w)) (k : Nat) (h : k < vs.length) :
    (sp.write a vs).get? (a + k) = vs[k]? := by
  simp [Space.get?_write, h]

/-- A write leaves every other element alone (R40). -/
theorem Space.get?_write_outside (sp : Space w) (a : Nat) (vs : List (BitVec w)) (i : Nat)
    (h : i < a ∨ a + vs.length ≤ i) : (sp.write a vs).get? i = sp.get? i := by
  have : ¬ (a ≤ i ∧ i < a + vs.length) := by omega
  simp [Space.get?_write, this]

theorem Space.read_of_get? {sp : Space w} {i : Nat} {v : BitVec w} (h : sp.get? i = some v) (draw : Nat) :
    sp.read draw i = v := by
  simp [Space.read, h]

@[simp] theorem Space.length_readRange (sp : Space w) (draw a n : Nat) : (sp.readRange draw a n).length = n := by
  simp [Space.readRange]

/-- A range whose elements are all specified reads as its contents, whatever the draws. -/
theorem Space.readRange_of_get? {sp : Space w} {a n : Nat} {v : Nat → BitVec w}
    (h : ∀ k, k < n → sp.get? (a + k) = some (v k)) (draw : Nat) :
    sp.readRange draw a n = (List.range n).map v := by
  apply List.map_congr_left
  intro k hk
  exact Space.read_of_get? (h k (List.mem_range.mp hk)) _

theorem range_map_getD (vs : List (BitVec w)) (x : BitVec w) :
    (List.range vs.length).map (fun k => vs.getD k x) = vs := by
  apply List.ext_getElem (by simp)
  intro i h1 h2
  simp at h1
  simp [h1]

/-- A range that holds the list `vs` reads as `vs`, whatever the draws. -/
theorem Space.readRange_of_list {sp : Space w} {a : Nat} {vs : List (BitVec w)}
    (h : ∀ k, k < vs.length → sp.get? (a + k) = vs[k]?) (draw : Nat) : sp.readRange draw a vs.length = vs := by
  rw [Space.readRange_of_get? (v := fun k => vs.getD k 0), range_map_getD]
  intro k hk
  rw [h k hk]
  simp [hk]

theorem Space.readRange_exactly (vs : List (BitVec w)) (draw : Nat) :
    (Space.exactly vs).readRange draw 0 vs.length = vs :=
  Space.readRange_of_list (by simp) draw

/-! ## The canonical form -/

theorem mem_cellsFrom {a : Nat} {vs : List (BitVec w)} {c : Nat × BitVec w} (h : c ∈ cellsFrom a vs) :
    a ≤ c.1 ∧ c.1 < a + vs.length := by
  induction vs generalizing a with
  | nil => simp [cellsFrom] at h
  | cons v vs ih =>
    simp only [cellsFrom, List.mem_cons] at h
    rcases h with rfl | h
    · simp
    · have := ih h
      simp
      omega

theorem pairwise_cellsFrom (a : Nat) (vs : List (BitVec w)) :
    (cellsFrom a vs).Pairwise (fun x y => x.1 < y.1) := by
  induction vs generalizing a with
  | nil => simp [cellsFrom]
  | cons v vs ih =>
    rw [cellsFrom, List.pairwise_cons]
    exact ⟨fun c hc => by have := mem_cellsFrom hc; simp; omega, ih (a + 1)⟩

theorem Space.wf_unspecified (len : Nat) : (Space.unspecified w).wf len :=
  ⟨List.Pairwise.nil, fun c hc => by simp [Space.unspecified] at hc⟩

theorem Space.wf_exactly {len : Nat} {vs : List (BitVec w)} (h : vs.length ≤ len) : (Space.exactly vs).wf len :=
  ⟨pairwise_cellsFrom 0 vs, fun c hc => by have := mem_cellsFrom hc; omega⟩

theorem Space.wf_voidBelow {len : Nat} {sp : Space w} (h : sp.wf len) (n : Nat) : (sp.voidBelow n).wf len :=
  ⟨h.1.filter _, fun c hc => h.2 c (List.mem_filter.mp hc).1⟩

theorem Space.wf_write {len : Nat} {sp : Space w} (h : sp.wf len) {a : Nat} {vs : List (BitVec w)}
    (hb : a + vs.length ≤ len) : (sp.write a vs).wf len := by
  constructor
  · simp only [Space.write, List.append_assoc, List.pairwise_append, List.mem_append, List.mem_filter,
      decide_eq_true_eq]
    refine ⟨h.1.filter _, ⟨pairwise_cellsFrom a vs, h.1.filter _, ?_⟩, ?_⟩
    · intro x hx y hy
      have := mem_cellsFrom hx
      omega
    · intro x hx y hy
      rcases hy with hy | hy
      · have := mem_cellsFrom hy
        omega
      · omega
  · intro c hc
    simp only [Space.write, List.mem_append, List.mem_filter] at hc
    rcases hc with (hc | hc) | hc
    · exact h.2 c hc.1
    · have := mem_cellsFrom hc
      omega
    · exact h.2 c hc.1

end Sys2Proof.Machine
end

