-- ==== Sys2Proof/Laws/State.lean ====
section
/-! SUPPORT. One lemma per field of the state per update, each true by `rfl`, so that no later proof unfolds an update; and the derived
values of the configuration, which depend on the CSRs alone. -/

namespace Sys2Proof.Machine

variable (s : State)

@[simp] theorem State.setMem_lifecycle (m : Memory) :
    (s.setMem m).lifecycle = s.lifecycle := rfl
@[simp] theorem State.setMem_csr (m : Memory) :
    (s.setMem m).csr = s.csr := rfl
@[simp] theorem State.setMem_mem (m : Memory) :
    (s.setMem m).mem = m := rfl
@[simp] theorem State.setMem_ece (m : Memory) :
    (s.setMem m).ece = s.ece := rfl
@[simp] theorem State.setMem_host (m : Memory) :
    (s.setMem m).host = s.host := rfl
@[simp] theorem State.setMem_draws (m : Memory) :
    (s.setMem m).draws = s.draws := rfl

@[simp] theorem State.setCsr_lifecycle (c : Csrs) :
    (s.setCsr c).lifecycle = s.lifecycle := rfl
@[simp] theorem State.setCsr_csr (c : Csrs) :
    (s.setCsr c).csr = c := rfl
@[simp] theorem State.setCsr_mem (c : Csrs) :
    (s.setCsr c).mem = s.mem := rfl
@[simp] theorem State.setCsr_ece (c : Csrs) :
    (s.setCsr c).ece = s.ece := rfl
@[simp] theorem State.setCsr_host (c : Csrs) :
    (s.setCsr c).host = s.host := rfl
@[simp] theorem State.setCsr_draws (c : Csrs) :
    (s.setCsr c).draws = s.draws := rfl

@[simp] theorem State.setLifecycle_lifecycle (l : Lifecycle) :
    (s.setLifecycle l).lifecycle = l := rfl
@[simp] theorem State.setLifecycle_csr (l : Lifecycle) :
    (s.setLifecycle l).csr = s.csr := rfl
@[simp] theorem State.setLifecycle_mem (l : Lifecycle) :
    (s.setLifecycle l).mem = s.mem := rfl
@[simp] theorem State.setLifecycle_ece (l : Lifecycle) :
    (s.setLifecycle l).ece = s.ece := rfl
@[simp] theorem State.setLifecycle_host (l : Lifecycle) :
    (s.setLifecycle l).host = s.host := rfl
@[simp] theorem State.setLifecycle_draws (l : Lifecycle) :
    (s.setLifecycle l).draws = s.draws := rfl

@[simp] theorem State.setCtx_lifecycle (c : Option EceContext) :
    (s.setCtx c).lifecycle = s.lifecycle := rfl
@[simp] theorem State.setCtx_csr (c : Option EceContext) :
    (s.setCtx c).csr = s.csr := rfl
@[simp] theorem State.setCtx_mem (c : Option EceContext) :
    (s.setCtx c).mem = s.mem := rfl
@[simp] theorem State.setCtx_ece (c : Option EceContext) :
    (s.setCtx c).ece = { s.ece with ctx := c } := rfl
@[simp] theorem State.setCtx_host (c : Option EceContext) :
    (s.setCtx c).host = s.host := rfl
@[simp] theorem State.setCtx_draws (c : Option EceContext) :
    (s.setCtx c).draws = s.draws := rfl

@[simp] theorem State.advance_lifecycle (n : Nat) :
    (s.advance n).lifecycle = s.lifecycle := rfl
@[simp] theorem State.advance_csr (n : Nat) :
    (s.advance n).csr = s.csr := rfl
@[simp] theorem State.advance_mem (n : Nat) :
    (s.advance n).mem = s.mem := rfl
@[simp] theorem State.advance_ece (n : Nat) :
    (s.advance n).ece = s.ece := rfl
@[simp] theorem State.advance_host (n : Nat) :
    (s.advance n).host = s.host := rfl
@[simp] theorem State.advance_draws (n : Nat) :
    (s.advance n).draws = s.draws + n := rfl

@[simp] theorem State.setPlen_lifecycle (n : Nat) :
    (s.setPlen n).lifecycle = s.lifecycle := rfl
@[simp] theorem State.setPlen_csr (n : Nat) :
    (s.setPlen n).csr = { s.csr with plen := s.fit n } := rfl
@[simp] theorem State.setPlen_mem (n : Nat) :
    (s.setPlen n).mem = s.mem := rfl
@[simp] theorem State.setPlen_ece (n : Nat) :
    (s.setPlen n).ece = s.ece := rfl
@[simp] theorem State.setPlen_host (n : Nat) :
    (s.setPlen n).host = s.host := rfl
@[simp] theorem State.setPlen_draws (n : Nat) :
    (s.setPlen n).draws = s.draws + fitDraws n := rfl

@[simp] theorem State.setElen_lifecycle (n : Nat) :
    (s.setElen n).lifecycle = s.lifecycle := rfl
@[simp] theorem State.setElen_csr (n : Nat) :
    (s.setElen n).csr = { s.csr with elen := s.fit n } := rfl
@[simp] theorem State.setElen_mem (n : Nat) :
    (s.setElen n).mem = s.mem := rfl
@[simp] theorem State.setElen_ece (n : Nat) :
    (s.setElen n).ece = s.ece := rfl
@[simp] theorem State.setElen_host (n : Nat) :
    (s.setElen n).host = s.host := rfl
@[simp] theorem State.setElen_draws (n : Nat) :
    (s.setElen n).draws = s.draws + fitDraws n := rfl

@[simp] theorem State.finish_lifecycle (code : Word) (info : Nat) :
    (s.finish code info).lifecycle = s.lifecycle := rfl
@[simp] theorem State.finish_csr (code : Word) (info : Nat) :
    (s.finish code info).csr = { s.csr with errcode := code, errinfo := s.fit info, err := s.csr.err || code != 0#32 } := rfl
@[simp] theorem State.finish_mem (code : Word) (info : Nat) :
    (s.finish code info).mem = s.mem := rfl
@[simp] theorem State.finish_ece (code : Word) (info : Nat) :
    (s.finish code info).ece = s.ece := rfl
@[simp] theorem State.finish_host (code : Word) (info : Nat) :
    (s.finish code info).host = s.host := rfl
@[simp] theorem State.finish_draws (code : Word) (info : Nat) :
    (s.finish code info).draws = s.draws + fitDraws info := rfl

@[simp] theorem State.setCfg_lifecycle (c : EceCfg) :
    (s.setCfg c).lifecycle = s.lifecycle := rfl
@[simp] theorem State.setCfg_csr (c : EceCfg) :
    (s.setCfg c).csr = s.csr := rfl
@[simp] theorem State.setCfg_mem (c : EceCfg) :
    (s.setCfg c).mem = s.mem := rfl
@[simp] theorem State.setCfg_ece (c : EceCfg) :
    (s.setCfg c).ece = { s.ece with ctx := some ⟨c, s.ecePhase⟩ } := rfl
@[simp] theorem State.setCfg_host (c : EceCfg) :
    (s.setCfg c).host = s.host := rfl
@[simp] theorem State.setCfg_draws (c : EceCfg) :
    (s.setCfg c).draws = s.draws := rfl

@[simp] theorem State.setPhase_lifecycle (p : EcePhase) :
    (s.setPhase p).lifecycle = s.lifecycle := rfl
@[simp] theorem State.setPhase_csr (p : EcePhase) :
    (s.setPhase p).csr = s.csr := rfl
@[simp] theorem State.setPhase_mem (p : EcePhase) :
    (s.setPhase p).mem = s.mem := rfl
@[simp] theorem State.setPhase_ece (p : EcePhase) :
    (s.setPhase p).ece = { s.ece with ctx := some ⟨s.eceCfg, p⟩ } := rfl
@[simp] theorem State.setPhase_host (p : EcePhase) :
    (s.setPhase p).host = s.host := rfl
@[simp] theorem State.setPhase_draws (p : EcePhase) :
    (s.setPhase p).draws = s.draws := rfl

@[simp] theorem State.afterFraming_lifecycle :
    (s.afterFraming).lifecycle = s.lifecycle := rfl
@[simp] theorem State.afterFraming_csr :
    (s.afterFraming).csr = s.csr := rfl
@[simp] theorem State.afterFraming_mem :
    (s.afterFraming).mem = s.mem := rfl
@[simp] theorem State.afterFraming_ece :
    (s.afterFraming).ece = s.ece := rfl
@[simp] theorem State.afterFraming_host :
    (s.afterFraming).host = s.host := rfl
@[simp] theorem State.afterFraming_draws :
    (s.afterFraming).draws = s.draws + 27 := rfl

@[simp] theorem State.acknowledge_lifecycle :
    (s.acknowledge).lifecycle = s.lifecycle := rfl
@[simp] theorem State.acknowledge_csr :
    (s.acknowledge).csr = { s.csr with err := false } := rfl
@[simp] theorem State.acknowledge_mem :
    (s.acknowledge).mem = s.mem := rfl
@[simp] theorem State.acknowledge_ece :
    (s.acknowledge).ece = s.ece := rfl
@[simp] theorem State.acknowledge_host :
    (s.acknowledge).host = s.host := rfl
@[simp] theorem State.acknowledge_draws :
    (s.acknowledge).draws = s.draws := rfl

@[simp] theorem State.voidEncode_lifecycle :
    (s.voidEncode).lifecycle = s.lifecycle := rfl
@[simp] theorem State.voidEncode_csr :
    (s.voidEncode).csr = { s.csr with elen := 0#32, plen := 0#32 } := rfl
@[simp] theorem State.voidEncode_mem :
    (s.voidEncode).mem = { s.mem with xbuf := s.mem.xbuf.voidBelow s.nSamp, ebuf := .unspecified 8, pbuf := .unspecified 8 } := rfl
@[simp] theorem State.voidEncode_ece :
    (s.voidEncode).ece = s.ece := rfl
@[simp] theorem State.voidEncode_host :
    (s.voidEncode).host = s.host := rfl
@[simp] theorem State.voidEncode_draws :
    (s.voidEncode).draws = s.draws := rfl

@[simp] theorem State.voidDecode_lifecycle :
    (s.voidDecode).lifecycle = s.lifecycle := rfl
@[simp] theorem State.voidDecode_csr :
    (s.voidDecode).csr = { s.csr with elen := 0#32 } := rfl
@[simp] theorem State.voidDecode_mem :
    (s.voidDecode).mem = { s.mem with ebuf := .unspecified 8, xbuf := s.mem.xbuf.voidBelow s.nSamp, blkOut := s.mem.blkOut.voidBelow s.nSamp } := rfl
@[simp] theorem State.voidDecode_ece :
    (s.voidDecode).ece = s.ece := rfl
@[simp] theorem State.voidDecode_host :
    (s.voidDecode).host = s.host := rfl
@[simp] theorem State.voidDecode_draws :
    (s.voidDecode).draws = s.draws := rfl

@[simp] theorem State.mapBlock_lifecycle :
    (s.mapBlock).lifecycle = s.lifecycle := rfl
@[simp] theorem State.mapBlock_csr :
    (s.mapBlock).csr = s.csr := rfl
@[simp] theorem State.mapBlock_mem :
    (s.mapBlock).mem = { s.mem with xbuf := s.mem.xbuf.write 0 s.blockRows.flatten } := rfl
@[simp] theorem State.mapBlock_ece :
    (s.mapBlock).ece = s.ece := rfl
@[simp] theorem State.mapBlock_host :
    (s.mapBlock).host = s.host := rfl
@[simp] theorem State.mapBlock_draws :
    (s.mapBlock).draws = s.draws + s.nSamp := rfl

@[simp] theorem State.unmapRows_lifecycle :
    (s.unmapRows).lifecycle = s.lifecycle := rfl
@[simp] theorem State.unmapRows_csr :
    (s.unmapRows).csr = s.csr := rfl
@[simp] theorem State.unmapRows_mem :
    (s.unmapRows).mem = { s.mem with blkOut := s.mem.blkOut.write 0 s.rowSamples } := rfl
@[simp] theorem State.unmapRows_ece :
    (s.unmapRows).ece = s.ece := rfl
@[simp] theorem State.unmapRows_host :
    (s.unmapRows).host = s.host := rfl
@[simp] theorem State.unmapRows_draws :
    (s.unmapRows).draws = s.draws + s.nSamp := rfl

@[simp] theorem State.setReadData_lifecycle (v : Word) :
    (s.setReadData v).lifecycle = s.lifecycle := rfl
@[simp] theorem State.setReadData_csr (v : Word) :
    (s.setReadData v).csr = s.csr := rfl
@[simp] theorem State.setReadData_mem (v : Word) :
    (s.setReadData v).mem = s.mem := rfl
@[simp] theorem State.setReadData_ece (v : Word) :
    (s.setReadData v).ece = s.ece := rfl
@[simp] theorem State.setReadData_host (v : Word) :
    (s.setReadData v).host = { s.host with readData := v } := rfl
@[simp] theorem State.setReadData_draws (v : Word) :
    (s.setReadData v).draws = s.draws := rfl

@[simp] theorem State.setPending_lifecycle (rest : List HostAccess) :
    (s.setPending rest).lifecycle = s.lifecycle := rfl
@[simp] theorem State.setPending_csr (rest : List HostAccess) :
    (s.setPending rest).csr = s.csr := rfl
@[simp] theorem State.setPending_mem (rest : List HostAccess) :
    (s.setPending rest).mem = s.mem := rfl
@[simp] theorem State.setPending_ece (rest : List HostAccess) :
    (s.setPending rest).ece = s.ece := rfl
@[simp] theorem State.setPending_host (rest : List HostAccess) :
    (s.setPending rest).host = { s.host with pending := rest } := rfl
@[simp] theorem State.setPending_draws (rest : List HostAccess) :
    (s.setPending rest).draws = s.draws := rfl

/-! ## Values derived from the CSRs (R10): equal CSRs give equal values -/

theorem State.width_congr {s t : State} (h : t.csr.cfgW = s.csr.cfgW) : t.width = s.width := by
  simp [State.width, h]

theorem State.nRows_congr {s t : State} (hh : t.csr.cfgH = s.csr.cfgH) (hd : t.csr.cfgD = s.csr.cfgD) :
    t.nRows = s.nRows := by
  simp [State.nRows, State.height, State.depth, hh, hd]

/-! ## A number that fits a register is stored as it is (log 8) -/

theorem State.fit_of_lt {n : Nat} (h : n < 2 ^ 32) : s.fit n = BitVec.ofNat 32 n := if_pos h

theorem fitDraws_of_lt {n : Nat} (h : n < 2 ^ 32) : fitDraws n = 0 := if_pos h

@[simp] theorem State.fit_toNat (c : Word) : s.fit c.toNat = c := by
  rw [State.fit_of_lt _ c.isLt]
  simp

@[simp] theorem fitDraws_toNat (c : Word) : fitDraws c.toNat = 0 := fitDraws_of_lt c.isLt

@[simp] theorem State.fit_zero : s.fit 0 = 0#32 := rfl

@[simp] theorem fitDraws_zero : fitDraws 0 = 0 := rfl

end Sys2Proof.Machine
end

