-- ==== Sys2Proof/Laws/Engine.lean ====
section
/-! SUPPORT. What an ECE transaction can do: one law per transaction, one for recovery, and one per loop over the engine's answers. -/

namespace Sys2Proof.Machine

/-- What no transaction of the encode side changes: everything but the context, the record of transactions, the coming answers and the
counter of free values. -/
structure EceOnly (s t : State) : Prop where
  lifecycle : t.lifecycle = s.lifecycle
  csr : t.csr = s.csr
  mem : t.mem = s.mem
  host : t.host = s.host
  encTable : t.ece.encTable = s.ece.encTable
  decTable : t.ece.decTable = s.ece.decTable

theorem EceOnly.refl (s : State) : EceOnly s s := ⟨rfl, rfl, rfl, rfl, rfl, rfl⟩

theorem EceOnly.trans {s t u : State} (h : EceOnly s t) (k : EceOnly t u) : EceOnly s u :=
  ⟨k.1.trans h.1, k.2.trans h.2, k.3.trans h.3, k.4.trans h.4, k.5.trans h.5, k.6.trans h.6⟩

theorem EceOnly.precision {s t : State} (h : EceOnly s t) : t.precision = s.precision := by
  simp [State.precision, h.csr]

theorem EceOnly.width {s t : State} (h : EceOnly s t) : t.width = s.width := by
  simp [State.width, h.csr]

theorem EceOnly.nRows {s t : State} (h : EceOnly s t) : t.nRows = s.nRows := by
  simp [State.nRows, State.height, State.depth, h.csr]

theorem EceOnly.nSamp {s t : State} (h : EceOnly s t) : t.nSamp = s.nSamp := by
  simp [State.nSamp, State.width, State.height, State.depth, h.csr]

/-! ## Single transactions -/

/-- The answer is the next of `replies` when there is one. -/
theorem State.issue_of_replies {s : State} {r : Reply} {rest : List Reply} (h : s.ece.replies = r :: rest)
    (t : Transaction) :
    s.issue t = (r, { s with ece := { s.ece with port := s.ece.port ++ [t], replies := rest } }) := by
  simp [State.issue, h]

theorem State.issue_eceOnly (s : State) (t : Transaction) : EceOnly s (s.issue t).2 := by
  unfold State.issue
  split <;> exact ⟨rfl, rfl, rfl, rfl, rfl, rfl⟩

@[simp] theorem State.issue_ctx (s : State) (t : Transaction) : (s.issue t).2.ece.ctx = s.ece.ctx := by
  unfold State.issue
  split <;> rfl

/-- Every transaction is recorded at the port, after those before it. -/
@[simp] theorem State.issue_port (s : State) (t : Transaction) : (s.issue t).2.ece.port = s.ece.port ++ [t] := by
  unfold State.issue
  split <;> rfl

theorem State.setCtx_eceOnly (s : State) (c : Option EceContext) : EceOnly s (s.setCtx c) :=
  ⟨rfl, rfl, rfl, rfl, rfl, rfl⟩

theorem State.advance_eceOnly (s : State) (n : Nat) : EceOnly s (s.advance n) := ⟨rfl, rfl, rfl, rfl, rfl, rfl⟩

theorem State.eceDestroy_eceOnly (s : State) : EceOnly s s.eceDestroy :=
  (s.issue_eceOnly _).trans (State.setCtx_eceOnly _ _)

@[simp] theorem State.eceDestroy_ctx (s : State) : s.eceDestroy.ece.ctx = none := rfl

theorem State.eceCreate_eceOnly (s : State) (p : Nat) : EceOnly s (s.eceCreate p).2 := by
  unfold State.eceCreate
  dsimp only
  split
  · exact s.issue_eceOnly _
  · exact (s.issue_eceOnly _).trans (State.setCtx_eceOnly _ _)

theorem State.eceSetQuant_eceOnly (s : State) (q : List Half) : EceOnly s (s.eceSetQuant q).2 := by
  unfold State.eceSetQuant
  dsimp only
  split
  · exact s.issue_eceOnly _
  · exact (s.issue_eceOnly _).trans (State.setCtx_eceOnly _ _)

theorem State.eceSetHuffman_eceOnly (s : State) (k : HuffKind) (t : HuffTable) :
    EceOnly s (s.eceSetHuffman k t).2 := by
  unfold State.eceSetHuffman
  dsimp only
  split
  · exact s.issue_eceOnly _
  · cases k <;> exact (s.issue_eceOnly _).trans (State.setCtx_eceOnly _ _)

/-- A created context is idle and holds no tables (R292). -/
theorem State.eceCreate_ctx {s : State} {p : Nat} (h : (s.eceCreate p).1 = false) :
    (s.eceCreate p).2.ece.ctx = some ⟨⟨p, none, none, none⟩, .idle⟩ := by
  unfold State.eceCreate at *
  dsimp only at *
  split at h <;> simp_all [State.setCtx]

/-- A failed `create_context` leaves no context where there was none. -/
theorem State.eceCreate_ctx_error {s : State} {p : Nat} (h : (s.eceCreate p).1 = true) :
    (s.eceCreate p).2.ece.ctx = s.ece.ctx := by
  unfold State.eceCreate at *
  dsimp only at *
  split at h <;> simp_all

/-- `set_quant_table` replaces the quantization table of a context (R283). -/
theorem State.eceSetQuant_ctx {s : State} {q : List Half} {c : EceContext} (hc : s.ece.ctx = some c)
    (h : (s.eceSetQuant q).1 = false) :
    (s.eceSetQuant q).2.ece.ctx = some ⟨{ c.cfg with quant := some q }, c.phase⟩ := by
  unfold State.eceSetQuant at *
  dsimp only at *
  split at h <;> simp_all [State.setCfg, State.setCtx, State.eceCfg, State.ecePhase]

/-- `set_huffman_table` replaces the DC table of a context (R284). -/
theorem State.eceSetHuffman_dc_ctx {s : State} {t : HuffTable} {c : EceContext} (hc : s.ece.ctx = some c)
    (h : (s.eceSetHuffman .dc t).1 = false) :
    (s.eceSetHuffman .dc t).2.ece.ctx = some ⟨{ c.cfg with dc := some t }, c.phase⟩ := by
  unfold State.eceSetHuffman at *
  dsimp only at *
  split at h <;> simp_all [State.setCfg, State.setCtx, State.eceCfg, State.ecePhase]

/-- `set_huffman_table` replaces the AC table of a context (R284). -/
theorem State.eceSetHuffman_ac_ctx {s : State} {t : HuffTable} {c : EceContext} (hc : s.ece.ctx = some c)
    (h : (s.eceSetHuffman .ac t).1 = false) :
    (s.eceSetHuffman .ac t).2.ece.ctx = some ⟨{ c.cfg with ac := some t }, c.phase⟩ := by
  unfold State.eceSetHuffman at *
  dsimp only at *
  split at h <;> simp_all [State.setCfg, State.setCtx, State.eceCfg, State.ecePhase]

/-! ## Recovery (R298) -/

/-- What recovery injects: the shadows as they read. -/
def State.shadowTables (s : State) : EceCfg where
  precision := s.precision
  quant := some (s.mem.qtab.readRange s.draws 0 64)
  dc := some ⟨s.mem.hufCntDC.readRange (s.draws + 64) 0 16, s.mem.hufValDC.readRange (s.draws + 80) 0 256⟩
  ac := some ⟨s.mem.hufCntAC.readRange (s.draws + 336) 0 16, s.mem.hufValAC.readRange (s.draws + 352) 0 256⟩

/-- A recovery that succeeds changes only the engine side, and leaves an idle context with the shadows' tables. -/
theorem State.recover_spec {s t : State} (h : s.recover = some t) :
    EceOnly s t ∧ t.ece.ctx = some ⟨s.shadowTables, .idle⟩ := by
  unfold State.recover at h
  dsimp only at h
  have e0 := (State.advance_eceOnly s 608).trans (State.eceDestroy_eceOnly (s.advance 608))
  generalize (s.advance 608).eceDestroy = d at *
  have e1 := e0.trans (State.eceCreate_eceOnly d s.precision)
  cases h1 : (d.eceCreate s.precision).1
  · have c1 := State.eceCreate_ctx h1
    simp only [h1] at h
    generalize (d.eceCreate s.precision).2 = c at *
    generalize hq : s.mem.qtab.readRange s.draws 0 64 = q at *
    have e2 := e1.trans (State.eceSetQuant_eceOnly c q)
    cases h2 : (c.eceSetQuant q).1
    · have c2 := State.eceSetQuant_ctx c1 h2
      simp only [h2] at h
      generalize (c.eceSetQuant q).2 = x at *
      generalize hdc : HuffTable.mk (s.mem.hufCntDC.readRange (s.draws + 64) 0 16)
        (s.mem.hufValDC.readRange (s.draws + 80) 0 256) = dc at *
      have e3 := e2.trans (State.eceSetHuffman_eceOnly x .dc dc)
      cases h3 : (x.eceSetHuffman .dc dc).1
      · have c3 := State.eceSetHuffman_dc_ctx c2 h3
        simp only [h3] at h
        generalize (x.eceSetHuffman .dc dc).2 = y at *
        generalize hac : HuffTable.mk (s.mem.hufCntAC.readRange (s.draws + 336) 0 16)
          (s.mem.hufValAC.readRange (s.draws + 352) 0 256) = ac at *
        have e4 := e3.trans (State.eceSetHuffman_eceOnly y .ac ac)
        cases h4 : (y.eceSetHuffman .ac ac).1
        · have c4 := State.eceSetHuffman_ac_ctx c3 h4
          simp only [h4, Bool.false_eq_true, if_false, Option.some.injEq] at h
          subst h
          refine ⟨e4, ?_⟩
          rw [c4]
          simp [State.shadowTables, hq, hdc, hac]
        · simp [h4] at h
      · simp [h3] at h
    · simp [h2] at h
  · simp [h1] at h

/-! ## The encode side -/

theorem State.eceBeginCompress_eceOnly (s : State) : EceOnly s s.eceBeginCompress.2 := by
  unfold State.eceBeginCompress
  dsimp only
  split
  · exact s.issue_eceOnly _
  · exact (s.issue_eceOnly _).trans (State.setCtx_eceOnly _ _)

theorem State.acceptRows_eceOnly (s : State) (a n : Nat) : EceOnly s (s.acceptRows a n) := by
  unfold State.acceptRows
  split <;> exact ⟨rfl, rfl, rfl, rfl, rfl, rfl⟩

theorem State.eceWriteScanlines_eceOnly (s : State) (done : Nat) : EceOnly s (s.eceWriteScanlines done).2 := by
  unfold State.eceWriteScanlines
  dsimp only
  split
  · exact s.issue_eceOnly _
  · split
    · exact s.issue_eceOnly _
    · exact (s.issue_eceOnly _).trans (State.acceptRows_eceOnly _ _ _)

theorem State.eceFinishCompress_eceOnly (s : State) (hdr ftr : List Byte) :
    EceOnly s (s.eceFinishCompress hdr ftr).2 := by
  unfold State.eceFinishCompress
  dsimp only
  split
  · exact s.issue_eceOnly _
  · exact (s.issue_eceOnly _).trans (State.setCtx_eceOnly _ _)

/-- The state in which driving the engine ends. -/
def EngineRun.state {α : Type} : EngineRun α → State
  | .ok _ s => s
  | .bad _ s => s

theorem writeRows_eceOnly (fuel done : Nat) (s : State) : EceOnly s (writeRows fuel done s).state := by
  induction fuel generalizing done s with
  | zero => exact EceOnly.refl s
  | succ fuel ih =>
    unfold writeRows
    split
    · have h := s.eceWriteScanlines_eceOnly done
      generalize s.eceWriteScanlines done = a at h
      obtain ⟨n, t⟩ := a
      cases n with
      | none => exact h
      | some n => exact h.trans (ih _ _)
    · exact EceOnly.refl s

theorem driveCompress_eceOnly (hdr ftr : List Byte) (s : State) :
    EceOnly s (driveCompress hdr ftr s).state := by
  have h0 := s.eceBeginCompress_eceOnly
  unfold driveCompress
  dsimp only
  generalize s.eceBeginCompress = b at h0
  split
  · exact h0
  · have h1 := h0.trans (writeRows_eceOnly s.nRows 0 b.2)
    generalize writeRows s.nRows 0 b.2 = r at h1
    cases r with
    | bad e t => exact h1
    | ok a t =>
      have h2 := h1.trans (State.eceFinishCompress_eceOnly _ hdr ftr)
      simp only [EngineRun.state] at h2
      generalize hf : t.eceFinishCompress hdr ftr = f at h2
      obtain ⟨o, u⟩ := f
      cases o with
      | none => simp only [hf]; exact h2
      | some o => simp only [hf]; exact h2

/-- The only error of driving the engine through a compression is an engine error (R241 label E). -/
theorem driveCompress_bad {hdr ftr : List Byte} {s t : State} {e : Err} (h : driveCompress hdr ftr s = .bad e t) :
    e.cause = .engineError := by
  have hw : ∀ fuel done (u v : State) (e : Err), writeRows fuel done u = .bad e v → e.cause = .engineError := by
    intro fuel
    induction fuel with
    | zero => intro done u v e h; simp [writeRows] at h
    | succ fuel ih =>
      intro done u v e h
      unfold writeRows at h
      split at h
      · split at h
        · cases h; rfl
        · exact ih _ _ _ _ h
      · cases h
  unfold driveCompress at h
  dsimp only at h
  split at h
  · cases h; rfl
  · split at h
    · next hr => cases h; exact hw _ _ _ _ _ hr
    · split at h
      · cases h; rfl
      · cases h

/-! ## The decode side -/

/-- What no transaction of the decode side changes: everything but the engine side, the counter of free values, and XBUF. -/
structure EceAndXbuf (s t : State) : Prop where
  lifecycle : t.lifecycle = s.lifecycle
  csr : t.csr = s.csr
  mem : ∃ x, t.mem = { s.mem with xbuf := x }
  host : t.host = s.host
  encTable : t.ece.encTable = s.ece.encTable
  decTable : t.ece.decTable = s.ece.decTable

theorem EceOnly.toXbuf {s t : State} (h : EceOnly s t) : EceAndXbuf s t :=
  ⟨h.1, h.2, ⟨s.mem.xbuf, h.3⟩, h.4, h.5, h.6⟩

theorem EceAndXbuf.trans {s t u : State} (h : EceAndXbuf s t) (k : EceAndXbuf t u) : EceAndXbuf s u := by
  obtain ⟨x, hx⟩ := h.mem
  obtain ⟨y, hy⟩ := k.mem
  exact ⟨k.1.trans h.1, k.2.trans h.2, ⟨y, by rw [hy, hx]⟩, k.4.trans h.4, k.5.trans h.5, k.6.trans h.6⟩

theorem State.eceReadHeader_eceOnly (s : State) (input : List Byte) : EceOnly s (s.eceReadHeader input).2 := by
  unfold State.eceReadHeader
  dsimp only
  split
  · exact s.issue_eceOnly _
  · exact (s.issue_eceOnly _).trans (State.setCtx_eceOnly _ _)

theorem State.eceFinishDecompress_eceOnly (s : State) : EceOnly s s.eceFinishDecompress.2 := by
  unfold State.eceFinishDecompress
  dsimp only
  split
  · exact s.issue_eceOnly _
  · exact (s.issue_eceOnly _).trans (State.setCtx_eceOnly _ _)

theorem State.deliverRows_eceAndXbuf (s : State) (a n : Nat) : EceAndXbuf s (s.deliverRows a n) := by
  unfold State.deliverRows
  dsimp only
  split <;> exact ⟨rfl, rfl, ⟨_, rfl⟩, rfl, rfl, rfl⟩

theorem State.eceReadScanlines_eceAndXbuf (s : State) (done : Nat) :
    EceAndXbuf s (s.eceReadScanlines done).2 := by
  unfold State.eceReadScanlines
  dsimp only
  split
  · exact (s.issue_eceOnly _).toXbuf
  · split
    · exact (s.issue_eceOnly _).toXbuf
    · split
      · exact (s.issue_eceOnly _).toXbuf
      · exact (s.issue_eceOnly _).toXbuf.trans (State.deliverRows_eceAndXbuf _ _ _)

theorem readRows_eceAndXbuf (fuel done : Nat) (s : State) : EceAndXbuf s (readRows fuel done s).state := by
  induction fuel generalizing done s with
  | zero => exact (EceOnly.refl s).toXbuf
  | succ fuel ih =>
    unfold readRows
    split
    · have h := s.eceReadScanlines_eceAndXbuf done
      generalize s.eceReadScanlines done = a at h
      obtain ⟨n, t⟩ := a
      cases n with
      | error e => exact h
      | ok n => exact h.trans (ih _ _)
    · exact (EceOnly.refl s).toXbuf

theorem driveDecompress_eceAndXbuf (stream : List Byte) (s : State) :
    EceAndXbuf s (driveDecompress stream s).state := by
  have h0 := (s.eceReadHeader_eceOnly stream).toXbuf
  unfold driveDecompress
  dsimp only
  generalize s.eceReadHeader stream = b at h0
  split
  · exact h0
  · have h1 : EceAndXbuf s b.2.eceBeginDecompress.2 := h0.trans (State.issue_eceOnly _ _).toXbuf
    generalize b.2.eceBeginDecompress = c at h1
    split
    · exact h1
    · have h2 := h1.trans (readRows_eceAndXbuf s.nRows 0 c.2)
      generalize readRows s.nRows 0 c.2 = r at h2
      cases r with
      | bad e t => exact h2
      | ok a t =>
        have h3 := h2.trans (State.eceFinishDecompress_eceOnly _).toXbuf
        simp only [EngineRun.state] at h3
        dsimp only
        generalize t.eceFinishDecompress = f at h3
        split <;> exact h3

/-- The errors of driving the engine through a decompression are the engine error and the stall (R261). -/
theorem driveDecompress_bad {stream : List Byte} {s t : State} {e : Err} (h : driveDecompress stream s = .bad e t) :
    e.cause = .engineError ∨ e.cause = .decoderStalled := by
  have hs : ∀ done (u v : State) (e : Err), u.eceReadScanlines done = (.error e, v) →
      e.cause = .engineError ∨ e.cause = .decoderStalled := by
    intro done u v e h
    unfold State.eceReadScanlines at h
    dsimp only at h
    split at h
    · cases h; exact .inl rfl
    · split at h
      · cases h; exact .inr rfl
      · split at h <;> cases h
        exact .inl rfl
  have hw : ∀ fuel done (u v : State) (e : Err), readRows fuel done u = .bad e v →
      e.cause = .engineError ∨ e.cause = .decoderStalled := by
    intro fuel
    induction fuel with
    | zero => intro done u v e h; simp [readRows] at h
    | succ fuel ih =>
      intro done u v e h
      unfold readRows at h
      split at h
      · split at h
        · next he => cases h; exact hs _ _ _ _ he
        · exact ih _ _ _ _ h
      · cases h
  unfold driveDecompress at h
  dsimp only at h
  split at h
  · cases h; exact .inl rfl
  · split at h
    · cases h; exact .inl rfl
    · split at h
      · next hr => cases h; exact hw _ _ _ _ _ hr
      · split at h <;> cases h
        exact .inl rfl

end Sys2Proof.Machine
end

