-- ==== Sys2Proof/Laws/Mapper.lean ====
section
/-! SUPPORT. The mapper index by index: the coordinate loops of 43_scanline_mapper.md visit the samples in index order, so that what
MAP and UNMAP store is a plain map over the indices below NSAMP (R201). -/

namespace Sys2Proof.Machine

theorem flatten_rows {α : Type} (f : Nat → α) (n w : Nat) :
    ((List.range n).map fun i => (List.range w).map fun x => f (i * w + x)).flatten = (List.range (n * w)).map f := by
  induction n with
  | zero => simp
  | succ n ih =>
    rw [List.range_succ, List.map_append, List.flatten_append, ih, Nat.succ_mul, List.range_add, List.map_append]
    simp

/-- The block index of the sample that row `i` holds in column `x` is the cell index of that pixel. -/
theorem blockAddr_coordOf (w h x i : Nat) : blockAddr w h x (coordOf h i).1 (coordOf h i).2 = i * w + x := by
  have := Nat.mod_add_div i h
  calc x + w * (i % h) + w * h * (i / h) = x + w * (i % h + h * (i / h)) := by ring
    _ = i * w + x := by rw [this]; ring

theorem mapRows_eq (w h d p : Nat) (blk : Nat → Half) :
    mapRows w h d p blk =
      (List.range (h * d)).map fun i => (List.range w).map fun x => narrow p (blk (i * w + x)) := by
  simp only [mapRows, blockAddr_coordOf]

theorem flatten_mapRows (w h d p : Nat) (blk : Nat → Half) :
    (mapRows w h d p blk).flatten = (List.range (w * h * d)).map fun n => narrow p (blk n) := by
  rw [mapRows_eq, flatten_rows (fun n => narrow p (blk n)), show h * d * w = w * h * d by ring]

/-- The loops of R206 store, at index `n`, the widened cell `n`. -/
theorem unmapBlock_eq (w h d p : Nat) (px : Nat → Nat → Half) (cell : Nat → Half)
    (hc : ∀ x i, px x i = cell (i * w + x)) :
    unmapBlock w h d p px = (List.range (w * h * d)).map fun n => widen p (cell n) := by
  have h1 : ∀ z, ((List.range h).flatMap fun y => (List.range w).map fun x => widen p (px x (rowOf h y z)))
      = (List.range (h * w)).map fun k => widen p (cell (z * (h * w) + k)) := by
    intro z
    rw [List.flatMap_def, ← flatten_rows (fun k => widen p (cell (z * (h * w) + k)))]
    congr 1
    apply List.map_congr_left
    intro y _
    apply List.map_congr_left
    intro x _
    rw [hc, rowOf]
    congr 2
    ring
  simp only [unmapBlock, h1]
  rw [List.flatMap_def, flatten_rows (fun k => widen p (cell k)), show d * (h * w) = w * h * d by ring]

theorem State.flatten_blockRows (s : State) :
    s.blockRows.flatten =
      (List.range s.nSamp).map fun n => narrow s.precision (s.mem.blkIn.read (s.draws + n) n) := by
  rw [State.blockRows, flatten_mapRows]
  rfl

theorem State.rowSamples_eq (s : State) :
    s.rowSamples = (List.range s.nSamp).map fun n => widen s.precision (s.mem.xbuf.read (s.draws + n) n) :=
  unmapBlock_eq s.width s.height s.depth s.precision _ (fun n => s.mem.xbuf.read (s.draws + n) n) (fun _ _ => rfl)

/-- What MAP leaves in XBUF (R204). -/
theorem State.mapBlock_get? (s : State) (n : Nat) :
    s.mapBlock.mem.xbuf.get? n =
      if n < s.nSamp then some (narrow s.precision (s.mem.blkIn.read (s.draws + n) n)) else s.mem.xbuf.get? n := by
  simp only [State.mapBlock_mem, State.flatten_blockRows, Space.get?_write]
  by_cases h : n < s.nSamp <;> simp [h]

/-- What UNMAP leaves in BLK_OUT (R206). -/
theorem State.unmapRows_get? (s : State) (n : Nat) :
    s.unmapRows.mem.blkOut.get? n =
      if n < s.nSamp then some (widen s.precision (s.mem.xbuf.read (s.draws + n) n)) else s.mem.blkOut.get? n := by
  simp only [State.unmapRows_mem, State.rowSamples_eq, Space.get?_write]
  by_cases h : n < s.nSamp <;> simp [h]

theorem esw_eight : esw 8 = 8 := rfl

theorem esw_of_ne {p : Nat} (h : p ≠ 8) : esw p = 16 := by simp [esw, h]

theorem cellBits_eight (v : Half) : cellBits 8 v = BitVec.ofNat 16 (v.toNat % 256) := by
  apply BitVec.eq_of_toNat_eq
  simp [cellBits, esw_eight]

theorem cellBits_of_ne {p : Nat} (h : p ≠ 8) (v : Half) : cellBits p v = v := by
  rw [cellBits, esw_of_ne h]
  simp

/-- The low ESW bits of a cell lie below 2^ESW (R43). -/
theorem cellBits_lt (p : Nat) (v : Half) : (cellBits p v).toNat < 2 ^ esw p := by
  by_cases hp : p = 8
  · subst hp
    rw [cellBits_eight, esw_eight]
    simp
    omega
  · rw [cellBits_of_ne hp, esw_of_ne hp]
    exact v.isLt

/-- A value below 2^ESW is its own low ESW bits (R202, R203). -/
theorem cellBits_of_lt {p : Nat} {v : Half} (h : v.toNat < 2 ^ esw p) : cellBits p v = v := by
  by_cases hp : p = 8
  · subst hp
    rw [esw_eight] at h
    apply BitVec.eq_of_toNat_eq
    rw [cellBits_eight]
    simp
    omega
  · exact cellBits_of_ne hp v

@[simp] theorem cellBits_idem (p : Nat) (v : Half) : cellBits p (cellBits p v) = cellBits p v :=
  cellBits_of_lt (cellBits_lt p v)

end Sys2Proof.Machine
end

