-- ==== Sys2Proof/Laws/Pipeline.lean ====
section
/-! SUPPORT. What driving the engine through one image gives: the rows ECE_ENC receives and the cells ECE_DEC delivers, however the
engine splits the rows into batches (45_block_encoder.md rule R242, 46_block_decoder.md rule R265). -/

namespace Sys2Proof.Machine

/-! ## The context through the transactions -/

theorem State.eceCfg_congr {s t : State} (h : t.ece.ctx = s.ece.ctx) : t.eceCfg = s.eceCfg := by
  simp [State.eceCfg, h]

theorem State.ecePhase_congr {s t : State} (h : t.ece.ctx = s.ece.ctx) : t.ecePhase = s.ecePhase := by
  simp [State.ecePhase, h]

@[simp] theorem State.issue_eceCfg (s : State) (t : Transaction) : (s.issue t).2.eceCfg = s.eceCfg :=
  State.eceCfg_congr (s.issue_ctx t)

@[simp] theorem State.issue_ecePhase (s : State) (t : Transaction) : (s.issue t).2.ecePhase = s.ecePhase :=
  State.ecePhase_congr (s.issue_ctx t)

@[simp] theorem State.setPhase_eceCfg (s : State) (p : EcePhase) : (s.setPhase p).eceCfg = s.eceCfg := rfl

@[simp] theorem State.setPhase_ecePhase (s : State) (p : EcePhase) : (s.setPhase p).ecePhase = p := rfl

@[simp] theorem State.advance_eceCfg (s : State) (n : Nat) : (s.advance n).eceCfg = s.eceCfg := rfl

@[simp] theorem State.advance_ecePhase (s : State) (n : Nat) : (s.advance n).ecePhase = s.ecePhase := rfl

theorem State.eceEnc_congr {s t : State} (h : t.ece.encTable = s.ece.encTable) (k : EncKey) : t.eceEnc k = s.eceEnc k := by
  simp [State.eceEnc, h]

theorem State.eceDec_congr {s t : State} (h : t.ece.decTable = s.ece.decTable) (p : Nat) (k : DecKey) (n : Nat) :
    t.eceDec p k n = s.eceDec p k n := by
  simp [State.eceDec, h]

/-! ## The encode side -/

/-- The XBUF cells of the image hold `xb`. -/
def State.XbufHolds (s : State) (xb : Nat → Half) : Prop :=
  ∀ i x, i < s.nRows → x < s.width → s.mem.xbuf.get? (i * s.width + x) = some (xb (i * s.width + x))

/-- Rows `a .. a + n − 1` of the image whose cells are `xb`, as the ECE reads them. -/
def imageRows (w p : Nat) (xb : Nat → Half) (a n : Nat) : List (List Half) :=
  (List.range n).map fun k => (List.range w).map fun x => cellBits p (xb ((a + k) * w + x))

theorem imageRows_append (w p : Nat) (xb : Nat → Half) (a m n : Nat) :
    imageRows w p xb a m ++ imageRows w p xb (a + m) n = imageRows w p xb a (m + n) := by
  simp [imageRows, List.range_add, Nat.add_assoc]

theorem EceOnly.xbufHolds {s t : State} (h : EceOnly s t) {xb : Nat → Half} (hx : s.XbufHolds xb) : t.XbufHolds xb := by
  intro i x hi hxw
  rw [h.nRows] at hi
  rw [h.width] at hxw ⊢
  rw [h.mem]
  exact hx i x hi hxw

theorem State.xbufRows_eq {s : State} {xb : Nat → Half} (hx : s.XbufHolds xb) {a n : Nat} (hb : a + n ≤ s.nRows) :
    s.xbufRows a n = imageRows s.width s.precision xb a n := by
  apply List.map_congr_left
  intro k hk
  have hk := List.mem_range.mp hk
  rw [Space.readRange_of_get? (v := fun x => xb ((a + k) * s.width + x))]
  · simp
  · intro x hxw
    exact hx (a + k) x (by omega) hxw

theorem State.acceptRows_phase {s : State} {w h : Nat} {rows : List (List Half)}
    (hp : s.ecePhase = .compressing w h rows) (a n : Nat) :
    (s.acceptRows a n).ecePhase = .compressing w h (rows ++ s.xbufRows a n) ∧ (s.acceptRows a n).eceCfg = s.eceCfg := by
  simp [State.acceptRows, hp]

/-- What a `write_scanlines` that the FE goes on after can do (R286). -/
theorem State.eceWriteScanlines_some {s t : State} {done n w h : Nat} {rows : List (List Half)} {xb : Nat → Half}
    (he : s.eceWriteScanlines done = (some n, t)) (hp : s.ecePhase = .compressing w h rows) (hx : s.XbufHolds xb)
    (hd : done ≤ s.nRows) :
    0 < n ∧ done + n ≤ s.nRows ∧ t.eceCfg = s.eceCfg
      ∧ t.ecePhase = .compressing w h (rows ++ imageRows s.width s.precision xb done n) := by
  unfold State.eceWriteScanlines at he
  dsimp only at he
  have e := s.issue_eceOnly (.writeScanlines (rowPtrs s.width done (s.nRows - done)))
  have hp' := s.issue_ecePhase (.writeScanlines (rowPtrs s.width done (s.nRows - done)))
  have hc' := s.issue_eceCfg (.writeScanlines (rowPtrs s.width done (s.nRows - done)))
  generalize s.issue (.writeScanlines (rowPtrs s.width done (s.nRows - done))) = a at *
  split at he
  · cases he
  · split at he
    · cases he
    · next hcount =>
      simp only [Prod.mk.injEq, Option.some.injEq] at he
      obtain ⟨rfl, rfl⟩ := he
      have h1 := State.acceptRows_phase (hp'.trans hp) done a.1.count
      have hle : done + a.1.count ≤ s.nRows := by omega
      have hrows := State.xbufRows_eq (e.xbufHolds hx) (a := done) (n := a.1.count) (by rw [e.nRows]; exact hle)
      rw [e.width, e.precision] at hrows
      exact ⟨by omega, hle, h1.2.trans hc', by rw [h1.1, hrows]⟩

/-- The write loop hands over the missing rows in order, each once, whatever the batches (R286, R242). -/
theorem writeRows_ok {fuel done : Nat} {s t : State} {w h : Nat} {rows : List (List Half)} {xb : Nat → Half}
    (hr : writeRows fuel done s = .ok () t) (hp : s.ecePhase = .compressing w h rows) (hx : s.XbufHolds xb)
    (hd : done ≤ s.nRows) (hf : s.nRows - done ≤ fuel) :
    t.eceCfg = s.eceCfg
      ∧ t.ecePhase = .compressing w h (rows ++ imageRows s.width s.precision xb done (s.nRows - done)) := by
  induction fuel generalizing done s rows with
  | zero =>
    simp only [writeRows, EngineRun.ok.injEq, true_and] at hr
    subst hr
    have : s.nRows - done = 0 := by omega
    simp [this, imageRows, hp]
  | succ fuel ih =>
    unfold writeRows at hr
    split at hr
    · have e := s.eceWriteScanlines_eceOnly done
      generalize he : s.eceWriteScanlines done = a at hr e
      obtain ⟨n, u⟩ := a
      cases n with
      | none => cases hr
      | some n =>
        obtain ⟨h0, hle, hc, hph⟩ := State.eceWriteScanlines_some he hp hx hd
        simp only at e hr
        have := ih hr hph (e.xbufHolds hx) (by rw [e.nRows]; exact hle) (by rw [e.nRows]; omega)
        rw [e.width, e.precision, e.nRows] at this
        refine ⟨this.1.trans hc, ?_⟩
        rw [this.2, List.append_assoc, imageRows_append]
        congr 3
        omega
    · simp only [EngineRun.ok.injEq, true_and] at hr
      subst hr
      have : s.nRows - done = 0 := by omega
      simp [this, imageRows, hp]

/-- A compression that ends normally leaves an idle context with the same tables, and its output is ECE_ENC's on the rows in XBUF, or
other bytes that ENCODE does not accept (R300 a, c). -/
theorem driveCompress_ok {hdr ftr out : List Byte} {s t : State} {xb : Nat → Half}
    (hr : driveCompress hdr ftr s = .ok out t) (hx : s.XbufHolds xb) :
    t.ece.ctx = some ⟨s.eceCfg, .idle⟩
      ∧ (out = s.eceEnc ⟨s.eceCfg, s.width, s.nRows, imageRows s.width s.precision xb 0 s.nRows⟩
          ∨ ∃ e, acceptStream hdr ftr out = .error e) := by
  unfold driveCompress at hr
  dsimp only at hr
  have e0 := s.eceBeginCompress_eceOnly
  split at hr
  · cases hr
  · next hb =>
    have hphase : s.eceBeginCompress.2.ecePhase = .compressing s.width s.nRows []
        ∧ s.eceBeginCompress.2.eceCfg = s.eceCfg := by
      unfold State.eceBeginCompress at hb ⊢
      dsimp only at hb ⊢
      split at hb
      · simp at hb
      · next h =>
        have ei := s.issue_eceOnly (.beginCompress s.width s.nRows 1)
        rw [if_neg h]
        simp
    generalize s.eceBeginCompress = b at *
    have e1 := e0.trans (writeRows_eceOnly s.nRows 0 b.2)
    generalize hw : writeRows s.nRows 0 b.2 = r at hr e1
    cases r with
    | bad e u => cases hr
    | ok a u =>
      have hrows := writeRows_ok hw hphase.1 (e0.xbufHolds hx) (Nat.zero_le _) (by rw [e0.nRows]; omega)
      rw [e0.width, e0.precision, e0.nRows, hphase.2, List.nil_append, Nat.sub_zero] at hrows
      simp only [EngineRun.state] at e1
      have e2 := e1.trans (u.issue_eceOnly .finishCompress)
      simp only at hr
      generalize hfin : u.eceFinishCompress hdr ftr = f at hr
      obtain ⟨o, v⟩ := f
      cases o with
      | none => cases hr
      | some o =>
        simp only [EngineRun.ok.injEq] at hr
        obtain ⟨rfl, rfl⟩ := hr
        unfold State.eceFinishCompress at hfin
        dsimp only at hfin
        split at hfin
        · cases hfin
        · simp only [Prod.mk.injEq, Option.some.injEq] at hfin
          obtain ⟨ho, rfl⟩ := hfin
          refine ⟨by simp [State.setPhase, State.setCtx, hrows.1], ?_⟩
          have hkey : (u.issue .finishCompress).2.encKey
              = ⟨s.eceCfg, s.width, s.nRows, imageRows s.width s.precision xb 0 s.nRows⟩ := by
            simp [State.encKey, hrows]
          unfold State.encOutput at ho
          rw [hkey] at ho
          simp only [State.eceEnc_congr e2.encTable] at ho
          split at ho
          · exact .inl ho.symm
          · split at ho
            · exact .inl ho.symm
            · next he => exact .inr ⟨_, ho ▸ he⟩

/-- The image that ENCODE hands over is `map_rows` of the block (R205, R242). -/
theorem State.imageRows_mapBlock (s : State) :
    imageRows s.width s.precision (fun n => narrow s.precision (s.mem.blkIn.read (s.draws + n) n)) 0 s.nRows
      = s.blockRows := by
  simp [imageRows, State.blockRows, mapRows_eq, narrow, State.nRows]

/-- After the mapping step XBUF holds the narrowed samples. -/
theorem State.mapBlock_xbufHolds (s : State) :
    s.mapBlock.XbufHolds fun n => narrow s.precision (s.mem.blkIn.read (s.draws + n) n) := by
  intro i x hi hx
  have hw : s.mapBlock.width = s.width := rfl
  have hn : s.mapBlock.nRows = s.nRows := rfl
  rw [hw] at hx ⊢
  rw [hn] at hi
  have : i * s.width + x < s.nSamp := by
    have h1 : i * s.width + x < (i + 1) * s.width := by rw [Nat.succ_mul]; omega
    have h2 : (i + 1) * s.width ≤ s.nRows * s.width := Nat.mul_le_mul_right _ hi
    have h3 : s.nRows * s.width = s.nSamp := by simp [State.nRows, State.nSamp]; ring
    omega
  rw [State.mapBlock_get?, if_pos this]

/-! ## Runs of answers -/

/-- With answers that bring the rows to the end, the write loop consumes exactly these answers and issues one transaction for each. -/
theorem writeRows_run (rs : List Reply) {rest : List Reply} {fuel done : Nat} {s : State}
    (hr : s.ece.replies = rs ++ rest) (hc : RowCounts done s.nRows rs) (hf : s.nRows - done ≤ fuel) :
    ∃ t, writeRows fuel done s = .ok () t ∧ t.ece.replies = rest
      ∧ t.ece.port = s.ece.port ++ writeCalls s.width s.nRows done rs := by
  induction rs generalizing fuel done s with
  | nil =>
    have hd : done = s.nRows := hc
    refine ⟨s, ?_, by simpa using hr, by simp [writeCalls]⟩
    cases fuel with
    | zero => rfl
    | succ fuel => simp [writeRows, hd]
  | cons r rs ih =>
    obtain ⟨he, h0, hle, hc⟩ := hc
    obtain ⟨fuel, rfl⟩ : ∃ k, fuel = k + 1 := ⟨fuel - 1, by omega⟩
    have hlt : done < s.nRows := by omega
    have hi := State.issue_of_replies (s := s) (r := r) (rest := rs ++ rest) (by simpa using hr)
      (.writeScanlines (rowPtrs s.width done (s.nRows - done)))
    generalize hu : ({ s with ece := { s.ece with
      port := s.ece.port ++ [Transaction.writeScanlines (rowPtrs s.width done (s.nRows - done))],
      replies := rs ++ rest } } : State) = u at hi
    have hcount : ¬ (r.count = 0 ∨ s.nRows - done < r.count) := by omega
    have hs : s.eceWriteScanlines done = (some r.count, u.acceptRows done r.count) := by
      simp [State.eceWriteScanlines, hi, he, hcount]
    have ea := State.acceptRows_eceOnly u done r.count
    have hun : u.nRows = s.nRows := by subst hu; rfl
    have huw : u.width = s.width := by subst hu; rfl
    have hrep : (u.acceptRows done r.count).ece.replies = rs ++ rest := by
      unfold State.acceptRows
      split <;> (subst hu; rfl)
    have hport : (u.acceptRows done r.count).ece.port = u.ece.port := by
      unfold State.acceptRows
      split <;> rfl
    obtain ⟨t, ht, htr, htp⟩ := ih (fuel := fuel) hrep (by rw [ea.nRows, hun]; exact hc) (by rw [ea.nRows, hun]; omega)
    refine ⟨t, ?_, htr, ?_⟩
    · unfold writeRows
      rw [if_pos hlt]
      simp only [hs]
      exact ht
    · rw [htp, ea.nRows, hun, ea.width, huw, hport, ← hu]
      simp [writeCalls]

/-- With normal answers that bring the rows to the end, a compression ends normally, one transaction per answer; its output is ECE_ENC's
when the ECE says so, and other bytes when ENCODE is not going to accept them (R294, R300). -/
theorem driveCompress_run {s : State} {xb : Nat → Half} {hdr ftr : List Byte} {first last : Reply} {counts rest : List Reply}
    (hr : s.ece.replies = first :: (counts ++ last :: rest)) (hf : first.error = false)
    (hc : RowCounts 0 s.nRows counts) (hl : last.error = false) (hx : s.XbufHolds xb) :
    ∃ out t, driveCompress hdr ftr s = .ok out t ∧ t.ece.replies = rest
      ∧ t.ece.port = s.ece.port ++ [.beginCompress s.width s.nRows 1] ++ writeCalls s.width s.nRows 0 counts ++ [.finishCompress]
      ∧ (last.output = none → out = s.eceEnc ⟨s.eceCfg, s.width, s.nRows, imageRows s.width s.precision xb 0 s.nRows⟩)
      ∧ (∀ b e, last.output = some b → acceptStream hdr ftr b = .error e → out = b) := by
  have hi := State.issue_of_replies hr (.beginCompress s.width s.nRows 1)
  generalize hu : ({ s with ece := { s.ece with
    port := s.ece.port ++ [Transaction.beginCompress s.width s.nRows 1], replies := counts ++ last :: rest } } : State) = u at hi
  have hb : s.eceBeginCompress = (false, u.setPhase (.compressing s.width s.nRows [])) := by
    simp [State.eceBeginCompress, hi, hf]
  have e1 : EceOnly s (u.setPhase (.compressing s.width s.nRows [])) := by
    subst hu
    exact ⟨rfl, rfl, rfl, rfl, rfl, rfl⟩
  have hc1 : (u.setPhase (.compressing s.width s.nRows [])).eceCfg = s.eceCfg := by
    subst hu
    rfl
  have hp1 : (u.setPhase (.compressing s.width s.nRows [])).ece.port = s.ece.port ++ [.beginCompress s.width s.nRows 1] := by
    subst hu
    rfl
  have hr1 : (u.setPhase (.compressing s.width s.nRows [])).ece.replies = counts ++ last :: rest := by
    subst hu
    rfl
  have hph := u.setPhase_ecePhase (.compressing s.width s.nRows [])
  generalize u.setPhase (.compressing s.width s.nRows []) = v at *
  obtain ⟨x, hwx, hrx, hpx⟩ := writeRows_run (s := v) (fuel := s.nRows) counts hr1 (by rw [e1.nRows]; exact hc)
    (by rw [e1.nRows]; omega)
  have hrows := writeRows_ok hwx hph (e1.xbufHolds hx) (Nat.zero_le _) (by rw [e1.nRows]; omega)
  rw [e1.width, e1.precision, e1.nRows, hc1, List.nil_append, Nat.sub_zero] at hrows
  rw [e1.width, e1.nRows, hp1] at hpx
  have e2 : EceOnly s x := by
    have := writeRows_eceOnly s.nRows 0 v
    rw [hwx] at this
    exact e1.trans this
  have hj := State.issue_of_replies hrx .finishCompress
  have e3 := e2.trans (x.issue_eceOnly .finishCompress)
  have hkey : (x.issue .finishCompress).2.encKey
      = ⟨s.eceCfg, s.width, s.nRows, imageRows s.width s.precision xb 0 s.nRows⟩ := by
    simp [State.encKey, hrows]
  refine ⟨(x.issue .finishCompress).2.encOutput hdr ftr last, (x.issue .finishCompress).2.setPhase .idle, ?_, ?_, ?_, ?_, ?_⟩
  · unfold driveCompress
    simp only [hb, Bool.false_eq_true, if_false, hwx]
    have : (x.issue .finishCompress).1 = last := by rw [hj]
    simp [State.eceFinishCompress, this, hl]
  · rw [hj]
    rfl
  · simp [hpx]
  · intro ho
    simp [State.encOutput, ho, hkey, State.eceEnc_congr e3.encTable]
  · intro b e ho ha
    simp [State.encOutput, ho, ha]

/-! ## The decode side -/

theorem EceAndXbuf.precision {s t : State} (h : EceAndXbuf s t) : t.precision = s.precision := by
  simp [State.precision, h.csr]

theorem EceAndXbuf.width {s t : State} (h : EceAndXbuf s t) : t.width = s.width := by
  simp [State.width, h.csr]

theorem EceAndXbuf.nRows {s t : State} (h : EceAndXbuf s t) : t.nRows = s.nRows := by
  simp [State.nRows, State.height, State.depth, h.csr]

theorem EceAndXbuf.nSamp {s t : State} (h : EceAndXbuf s t) : t.nSamp = s.nSamp := by
  simp [State.nSamp, State.width, State.height, State.depth, h.csr]

/-- What the delivery of rows `a .. a + n − 1` does (R290, R300 b). -/
theorem State.deliverRows_spec {s : State} {stream : List Byte} {k : Nat} (hp : s.ecePhase = .decompressing stream k)
    (a n : Nat) :
    (s.deliverRows a n).ecePhase = .decompressing stream (k + n) ∧ (s.deliverRows a n).eceCfg = s.eceCfg
      ∧ ∀ i, (s.deliverRows a n).mem.xbuf.get? i =
          if a * s.width ≤ i ∧ i < (a + n) * s.width then some (s.eceDec s.precision ⟨s.eceCfg, stream⟩ i)
          else s.mem.xbuf.get? i := by
  have hk : s.decKey = ⟨s.eceCfg, stream⟩ := by simp [State.decKey, hp]
  have hm : (s.deliverRows a n).mem.xbuf = s.mem.xbuf.write (rowPtr s.width a)
      ((List.range (n * s.width)).map fun k => s.eceDec s.precision s.decKey (rowPtr s.width a + k)) := by
    simp [State.deliverRows, hp]
  refine ⟨by simp [State.deliverRows, hp], ?_, ?_⟩
  · simp only [State.deliverRows, hp]
    rfl
  · intro i
    rw [hm, hk]
    simp only [Space.get?_write, List.length_map, List.length_range, rowPtr, Nat.add_mul]
    by_cases h : a * s.width ≤ i ∧ i < a * s.width + n * s.width
    · rw [if_pos h, if_pos h]
      have h1 : i - a * s.width < n * s.width := by omega
      have h2 : a * s.width + (i - a * s.width) = i := by omega
      simp [h1, h2]
    · rw [if_neg h, if_neg h]

/-- What a `read_scanlines` that the FE goes on after can do (R290). -/
theorem State.eceReadScanlines_ok {s t : State} {done n k : Nat} {stream : List Byte}
    (he : s.eceReadScanlines done = (.ok n, t)) (hp : s.ecePhase = .decompressing stream k) (hd : done ≤ s.nRows) :
    0 < n ∧ done + n ≤ s.nRows ∧ t.eceCfg = s.eceCfg ∧ t.ecePhase = .decompressing stream (k + n)
      ∧ ∀ i, t.mem.xbuf.get? i =
          if done * s.width ≤ i ∧ i < (done + n) * s.width then some (s.eceDec s.precision ⟨s.eceCfg, stream⟩ i)
          else s.mem.xbuf.get? i := by
  unfold State.eceReadScanlines at he
  dsimp only at he
  have e := s.issue_eceOnly (.readScanlines (rowPtrs s.width done (s.nRows - done)) (s.nRows - done))
  have hp' := s.issue_ecePhase (.readScanlines (rowPtrs s.width done (s.nRows - done)) (s.nRows - done))
  have hc' := s.issue_eceCfg (.readScanlines (rowPtrs s.width done (s.nRows - done)) (s.nRows - done))
  generalize s.issue (.readScanlines (rowPtrs s.width done (s.nRows - done)) (s.nRows - done)) = a at *
  split at he
  · cases he
  · split at he
    · cases he
    · split at he
      · cases he
      · simp only [Prod.mk.injEq, Except.ok.injEq] at he
        obtain ⟨rfl, rfl⟩ := he
        have h1 := State.deliverRows_spec (hp'.trans hp) done a.1.count
        refine ⟨by omega, by omega, h1.2.1.trans hc', h1.1, ?_⟩
        intro i
        rw [h1.2.2 i, e.width, e.precision, e.mem, hc', State.eceDec_congr e.decTable]

/-- The read loop delivers the missing rows of ECE_DEC's image, whatever the batches (R265, R290). -/
theorem readRows_ok {fuel done k : Nat} {s t : State} {stream : List Byte}
    (hr : readRows fuel done s = .ok () t) (hp : s.ecePhase = .decompressing stream k)
    (hd : done ≤ s.nRows) (hf : s.nRows - done ≤ fuel) :
    t.eceCfg = s.eceCfg ∧ (∃ k', t.ecePhase = .decompressing stream k')
      ∧ ∀ i, t.mem.xbuf.get? i =
          if done * s.width ≤ i ∧ i < s.nRows * s.width then some (s.eceDec s.precision ⟨s.eceCfg, stream⟩ i)
          else s.mem.xbuf.get? i := by
  have hlast : ∀ (s : State) (i : Nat), s.nRows ≤ done → ¬ (done * s.width ≤ i ∧ i < s.nRows * s.width) := by
    intro s i h
    have := Nat.mul_le_mul_right s.width h
    omega
  induction fuel generalizing done s k with
  | zero =>
    simp only [readRows, EngineRun.ok.injEq, true_and] at hr
    subst hr
    exact ⟨rfl, ⟨k, hp⟩, fun i => by rw [if_neg (hlast s i (by omega))]⟩
  | succ fuel ih =>
    unfold readRows at hr
    split at hr
    · have e := s.eceReadScanlines_eceAndXbuf done
      generalize he : s.eceReadScanlines done = a at hr e
      obtain ⟨n, u⟩ := a
      cases n with
      | error e => cases hr
      | ok n =>
        obtain ⟨h0, hle, hc, hph, hxb⟩ := State.eceReadScanlines_ok he hp hd
        simp only at e hr
        have := ih hr hph (by rw [e.nRows]; exact hle) (by rw [e.nRows]; omega) (by
          intro s i h
          have := Nat.mul_le_mul_right s.width h
          omega)
        refine ⟨this.1.trans hc, this.2.1, ?_⟩
        intro i
        rw [this.2.2 i, hxb i, e.width, e.nRows, e.precision, hc, State.eceDec_congr e.decTable]
        have m1 : (done + n) * s.width ≤ s.nRows * s.width := Nat.mul_le_mul_right _ hle
        have m2 : done * s.width ≤ (done + n) * s.width := Nat.mul_le_mul_right _ (by omega)
        by_cases c1 : (done + n) * s.width ≤ i ∧ i < s.nRows * s.width
        · rw [if_pos c1, if_pos (by omega)]
        · rw [if_neg c1]
          by_cases c2 : done * s.width ≤ i ∧ i < (done + n) * s.width
          · rw [if_pos c2, if_pos (by omega)]
          · rw [if_neg c2, if_neg (by omega)]
    · simp only [EngineRun.ok.injEq, true_and] at hr
      subst hr
      exact ⟨rfl, ⟨k, hp⟩, fun i => by rw [if_neg (hlast s i (by omega))]⟩

/-- A decompression that ends normally leaves an idle context with the same tables and ECE_DEC's image in XBUF (R300 b). -/
theorem driveDecompress_ok {stream : List Byte} {s t : State} (hr : driveDecompress stream s = .ok () t) :
    t.ece.ctx = some ⟨s.eceCfg, .idle⟩
      ∧ ∀ i, t.mem.xbuf.get? i =
          if i < s.nRows * s.width then some (s.eceDec s.precision ⟨s.eceCfg, stream⟩ i) else s.mem.xbuf.get? i := by
  unfold driveDecompress at hr
  dsimp only at hr
  have e0 := s.eceReadHeader_eceOnly stream
  split at hr
  · cases hr
  · next hb =>
    have hphase : (s.eceReadHeader stream).2.ecePhase = .decompressing stream 0
        ∧ (s.eceReadHeader stream).2.eceCfg = s.eceCfg := by
      unfold State.eceReadHeader at hb ⊢
      dsimp only at hb ⊢
      split at hb
      · simp at hb
      · next h =>
        rw [if_neg h]
        simp
    generalize s.eceReadHeader stream = b at *
    have e1 := e0.trans (b.2.issue_eceOnly .beginDecompress)
    have hp1 : b.2.eceBeginDecompress.2.ecePhase = .decompressing stream 0 := by
      simpa [State.eceBeginDecompress] using hphase.1
    have hc1 : b.2.eceBeginDecompress.2.eceCfg = s.eceCfg := by
      simpa [State.eceBeginDecompress] using hphase.2
    have e1 : EceOnly s b.2.eceBeginDecompress.2 := e1
    generalize b.2.eceBeginDecompress = c at *
    split at hr
    · cases hr
    · generalize hw : readRows s.nRows 0 c.2 = r at hr
      cases r with
      | bad e u => cases hr
      | ok a u =>
        have hrows := readRows_ok hw hp1 (Nat.zero_le _) (by rw [e1.nRows]; omega)
        simp only at hr
        have hfin := u.issue_eceOnly .finishDecompress
        have hfc := u.issue_eceCfg .finishDecompress
        unfold State.eceFinishDecompress at hr
        dsimp only at hr
        generalize u.issue .finishDecompress = f at *
        by_cases hf : f.1.error
        · simp [hf] at hr
        · simp only [hf, Bool.false_eq_true, if_false, EngineRun.ok.injEq, true_and] at hr
          subst hr
          refine ⟨?_, ?_⟩
          · simp only [State.setPhase_ece, hfc]
            rw [hrows.1, hc1]
          · intro i
            simp only [State.setPhase_mem]
            rw [hfin.mem, hrows.2.2 i, e1.width, e1.nRows, e1.precision, hc1, e1.mem, State.eceDec_congr e1.decTable]
            simp

/-- With answers that bring the rows to the end, the read loop consumes exactly these answers and issues one transaction for each. -/
theorem readRows_run (rs : List Reply) {rest : List Reply} {fuel done : Nat} {s : State}
    (hr : s.ece.replies = rs ++ rest) (hc : RowCounts done s.nRows rs) (hf : s.nRows - done ≤ fuel) :
    ∃ t, readRows fuel done s = .ok () t ∧ t.ece.replies = rest
      ∧ t.ece.port = s.ece.port ++ readCalls s.width s.nRows done rs := by
  induction rs generalizing fuel done s with
  | nil =>
    have hd : done = s.nRows := hc
    refine ⟨s, ?_, by simpa using hr, by simp [readCalls]⟩
    cases fuel with
    | zero => rfl
    | succ fuel => simp [readRows, hd]
  | cons r rs ih =>
    obtain ⟨he, h0, hle, hc⟩ := hc
    obtain ⟨fuel, rfl⟩ : ∃ k, fuel = k + 1 := ⟨fuel - 1, by omega⟩
    have hlt : done < s.nRows := by omega
    have hi := State.issue_of_replies (s := s) (r := r) (rest := rs ++ rest) (by simpa using hr)
      (.readScanlines (rowPtrs s.width done (s.nRows - done)) (s.nRows - done))
    generalize hu : ({ s with ece := { s.ece with
      port := s.ece.port ++ [Transaction.readScanlines (rowPtrs s.width done (s.nRows - done)) (s.nRows - done)],
      replies := rs ++ rest } } : State) = u at hi
    have h1 : ¬ r.count = 0 := by omega
    have h2 : ¬ s.nRows - done < r.count := by omega
    have hs : s.eceReadScanlines done = (.ok r.count, u.deliverRows done r.count) := by
      simp [State.eceReadScanlines, hi, he, h1, h2]
    have ea := State.deliverRows_eceAndXbuf u done r.count
    have hun : u.nRows = s.nRows := by subst hu; rfl
    have huw : u.width = s.width := by subst hu; rfl
    have hrep : (u.deliverRows done r.count).ece.replies = rs ++ rest := by
      unfold State.deliverRows
      dsimp only
      split <;> (subst hu; rfl)
    have hport : (u.deliverRows done r.count).ece.port = u.ece.port := by
      unfold State.deliverRows
      dsimp only
      split <;> rfl
    obtain ⟨t, ht, htr, htp⟩ := ih (fuel := fuel) hrep (by rw [ea.nRows, hun]; exact hc) (by rw [ea.nRows, hun]; omega)
    refine ⟨t, ?_, htr, ?_⟩
    · unfold readRows
      rw [if_pos hlt]
      simp only [hs]
      exact ht
    · rw [htp, ea.nRows, hun, ea.width, huw, hport, ← hu]
      simp [readCalls]

/-- With normal answers that bring the rows to the end, a decompression ends normally, one transaction per answer (R294). -/
theorem driveDecompress_run {s : State} {stream : List Byte} {header begun last : Reply} {counts rest : List Reply}
    (hr : s.ece.replies = header :: begun :: (counts ++ last :: rest)) (hh : header.error = false) (hb : begun.error = false)
    (hc : RowCounts 0 s.nRows counts) (hl : last.error = false) :
    ∃ t, driveDecompress stream s = .ok () t ∧ t.ece.replies = rest
      ∧ t.ece.port = s.ece.port ++ [.readHeader stream, .beginDecompress] ++ readCalls s.width s.nRows 0 counts
          ++ [.finishDecompress] := by
  have hi := State.issue_of_replies hr (.readHeader stream)
  have h1 : s.eceReadHeader stream = (false, (s.issue (.readHeader stream)).2.setPhase (.decompressing stream 0)) := by
    have : (s.issue (.readHeader stream)).1 = header := by rw [hi]
    simp [State.eceReadHeader, this, hh]
  have e1 : EceOnly s ((s.issue (.readHeader stream)).2.setPhase (.decompressing stream 0)) :=
    (s.issue_eceOnly _).trans (State.setCtx_eceOnly _ _)
  have hp1 : ((s.issue (.readHeader stream)).2.setPhase (.decompressing stream 0)).ece.port
      = s.ece.port ++ [.readHeader stream] := by simp
  have hr1 : ((s.issue (.readHeader stream)).2.setPhase (.decompressing stream 0)).ece.replies
      = begun :: (counts ++ last :: rest) := by rw [hi]; rfl
  generalize (s.issue (.readHeader stream)).2.setPhase (.decompressing stream 0) = u at *
  have hj := State.issue_of_replies hr1 .beginDecompress
  have e2 := e1.trans (u.issue_eceOnly .beginDecompress)
  have h2 : u.eceBeginDecompress = (false, (u.issue .beginDecompress).2) := by
    have : (u.issue .beginDecompress).1 = begun := by rw [hj]
    simp [State.eceBeginDecompress, this, hb]
  have hp2 : (u.issue .beginDecompress).2.ece.port = s.ece.port ++ [.readHeader stream, .beginDecompress] := by simp [hp1]
  have hr2 : (u.issue .beginDecompress).2.ece.replies = counts ++ last :: rest := by rw [hj]
  generalize (u.issue .beginDecompress).2 = v at *
  obtain ⟨x, hwx, hrx, hpx⟩ := readRows_run (s := v) (fuel := s.nRows) counts hr2 (by rw [e2.nRows]; exact hc)
    (by rw [e2.nRows]; omega)
  rw [e2.width, e2.nRows, hp2] at hpx
  have hk := State.issue_of_replies hrx .finishDecompress
  have h3 : x.eceFinishDecompress = (false, (x.issue .finishDecompress).2.setPhase .idle) := by
    have : (x.issue .finishDecompress).1 = last := by rw [hk]
    simp [State.eceFinishDecompress, this, hl]
  refine ⟨(x.issue .finishDecompress).2.setPhase .idle, ?_, ?_, ?_⟩
  · unfold driveDecompress
    simp only [h1, h2, hwx, h3, Bool.false_eq_true, if_false]
  · rw [hk]
    rfl
  · simp [hpx]

end Sys2Proof.Machine
end

