-- ==== Sys2Proof/Laws/Commands.lean ====
section
/-! SUPPORT. What the frame of a command can do, what taking an error does per class, and the laws of teardown. -/

namespace Sys2Proof.Machine

/-- The decoder's legality table is R104's. -/
theorem legalIn_eq_not_refusedIn (i : Instr) (l : Lifecycle) : legalIn i l = !refusedIn i l := by
  cases i <;> cases l <;> rfl

/-- Ending without error (R147): ERRCODE and ERRINFO 0, STATUS.ERR as it was. -/
theorem State.finish_ok (s : State) : s.finish 0#32 0 = s.setCsr s.csr.okResult := by
  simp [State.finish, State.setCsr, Csrs.okResult]

/-- Ending with an error whose detail fits ERRINFO (R147). -/
theorem State.finish_err {s : State} {code : Word} {info : Nat} (hc : code ≠ 0#32) (hi : info < 2 ^ 32) :
    s.finish code info = s.setCsr (s.csr.errResult code (BitVec.ofNat 32 info)) := by
  simp [State.finish, State.setCsr, Csrs.errResult, State.fit_of_lt s hi, fitDraws_of_lt hi, bne, hc]

theorem errorCode_ne_zero (c : Cause) : errorCode c ≠ 0#32 := by
  cases c <;> decide

/-- Every error code is in the code table (R313). -/
theorem errorCode_mem (c : Cause) : (errorCode c).toNat ∈ errorCodes := by
  cases c <;> decide

/-- Refusing a command changes nothing but the error registers (R318). -/
theorem State.takeError_badState (i j : Instr) (s : State) :
    s.takeError i ⟨.badState, (opcodeOf j).toNat⟩ = s.refusedWith 0x41#32 ((opcodeOf j).setWidth 32) := by
  have h : (opcodeOf j).toNat < 2 ^ 32 := by have := (opcodeOf j).isLt; omega
  simp only [State.takeError, State.errorEffects, classOf]
  rw [State.finish_err (by decide) h]
  simp [State.refusedWith, State.setCsr, BitVec.ofNat_toNat]
  rfl

/-- THE FRAME, once: what a command that answers a next state did (R147). -/
theorem runCommand_next {i : Instr} {body : State → BodyResult} {s t : State} (h : runCommand i body s = .next t) :
    (refusedIn i s.lifecycle = true ∧ t = s.refusedWith 0x41#32 ((opcodeOf i).setWidth 32))
    ∨ (refusedIn i s.lifecycle = false ∧ ∃ u, body s = .done u ∧ t = u.setCsr u.csr.okResult)
    ∨ (refusedIn i s.lifecycle = false ∧ ∃ e u, body s = .raise e u ∧ t = u.takeError i e) := by
  unfold runCommand at h
  rw [legalIn_eq_not_refusedIn] at h
  cases hr : refusedIn i s.lifecycle
  · simp only [hr, Bool.not_false, if_true] at h
    cases hb : body s with
    | done u =>
      simp only [hb, Host.Outcome.next.injEq] at h
      exact .inr (.inl ⟨rfl, u, rfl, by rw [← h, State.finish_ok]⟩)
    | raise e u =>
      simp only [hb, Host.Outcome.next.injEq] at h
      exact .inr (.inr ⟨rfl, e, u, rfl, h.symm⟩)
    | fault r => simp [hb] at h
  · simp only [hr, Bool.not_true, Bool.false_eq_true, if_false, Host.Outcome.next.injEq] at h
    exact .inl ⟨rfl, by rw [← h, State.takeError_badState]⟩

theorem runCommand_refused {i : Instr} {body : State → BodyResult} {s : State} (h : refusedIn i s.lifecycle = true) :
    runCommand i body s = .next (s.refusedWith 0x41#32 ((opcodeOf i).setWidth 32)) := by
  simp [runCommand, legalIn_eq_not_refusedIn, h, State.takeError_badState]

theorem runCommand_done {i : Instr} {body : State → BodyResult} {s t : State} (h : refusedIn i s.lifecycle = false)
    (hb : body s = .done t) : runCommand i body s = .next (t.setCsr t.csr.okResult) := by
  simp [runCommand, legalIn_eq_not_refusedIn, h, hb, State.finish_ok]

theorem runCommand_raise {i : Instr} {body : State → BodyResult} {s t : State} {e : Err}
    (h : refusedIn i s.lifecycle = false) (hb : body s = .raise e t) :
    runCommand i body s = .next (t.takeError i e) := by
  simp [runCommand, legalIn_eq_not_refusedIn, h, hb]

/-! ## Teardown (R144) -/

@[simp] theorem State.teardown_lifecycle (s : State) : s.teardown.lifecycle = .unconfigured := rfl

theorem State.teardown_csr (s : State) :
    s.teardown.csr = { s.csr with cfgW := 0#32, cfgH := 0#32, cfgD := 0#32, cfgP := 0#32 } := by
  unfold State.teardown
  dsimp only
  split
  · rfl
  · rw [(State.eceDestroy_eceOnly s).csr]

theorem State.teardown_mem (s : State) :
    s.teardown.mem = { s.mem with
      hdr := .unspecified 8, ftr := .unspecified 8, qtab := .unspecified 16
      hufCntDC := .unspecified 8, hufValDC := .unspecified 8, hufCntAC := .unspecified 8, hufValAC := .unspecified 8 } := by
  unfold State.teardown
  dsimp only
  split
  · rfl
  · rw [(State.eceDestroy_eceOnly s).mem]

theorem State.teardown_host (s : State) : s.teardown.host = s.host := by
  unfold State.teardown
  dsimp only
  split
  · rfl
  · rw [(State.eceDestroy_eceOnly s).host]

/-- After teardown there is no context, if there was none in UNCONFIGURED. -/
theorem State.teardown_ctx {s : State} (h : s.lifecycle = .unconfigured → s.ece.ctx = none) : s.teardown.ece.ctx = none := by
  unfold State.teardown
  dsimp only
  split
  · next hu => exact h hu
  · rfl

/-- Teardown issues one transaction, `destroy_context`, and only when a context exists (R144). -/
theorem State.teardown_port (s : State) :
    s.teardown.ece.port = if s.lifecycle = .unconfigured then s.ece.port else s.ece.port ++ [.destroyContext] := by
  unfold State.teardown
  dsimp only
  split
  · rfl
  · simp [State.eceDestroy, State.setCtx]

/-- In UNCONFIGURED there is nothing to tear down (R145). -/
theorem State.teardown_unconfigured {s : State} (hl : s.lifecycle = .unconfigured) (h : s.UnconfiguredOk) :
    s.teardown = s := by
  obtain ⟨⟨c1, c2, c3, c4⟩, h1, h2, ⟨h3, h4, h5, h6, h7⟩, h8⟩ := h
  obtain ⟨l, c, m, e, ho, d⟩ := s
  obtain ⟨_, _, _, _, _, _, _, _, _, _, _, _, _, _, _, _, _, _⟩ := c
  obtain ⟨_, _, _, _, _, _, _, _, _, _, _, _, _, _, _, _, _⟩ := m
  simp only at hl c1 c2 c3 c4 h1 h2 h3 h4 h5 h6 h7
  subst hl c1 c2 c3 c4 h1 h2 h3 h4 h5 h6 h7
  rfl

/-! ## Taking an error (R312) -/

theorem State.takeError_configuration {i : Instr} {e : Err} (s : State) (h : classOf e.cause = .configurationError) :
    s.takeError i e = s.teardown.finish (errorCode e.cause) e.info := by
  simp [State.takeError, State.errorEffects, h]

theorem State.takeError_perCall {i : Instr} {e : Err} (s : State)
    (h : classOf e.cause = .framingViolation ∨ classOf e.cause = .decoderStalled) :
    s.takeError i e = (s.voidOutputs i).finish (errorCode e.cause) e.info := by
  rcases h with h | h <;> simp [State.takeError, State.errorEffects, h]

theorem State.takeError_sequence {i : Instr} {e : Err} (s : State) (h : classOf e.cause = .sequenceError) :
    s.takeError i e = s.finish (errorCode e.cause) e.info := by
  simp [State.takeError, State.errorEffects, h]

end Sys2Proof.Machine
end

