-- ==== Sys2Proof/Laws/Bodies.lean ====
section
/-! SUPPORT. What the bodies of the commands that drive the engine can do, once each: which parts of the state they touch, with which
errors they end, and where the engine error of a recovery stops them. -/

namespace Sys2Proof.Machine

/-! ## The acceptance of a stream (R241 steps 3 to 5) -/

theorem verifyFraming_error {s hdr ftr : List Byte} {e : Err} (h : verifyFraming s hdr ftr = .error e) :
    e.cause = .headerMismatch ∨ e.cause = .footerMismatch := by
  unfold verifyFraming at h
  dsimp only at h
  split at h
  · cases h; exact .inl rfl
  · split at h
    · cases h; exact .inr rfl
    · split at h
      · cases h; exact .inr rfl
      · split at h
        · cases h; exact .inr rfl
        · cases h

/-- The errors of an unaccepted stream are framing violations (R241). -/
theorem acceptStream_error {hdr ftr out : List Byte} {e : Err} (h : acceptStream hdr ftr out = .error e) :
    classOf e.cause = .framingViolation := by
  unfold acceptStream at h
  split at h
  · cases h; rfl
  · split at h
    · next he => cases h; rcases verifyFraming_error he with hc | hc <;> rw [hc] <;> rfl
    · split at h
      · cases h; rfl
      · cases h

/-- An accepted stream fits EBUF, is well framed, and holds the payload stuffed (R241). -/
theorem acceptStream_ok {hdr ftr out p : List Byte} (h : acceptStream hdr ftr out = .ok p) :
    out.length ≤ Config.ebufCap ∧ verifyFraming out hdr ftr = .ok () ∧ unstuff (entropyRegion out) = .ok p := by
  unfold acceptStream at h
  split at h
  · cases h
  · next hc =>
    split at h
    · cases h
    · next hv =>
      split at h
      · cases h
      · next hu => cases h; exact ⟨by omega, hv, hu⟩

/-! ## Recovery at the end of a body -/

theorem recoverThenRaise_raise {e e' : Err} {s t : State} (h : recoverThenRaise e s = .raise e' t) :
    e' = e ∧ s.recover = some t := by
  unfold recoverThenRaise at h
  split at h
  · next hr => cases h; exact ⟨rfl, hr⟩
  · cases h

theorem recoverThenRaise_not_done {e : Err} {s t : State} : recoverThenRaise e s ≠ .done t := by
  unfold recoverThenRaise
  split <;> simp

/-- The state ENCODE drives the engine in: outputs void, block mapped, header and footer read (R241 steps 0 and 1). -/
def State.beforeCompress (s : State) : State := s.voidEncode.mapBlock.afterFraming

/-- How ENCODE's body ends (R241). -/
theorem encodeBody_done {s t : State} (h : encodeBody s = .done t) :
    ∃ out p u, driveCompress s.voidEncode.mapBlock.readHdr s.voidEncode.mapBlock.readFtr s.beforeCompress = .ok out u
      ∧ acceptStream s.voidEncode.mapBlock.readHdr s.voidEncode.mapBlock.readFtr out = .ok p ∧ t = u.storePayload out p := by
  unfold encodeBody at h
  dsimp only at h
  split at h
  · exact absurd h recoverThenRaise_not_done
  · next hd =>
    split at h
    · cases h
    · next ha => cases h; exact ⟨_, _, _, hd, ha, rfl⟩

theorem encodeBody_raise {s t : State} {e : Err} (h : encodeBody s = .raise e t) :
    (∃ u, driveCompress s.voidEncode.mapBlock.readHdr s.voidEncode.mapBlock.readFtr s.beforeCompress = .bad e u
        ∧ u.recover = some t ∧ e.cause = .engineError)
    ∨ (∃ out, driveCompress s.voidEncode.mapBlock.readHdr s.voidEncode.mapBlock.readFtr s.beforeCompress = .ok out t
        ∧ acceptStream s.voidEncode.mapBlock.readHdr s.voidEncode.mapBlock.readFtr out = .error e) := by
  unfold encodeBody at h
  dsimp only at h
  split at h
  · next hd =>
    obtain ⟨rfl, hr⟩ := recoverThenRaise_raise h
    exact .inl ⟨_, hd, hr, driveCompress_bad hd⟩
  · next hd =>
    split at h
    · next ha => cases h; exact .inr ⟨_, hd, ha⟩
    · cases h

/-- Whatever ENCODE raises is a FramingViolation, on a state that differs from the one it drives the engine in only on the engine
side (R241, R316). -/
theorem encodeBody_raise_frame {s t : State} {e : Err} (h : encodeBody s = .raise e t) :
    classOf e.cause = .framingViolation ∧ EceOnly s.beforeCompress t := by
  rcases encodeBody_raise h with ⟨u, hd, hr, hc⟩ | ⟨out, hd, ha⟩
  · have := driveCompress_eceOnly s.voidEncode.mapBlock.readHdr s.voidEncode.mapBlock.readFtr s.beforeCompress
    rw [hd] at this
    exact ⟨by rw [hc]; rfl, this.trans (State.recover_spec hr).1⟩
  · have := driveCompress_eceOnly s.voidEncode.mapBlock.readHdr s.voidEncode.mapBlock.readFtr s.beforeCompress
    rw [hd] at this
    exact ⟨acceptStream_error ha, this⟩

/-- The state DECODE frames the stream in: outputs void, payload, header and footer read (R261 steps 0 and 1). -/
def State.beforeFrame (s : State) : State := ((s.advance s.csr.plen.toNat).voidDecode).afterFraming

/-- The stream DECODE builds (R261 step 1). -/
def State.decodeStream (s : State) : List Byte :=
  ((s.advance s.csr.plen.toNat).voidDecode).readHdr ++ stuff (s.mem.pbuf.readRange s.draws 0 s.csr.plen.toNat)
    ++ ((s.advance s.csr.plen.toNat).voidDecode).readFtr

/-- The state DECODE drives the engine in: the stream in EBUF (R261 step 2). -/
def State.beforeDecompress (s : State) : State :=
  (s.beforeFrame.setMem { s.beforeFrame.mem with ebuf := .exactly s.decodeStream }).setElen s.decodeStream.length

/-- How DECODE's body ends (R261). -/
theorem decodeBody_eq (s : State) :
    decodeBody s =
      if Config.pbufCap < s.csr.plen.toNat then .raise ⟨.badOperand, 13⟩ s
      else if Config.ebufCap < s.decodeStream.length then .raise ⟨.overflow, s.decodeStream.length⟩ s.beforeFrame
      else
        match driveDecompress s.decodeStream s.beforeDecompress with
        | .bad e v => recoverThenRaise e v
        | .ok _ v => .done v.unmapRows := rfl

theorem decodeBody_done {s t : State} (h : decodeBody s = .done t) :
    s.csr.plen.toNat ≤ Config.pbufCap ∧ s.decodeStream.length ≤ Config.ebufCap
    ∧ ∃ v, driveDecompress s.decodeStream s.beforeDecompress = .ok () v ∧ t = v.unmapRows := by
  rw [decodeBody_eq] at h
  split at h
  · cases h
  · split at h
    · cases h
    · split at h
      · exact absurd h recoverThenRaise_not_done
      · next hd => cases h; exact ⟨by omega, by omega, _, hd, rfl⟩

theorem decodeBody_raise {s t : State} {e : Err} (h : decodeBody s = .raise e t) :
    (Config.pbufCap < s.csr.plen.toNat ∧ e = ⟨.badOperand, 13⟩ ∧ t = s)
    ∨ (s.csr.plen.toNat ≤ Config.pbufCap ∧ Config.ebufCap < s.decodeStream.length
        ∧ e = ⟨.overflow, s.decodeStream.length⟩ ∧ t = s.beforeFrame)
    ∨ (s.csr.plen.toNat ≤ Config.pbufCap ∧ s.decodeStream.length ≤ Config.ebufCap
        ∧ ∃ v, driveDecompress s.decodeStream s.beforeDecompress = .bad e v ∧ v.recover = some t
          ∧ (e.cause = .engineError ∨ e.cause = .decoderStalled)) := by
  rw [decodeBody_eq] at h
  split at h
  · next hc => cases h; exact .inl ⟨hc, rfl, rfl⟩
  · split at h
    · next hc => cases h; exact .inr (.inl ⟨by omega, hc, rfl, rfl⟩)
    · split at h
      · next hd =>
        obtain ⟨rfl, hr⟩ := recoverThenRaise_raise h
        exact .inr (.inr ⟨by omega, by omega, _, hd, hr, driveDecompress_bad hd⟩)
      · cases h

/-! ## Checks and injection (R142, R161, R163) -/

theorem first_failed {c : Prop} [Decidable c] {x e : Err} {o : Option Err} (h : (if c then some x else o) = some e) :
    e = x ∨ o = some e := by
  split at h <;> simp_all

/-- Every failing check of INIT is a ConfigurationError (R142). -/
theorem initCheck_class {w h d p r q : Nat} {e : Err} (he : initCheck w h d p r q = some e) :
    classOf e.cause = .configurationError := by
  unfold initCheck at he
  iterate 12
    rcases first_failed he with rfl | he
    · rfl
  cases he

/-- Every failing check of CONFIGURE is a ConfigurationError (R161). -/
theorem configureCheck_class {q n m : Nat} {c d : List Half} {e : Err} (he : configureCheck q n m c d = some e) :
    classOf e.cause = .configurationError := by
  have hh : ∀ i n c e, huffCheck i n c = some e → classOf e.cause = .configurationError := by
    intro i n c e h
    unfold huffCheck at h
    repeat' split at h
    all_goals (cases h <;> rfl)
  unfold configureCheck at he
  repeat' split at he
  · cases he; rfl
  · next h => cases he; exact hh _ _ _ _ h
  · exact hh _ _ _ _ he

/-- A failing injection is ENGINE_CTX, and touches the engine side only (R161 row 8). -/
theorem inject_raise {t : StagedTables} {s u : State} {e : Err} (h : inject t s = .raise e u) :
    EceOnly s u ∧ e.cause = .engineCtx ∧ e.info ≤ 3 := by
  unfold inject at h
  dsimp only at h
  have e1 := s.eceSetQuant_eceOnly t.quant
  generalize s.eceSetQuant t.quant = q at *
  split at h
  · cases h; exact ⟨e1, rfl, by simp⟩
  · have e2 := e1.trans (q.2.eceSetHuffman_eceOnly .dc (dcTable t))
    generalize q.2.eceSetHuffman .dc (dcTable t) = x at *
    split at h
    · cases h; exact ⟨e2, rfl, by simp⟩
    · have e3 := e2.trans (x.2.eceSetHuffman_eceOnly .ac (acTable t))
      generalize x.2.eceSetHuffman .ac (acTable t) = y at *
      split at h
      · cases h; exact ⟨e3, rfl, by simp⟩
      · cases h

/-- A successful injection installs the tables in the shadows, and in the context where there is one (R163). -/
theorem inject_done {t : StagedTables} {s u : State} (h : inject t s = .done u) :
    ∃ v, EceOnly s v ∧ u = v.install t
      ∧ ∀ c, s.ece.ctx = some c →
          v.ece.ctx = some ⟨{ c.cfg with quant := some t.quant, dc := some (dcTable t), ac := some (acTable t) }, c.phase⟩ := by
  unfold inject at h
  dsimp only at h
  have e1 := s.eceSetQuant_eceOnly t.quant
  have c1 := fun c hc h => State.eceSetQuant_ctx (s := s) (q := t.quant) (c := c) hc h
  generalize s.eceSetQuant t.quant = q at *
  split at h
  · cases h
  · next hq =>
    have c1 := fun c hc => c1 c hc (by simpa using hq)
    have e2 := e1.trans (q.2.eceSetHuffman_eceOnly .dc (dcTable t))
    have c2 := fun c hc h => State.eceSetHuffman_dc_ctx (s := q.2) (t := dcTable t) (c1 c hc) h
    generalize q.2.eceSetHuffman .dc (dcTable t) = x at *
    split at h
    · cases h
    · next hx =>
      have c2 := fun c hc => c2 c hc (by simpa using hx)
      have e3 := e2.trans (x.2.eceSetHuffman_eceOnly .ac (acTable t))
      have c3 := fun c hc h => State.eceSetHuffman_ac_ctx (s := x.2) (t := acTable t) (c2 c hc) h
      generalize x.2.eceSetHuffman .ac (acTable t) = y at *
      split at h
      · cases h
      · next hy => cases h; exact ⟨y.2, e3, rfl, fun c hc => c3 c hc (by simpa using hy)⟩

/-! ## Lengths of tables (R162) -/

theorem huffCounts_length {c : List Half} (h : c.length = 16) : (huffCounts c).length = 256 := by
  simp only [huffCounts, List.length_append, List.length_map, List.length_replicate, h]

theorem huffValues_length {c : List Half} {v : List Byte} (h : symbolTotal c ≤ 256) (hv : v.length = 256) :
    (huffValues c v).length = 256 := by
  simp [huffValues, hv]
  omega

/-- A prefix of what a space holds reads as that prefix, whatever the draws. -/
theorem Space.readRange_exactly_prefix {w : Nat} (vs : List (BitVec w)) (draw n : Nat) (h : n ≤ vs.length) :
    (Space.exactly vs).readRange draw 0 n = vs.take n := by
  have hn : n = (vs.take n).length := by simp [h]
  rw [hn, Space.readRange_of_list (vs := vs.take n)]
  · simp
  · intro k hk
    simp at hk
    simp [hk]

end Sys2Proof.Machine
end

