-- ==== Sys2Proof/Laws/Failures.lean ====
section
/-! SUPPORT. Runs of answers on which driving the engine fails, and what a recovery makes of its five answers: which error, how many
answers are consumed, which transactions are issued (45_block_encoder.md rule R241, 46_block_decoder.md rule R261, 47_engine_port.md
rule R298). -/

namespace Sys2Proof.Machine

theorem RowCounts.le {done total : Nat} {rs : List Reply} (h : RowCounts done total rs) : done ≤ total := by
  cases rs with
  | nil => exact Nat.le_of_eq h
  | cons r rs => exact Nat.le_trans (Nat.le_add_right _ _) h.2.2.1

theorem State.issue_answer {s : State} {r : Reply} {rest : List Reply} (h : s.ece.replies = r :: rest) (t : Transaction) :
    (s.issue t).1 = r ∧ (s.issue t).2.ece.replies = rest := by
  rw [State.issue_of_replies h]
  exact ⟨rfl, rfl⟩

/-! ## The encode side -/

theorem State.acceptRows_ece (s : State) (a n : Nat) :
    (s.acceptRows a n).ece.replies = s.ece.replies ∧ (s.acceptRows a n).ece.port = s.ece.port := by
  unfold State.acceptRows
  split <;> exact ⟨rfl, rfl⟩

/-- A `write_scanlines` with an answer that the FE goes on after (R286). -/
theorem State.eceWriteScanlines_good {s : State} {done : Nat} {r : Reply} {rest : List Reply} (hr : s.ece.replies = r :: rest)
    (he : r.error = false) (h0 : 0 < r.count) (hle : done + r.count ≤ s.nRows) :
    ∃ t, s.eceWriteScanlines done = (some r.count, t) ∧ t.ece.replies = rest
      ∧ t.ece.port = s.ece.port ++ [.writeScanlines (rowPtrs s.width done (s.nRows - done))] := by
  obtain ⟨h1, h2⟩ := State.issue_answer hr (.writeScanlines (rowPtrs s.width done (s.nRows - done)))
  have hc : ¬ (r.count = 0 ∨ s.nRows - done < r.count) := by omega
  refine ⟨_, ?_, (State.acceptRows_ece _ done r.count).1.trans h2, (State.acceptRows_ece _ done r.count).2.trans (State.issue_port _ _)⟩
  simp [State.eceWriteScanlines, h1, he, hc]

/-- A `write_scanlines` with an answer that R241 treats as an engine error. -/
theorem State.eceWriteScanlines_bad {s : State} {done : Nat} {r : Reply} {rest : List Reply} (hr : s.ece.replies = r :: rest)
    (hb : r.error = true ∨ r.count = 0 ∨ s.nRows - done < r.count) :
    ∃ t, s.eceWriteScanlines done = (none, t) ∧ t.ece.replies = rest
      ∧ t.ece.port = s.ece.port ++ [.writeScanlines (rowPtrs s.width done (s.nRows - done))] := by
  obtain ⟨h1, h2⟩ := State.issue_answer hr (.writeScanlines (rowPtrs s.width done (s.nRows - done)))
  refine ⟨_, ?_, h2, State.issue_port _ _⟩
  cases he : r.error
  · have hc : r.count = 0 ∨ s.nRows - done < r.count := by simpa [he] using hb
    simp [State.eceWriteScanlines, h1, he, hc]
  · simp [State.eceWriteScanlines, h1, he]

/-- The write loop that stops after `k` rows. -/
theorem writeRows_fails (rs : List Reply) {bad : Reply} {rest : List Reply} {fuel done k : Nat} {s : State}
    (hr : s.ece.replies = rs ++ bad :: rest) (hc : RowCounts done k rs) (hk : k < s.nRows) (hf : s.nRows - done ≤ fuel)
    (hb : bad.error = true ∨ bad.count = 0 ∨ s.nRows - k < bad.count) :
    ∃ t, writeRows fuel done s = .bad ⟨.engineError, k⟩ t ∧ t.ece.replies = rest
      ∧ t.ece.port = s.ece.port ++ writeCalls s.width s.nRows done rs
          ++ [.writeScanlines (rowPtrs s.width k (s.nRows - k))] := by
  have hdk := hc.le
  obtain ⟨fuel, rfl⟩ : ∃ n, fuel = n + 1 := ⟨fuel - 1, by omega⟩
  induction rs generalizing fuel done s with
  | nil =>
    obtain rfl : done = k := hc
    obtain ⟨t, h1, h2, h3⟩ := State.eceWriteScanlines_bad (s := s) (done := done) hr hb
    refine ⟨t, ?_, h2, by simpa [writeCalls] using h3⟩
    unfold writeRows
    simp only [if_pos hk, h1]
  | cons r rs ih =>
    obtain ⟨he, h0, hle, hc⟩ := hc
    have hrows : done + r.count ≤ s.nRows := by omega
    obtain ⟨u, h1, h2, h3⟩ := State.eceWriteScanlines_good (s := s) (done := done) hr he h0 hrows
    have e := s.eceWriteScanlines_eceOnly done
    rw [h1] at e
    obtain ⟨fuel, rfl⟩ : ∃ n, fuel = n + 1 := ⟨fuel - 1, by omega⟩
    obtain ⟨t, ht, hr', hp'⟩ := ih h2 hc (by rw [e.nRows]; exact hk) (by rw [e.nRows]; exact hb) hle fuel (by rw [e.nRows]; omega)
    refine ⟨t, ?_, hr', ?_⟩
    · unfold writeRows
      simp only [if_pos (show done < s.nRows by omega), h1]
      exact ht
    · rw [hp', e.nRows, e.width, h3]
      simp [writeCalls]

/-- Every failing run of answers makes driving the engine through an ENCODE an engine error with the rows accepted (R241). -/
theorem driveCompress_fails {s : State} {hdr ftr : List Byte} {answers rest : List Reply} {calls : List Transaction} {k : Nat}
    (hf : CompressFails s.width s.nRows answers calls k) (hr : s.ece.replies = answers ++ rest) :
    ∃ t, driveCompress hdr ftr s = .bad ⟨.engineError, k⟩ t ∧ t.ece.replies = rest ∧ t.ece.port = s.ece.port ++ calls := by
  have begun : ∀ {first : Reply} {more : List Reply}, s.ece.replies = first :: more → first.error = false →
      ∃ u, s.eceBeginCompress = (false, u) ∧ EceOnly s u ∧ u.ece.replies = more
        ∧ u.ece.port = s.ece.port ++ [.beginCompress s.width s.nRows 1] := by
    intro first more hr hf
    obtain ⟨h1, h2⟩ := State.issue_answer hr (.beginCompress s.width s.nRows 1)
    exact ⟨(s.issue (.beginCompress s.width s.nRows 1)).2.setPhase (.compressing s.width s.nRows []),
      by simp [State.eceBeginCompress, h1, hf], (s.issue_eceOnly _).trans (State.setCtx_eceOnly _ _), h2, State.issue_port _ _⟩
  cases hf with
  | atBegin bad h =>
    obtain ⟨h1, h2⟩ := State.issue_answer hr (.beginCompress s.width s.nRows 1)
    refine ⟨_, ?_, h2, State.issue_port _ _⟩
    simp [driveCompress, State.eceBeginCompress, h1, h]
  | atRows first bad counts k hf hc hk h =>
    obtain ⟨u, h1, e, h2, h3⟩ := begun (more := counts ++ bad :: rest) (by simpa using hr) hf
    obtain ⟨t, ht, h4, h5⟩ := writeRows_fails counts (fuel := s.nRows) h2 hc (by rw [e.nRows]; exact hk) (by rw [e.nRows]; omega)
      (by rw [e.nRows]; exact h)
    refine ⟨t, by simp [driveCompress, h1, ht], h4, ?_⟩
    rw [h5, h3, e.nRows, e.width]
    simp
  | atFinish first bad counts hf hc h =>
    obtain ⟨u, h1, e, h2, h3⟩ := begun (more := counts ++ bad :: rest) (by simpa using hr) hf
    obtain ⟨t, ht, h4, h5⟩ := writeRows_run (s := u) (fuel := s.nRows) counts h2 (by rw [e.nRows]; exact hc) (by rw [e.nRows]; omega)
    obtain ⟨h6, h7⟩ := State.issue_answer h4 .finishCompress
    refine ⟨_, by simp [driveCompress, h1, ht, State.eceFinishCompress, h6, h], h7, ?_⟩
    rw [State.issue_port, h5, h3, e.nRows, e.width]
    simp

/-! ## The decode side -/

theorem State.deliverRows_ece (s : State) (a n : Nat) :
    (s.deliverRows a n).ece.replies = s.ece.replies ∧ (s.deliverRows a n).ece.port = s.ece.port := by
  unfold State.deliverRows
  dsimp only
  split <;> exact ⟨rfl, rfl⟩

/-- What a `read_scanlines` makes of its answer (R290, R261). -/
theorem State.eceReadScanlines_answer {s : State} {done : Nat} {r : Reply} {rest : List Reply} (hr : s.ece.replies = r :: rest) :
    ∃ t, t.ece.replies = rest
      ∧ t.ece.port = s.ece.port ++ [.readScanlines (rowPtrs s.width done (s.nRows - done)) (s.nRows - done)]
      ∧ s.eceReadScanlines done =
          (if r.error then .error ⟨.engineError, done⟩
           else if r.count = 0 then .error ⟨.decoderStalled, done⟩
           else if s.nRows - done < r.count then .error ⟨.engineError, done⟩ else .ok r.count, t) := by
  obtain ⟨h1, h2⟩ := State.issue_answer hr (.readScanlines (rowPtrs s.width done (s.nRows - done)) (s.nRows - done))
  have hp := s.issue_port (.readScanlines (rowPtrs s.width done (s.nRows - done)) (s.nRows - done))
  unfold State.eceReadScanlines
  dsimp only
  rw [h1]
  repeat' split
  all_goals first
    | exact ⟨_, h2, hp, rfl⟩
    | exact ⟨_, (State.deliverRows_ece _ done r.count).1.trans h2, (State.deliverRows_ece _ done r.count).2.trans hp, rfl⟩

/-- The read loop that stops after `k` rows, with the cause that its last answer gives. -/
theorem readRows_fails (rs : List Reply) {bad : Reply} {rest : List Reply} {fuel done k : Nat} {s : State} {c : Cause}
    (hr : s.ece.replies = rs ++ bad :: rest) (hc : RowCounts done k rs) (hk : k < s.nRows) (hf : s.nRows - done ≤ fuel)
    (hb : (c = .engineError ∧ (bad.error = true ∨ s.nRows - k < bad.count))
      ∨ (c = .decoderStalled ∧ bad.error = false ∧ bad.count = 0)) :
    ∃ t, readRows fuel done s = .bad ⟨c, k⟩ t ∧ t.ece.replies = rest
      ∧ t.ece.port = s.ece.port ++ readCalls s.width s.nRows done rs
          ++ [.readScanlines (rowPtrs s.width k (s.nRows - k)) (s.nRows - k)] := by
  have hdk := hc.le
  obtain ⟨fuel, rfl⟩ : ∃ n, fuel = n + 1 := ⟨fuel - 1, by omega⟩
  induction rs generalizing fuel done s with
  | nil =>
    obtain rfl : done = k := hc
    obtain ⟨t, h1, h2, h3⟩ := State.eceReadScanlines_answer (s := s) (done := done) hr
    refine ⟨t, ?_, h1, by simpa [readCalls] using h2⟩
    have herr : s.eceReadScanlines done = (.error ⟨c, done⟩, t) := by
      rw [h3]
      rcases hb with ⟨rfl, h | h⟩ | ⟨rfl, h, h'⟩
      · simp [h]
      · have h0 : ¬ bad.count = 0 := by omega
        simp [h, h0]
      · simp [h, h']
    unfold readRows
    simp only [if_pos hk, herr]
  | cons r rs ih =>
    obtain ⟨he, h0, hle, hc⟩ := hc
    obtain ⟨u, h1, h2, h3⟩ := State.eceReadScanlines_answer (s := s) (done := done) hr
    rw [if_neg (by simp [he]), if_neg (by omega), if_neg (by omega)] at h3
    have e := s.eceReadScanlines_eceAndXbuf done
    rw [h3] at e
    obtain ⟨fuel, rfl⟩ : ∃ n, fuel = n + 1 := ⟨fuel - 1, by omega⟩
    obtain ⟨t, ht, hr', hp'⟩ := ih h1 hc (by rw [e.nRows]; exact hk) (by rw [e.nRows]; exact hb) hle fuel (by rw [e.nRows]; omega)
    refine ⟨t, ?_, hr', ?_⟩
    · unfold readRows
      simp only [if_pos (show done < s.nRows by omega), h3]
      exact ht
    · rw [hp', e.nRows, e.width, h2]
      simp [readCalls]

/-- Every failing run of answers makes driving the engine through a DECODE the error it stands for, with the rows delivered (R261). -/
theorem driveDecompress_fails {s : State} {stream : List Byte} {answers rest : List Reply} {calls : List Transaction} {k : Nat}
    {code : Word} (hf : DecompressFails s.width s.nRows stream answers calls k code) (hr : s.ece.replies = answers ++ rest) :
    ∃ c t, driveDecompress stream s = .bad ⟨c, k⟩ t ∧ errorCode c = code ∧ t.ece.replies = rest
      ∧ t.ece.port = s.ece.port ++ calls := by
  have opened : ∀ {header : Reply} {more : List Reply}, s.ece.replies = header :: more → header.error = false →
      ∃ u, s.eceReadHeader stream = (false, u) ∧ EceOnly s u ∧ u.ece.replies = more
        ∧ u.ece.port = s.ece.port ++ [.readHeader stream] := by
    intro header more hr hh
    obtain ⟨h1, h2⟩ := State.issue_answer hr (.readHeader stream)
    exact ⟨(s.issue (.readHeader stream)).2.setPhase (.decompressing stream 0), by simp [State.eceReadHeader, h1, hh],
      (s.issue_eceOnly _).trans (State.setCtx_eceOnly _ _), h2, State.issue_port _ _⟩
  have begun : ∀ {header b : Reply} {more : List Reply}, s.ece.replies = header :: b :: more → header.error = false → b.error = false →
      ∃ u v, s.eceReadHeader stream = (false, u) ∧ u.eceBeginDecompress = (false, v) ∧ EceOnly s v ∧ v.ece.replies = more
        ∧ v.ece.port = s.ece.port ++ [.readHeader stream, .beginDecompress] := by
    intro header b more hr hh hb
    obtain ⟨u, h1, e, h2, h3⟩ := opened hr hh
    obtain ⟨h4, h5⟩ := State.issue_answer h2 .beginDecompress
    refine ⟨u, _, h1, ?_, e.trans (u.issue_eceOnly .beginDecompress), h5, by simp [h3]⟩
    simp [State.eceBeginDecompress, h4, hb]
  have loop : ∀ {header b last : Reply} {counts : List Reply} {k : Nat} {c : Cause},
      s.ece.replies = header :: b :: (counts ++ last :: rest) → header.error = false → b.error = false → RowCounts 0 k counts →
      k < s.nRows → ((c = .engineError ∧ (last.error = true ∨ s.nRows - k < last.count))
        ∨ (c = .decoderStalled ∧ last.error = false ∧ last.count = 0)) →
      ∃ t, driveDecompress stream s = .bad ⟨c, k⟩ t ∧ t.ece.replies = rest
        ∧ t.ece.port = s.ece.port ++ ([.readHeader stream, .beginDecompress] ++ readCalls s.width s.nRows 0 counts
            ++ [.readScanlines (rowPtrs s.width k (s.nRows - k)) (s.nRows - k)]) := by
    intro header b last counts k c hr hh hb hc hk h
    obtain ⟨u, v, h1, h2, e, h3, h4⟩ := begun hr hh hb
    obtain ⟨t, ht, h5, h6⟩ := readRows_fails counts (fuel := s.nRows) (c := c) h3 hc (by rw [e.nRows]; exact hk)
      (by rw [e.nRows]; omega) (by rw [e.nRows]; exact h)
    refine ⟨t, by simp [driveDecompress, h1, h2, ht], h5, ?_⟩
    rw [h6, h4, e.nRows, e.width]
    simp
  cases hf with
  | atHeader bad h =>
    obtain ⟨h1, h2⟩ := State.issue_answer hr (.readHeader stream)
    refine ⟨.engineError, _, ?_, rfl, h2, State.issue_port _ _⟩
    simp [driveDecompress, State.eceReadHeader, h1, h]
  | atBegin header bad hh h =>
    obtain ⟨u, h1, _, h2, h3⟩ := opened hr hh
    obtain ⟨h4, h5⟩ := State.issue_answer h2 .beginDecompress
    refine ⟨.engineError, _, ?_, rfl, h5, by rw [State.issue_port, h3]; simp⟩
    simp [driveDecompress, h1, State.eceBeginDecompress, h4, h]
  | atRows header b bad counts k hh hb hc hk h =>
    obtain ⟨t, h1, h2, h3⟩ := loop (by simpa using hr) hh hb hc hk (.inl ⟨rfl, h⟩)
    exact ⟨.engineError, t, h1, rfl, h2, h3⟩
  | stalled header b zero counts k hh hb hc hk h =>
    obtain ⟨t, h1, h2, h3⟩ := loop (by simpa using hr) hh hb hc hk (.inr ⟨rfl, h⟩)
    exact ⟨.decoderStalled, t, h1, rfl, h2, h3⟩
  | atFinish header b bad counts hh hb hc h =>
    obtain ⟨u, v, h1, h2, e, h3, h4⟩ := begun (more := counts ++ bad :: rest) (by simpa using hr) hh hb
    obtain ⟨t, ht, h5, h6⟩ := readRows_run (s := v) (fuel := s.nRows) counts h3 (by rw [e.nRows]; exact hc) (by rw [e.nRows]; omega)
    obtain ⟨h7, h8⟩ := State.issue_answer h5 .finishDecompress
    refine ⟨.engineError, _, ?_, rfl, h8, ?_⟩
    · simp [driveDecompress, h1, h2, ht, State.eceFinishDecompress, h7, h]
    · rw [State.issue_port, h6, h4, e.nRows, e.width]
      simp

/-! ## Recovery (R298) -/

/-- A transaction that answers with an error bit: what it answers, and that it is the only one issued. -/
structure Answers (s : State) (f : Bool × State) (t : Transaction) (r : Reply) (rest : List Reply) : Prop where
  failed : f.1 = r.error
  replies : f.2.ece.replies = rest
  port : f.2.ece.port = s.ece.port ++ [t]

theorem State.eceCreate_answers {s : State} {r : Reply} {rest : List Reply} (hr : s.ece.replies = r :: rest) (p : Nat) :
    Answers s (s.eceCreate p) (.createContext p) r rest := by
  obtain ⟨h1, h2⟩ := State.issue_answer hr (.createContext p)
  unfold State.eceCreate
  dsimp only
  rw [h1]
  cases he : r.error <;> exact ⟨he.symm, h2, State.issue_port _ _⟩

theorem State.eceSetQuant_answers {s : State} {r : Reply} {rest : List Reply} (hr : s.ece.replies = r :: rest) (q : List Half) :
    Answers s (s.eceSetQuant q) (.setQuantTable 0 q) r rest := by
  obtain ⟨h1, h2⟩ := State.issue_answer hr (.setQuantTable 0 q)
  unfold State.eceSetQuant
  dsimp only
  rw [h1]
  cases he : r.error <;> exact ⟨he.symm, h2, State.issue_port _ _⟩

theorem State.eceSetHuffman_answers {s : State} {r : Reply} {rest : List Reply} (hr : s.ece.replies = r :: rest) (kind : HuffKind)
    (t : HuffTable) : Answers s (s.eceSetHuffman kind t) (.setHuffmanTable kind 0 t) r rest := by
  obtain ⟨h1, h2⟩ := State.issue_answer hr (.setHuffmanTable kind 0 t)
  unfold State.eceSetHuffman
  dsimp only
  rw [h1]
  cases he : r.error <;> cases kind <;> exact ⟨he.symm, h2, State.issue_port _ _⟩

/-- What a recovery makes of its five answers when the shadows hold the tables `tabs`: the five transactions, or none at all when one of
the last four answers an engine error (U5). -/
theorem State.recover_run {s : State} {tabs : StagedTables} {rd rc rq rh ra : Reply} {rest : List Reply}
    (h : s.shadowTables = ⟨s.precision, some tabs.quant, some (dcTable tabs), some (acTable tabs)⟩)
    (hr : s.ece.replies = rd :: rc :: rq :: rh :: ra :: rest) :
    (rc.error = false → rq.error = false → rh.error = false → ra.error = false →
      ∃ t, s.recover = some t ∧ t.ece.replies = rest ∧ t.ece.port = s.ece.port ++ recoveryCalls s.precision tabs)
    ∧ (rc.error = true ∨ rq.error = true ∨ rh.error = true ∨ ra.error = true → s.recover = none) := by
  simp only [State.shadowTables, EceCfg.mk.injEq, Option.some.injEq, true_and] at h
  obtain ⟨hq, hdc, hac⟩ := h
  have hd : ((s.advance 608).eceDestroy).ece.replies = rc :: rq :: rh :: ra :: rest :=
    (State.issue_answer (s := s.advance 608) hr .destroyContext).2
  have hp : ((s.advance 608).eceDestroy).ece.port = s.ece.port ++ [.destroyContext] := State.issue_port _ _
  unfold State.recover
  simp only [hq, hdc, hac]
  generalize (s.advance 608).eceDestroy = d at *
  have a1 := State.eceCreate_answers hd s.precision
  generalize d.eceCreate s.precision = c at *
  have a2 := State.eceSetQuant_answers a1.replies tabs.quant
  generalize c.2.eceSetQuant tabs.quant = x at *
  have a3 := State.eceSetHuffman_answers a2.replies .dc (dcTable tabs)
  generalize x.2.eceSetHuffman .dc (dcTable tabs) = y at *
  have a4 := State.eceSetHuffman_answers a3.replies .ac (acTable tabs)
  generalize y.2.eceSetHuffman .ac (acTable tabs) = z at *
  rw [a1.failed, a2.failed, a3.failed, a4.failed]
  refine ⟨?_, ?_⟩
  · intro h1 h2 h3 h4
    refine ⟨z.2, by simp [h1, h2, h3, h4], a4.replies, ?_⟩
    rw [a4.port, a3.port, a2.port, a1.port, hp]
    simp [recoveryCalls]
  · rintro (h | h | h | h) <;> simp [h]

end Sys2Proof.Machine
end

