-- ==== Sys2Proof/Laws/Memory.lean ====
section
/-! SUPPORT. Every operation on the seventeen spaces keeps their canonical form, given that it stays within the lengths of R40; and the
spaces after reset have it. -/

namespace Sys2Proof.Machine

theorem Memory.wf_reset : Memory.reset.wf := by
  refine ⟨?_, ?_, ?_, ?_, ?_, ?_, ?_, ?_, ?_, ?_, ?_, ?_, ?_, ?_, ?_, ?_, ?_⟩ <;> exact Space.wf_unspecified _

/-- A host write of a u16 element (R31, R40). -/
theorem Memory.wf_writeHalf {m : Memory} (h : m.wf) {id i : Nat} {info : SpaceInfo} (hs : spaceInfo id = some info)
    (hi : i < info.len) (v : Half) : (m.writeHalf id i v).wf := by
  obtain ⟨m1, m2, m3, m4, m5, m6, m7, m8, m9⟩ := h
  unfold Memory.writeHalf
  unfold spaceInfo at hs
  split at hs <;> simp only [Option.some.injEq, reduceCtorEq] at hs <;> subst hs <;> simp only at hi
  · exact ⟨Space.wf_write m1 (by simp; omega), m2, m3, m4, m5, m6, m7, m8, m9⟩
  · exact ⟨m1, Space.wf_write m2 (by simp; omega), m3, m4, m5, m6, m7, m8, m9⟩
  · exact ⟨m1, m2, m3, m4, m5, m6, m7, m8, m9⟩
  · exact ⟨m1, m2, m3, Space.wf_write m4 (by simp; omega), m5, m6, m7, m8, m9⟩
  · exact ⟨m1, m2, m3, m4, m5, m6, m7, m8, m9⟩
  · exact ⟨m1, m2, m3, m4, m5, Space.wf_write m6 (by simp; omega), m7, m8, m9⟩
  · exact ⟨m1, m2, m3, m4, m5, m6, m7, m8, m9⟩
  · exact ⟨m1, m2, m3, m4, m5, m6, m7, Space.wf_write m8 (by simp; omega), m9⟩
  all_goals exact ⟨m1, m2, m3, m4, m5, m6, m7, m8, m9⟩

/-- A host write of a u8 element (R31, R40). -/
theorem Memory.wf_writeByte {m : Memory} (h : m.wf) {id i : Nat} {info : SpaceInfo} (hs : spaceInfo id = some info)
    (hi : i < info.len) (v : Byte) : (m.writeByte id i v).wf := by
  obtain ⟨m1, m2, m3, m4, m5, m6, m7, m8, m9, m10, m11⟩ := h
  unfold Memory.writeByte
  unfold spaceInfo at hs
  split at hs <;> simp only [Option.some.injEq, reduceCtorEq] at hs <;> subst hs <;> simp only at hi
  · exact ⟨m1, m2, m3, m4, m5, m6, m7, m8, m9, m10, m11⟩
  · exact ⟨m1, m2, m3, m4, m5, m6, m7, m8, m9, m10, m11⟩
  · exact ⟨m1, m2, Space.wf_write m3 (by simp; omega), m4, m5, m6, m7, m8, m9, m10, m11⟩
  · exact ⟨m1, m2, m3, m4, m5, m6, m7, m8, m9, m10, m11⟩
  · exact ⟨m1, m2, m3, m4, Space.wf_write m5 (by simp; omega), m6, m7, m8, m9, m10, m11⟩
  · exact ⟨m1, m2, m3, m4, m5, m6, m7, m8, m9, m10, m11⟩
  · exact ⟨m1, m2, m3, m4, m5, m6, m7, m8, m9, m10, m11⟩
  · exact ⟨m1, m2, m3, m4, m5, m6, m7, m8, m9, m10, m11⟩
  · exact ⟨m1, m2, m3, m4, m5, m6, m7, m8, Space.wf_write m9 (by simp; omega), m10, m11⟩
  · exact ⟨m1, m2, m3, m4, m5, m6, m7, m8, m9, Space.wf_write m10 (by simp; omega), m11⟩
  all_goals exact ⟨m1, m2, m3, m4, m5, m6, m7, m8, m9, m10, m11⟩

/-- ENCODE's voiding (R241, R316). -/
theorem State.wf_voidEncode {s : State} (h : s.mem.wf) : s.voidEncode.mem.wf := by
  obtain ⟨m1, m2, m3, m4, m5, m6, m7, m8, m9, m10, m11⟩ := h
  exact ⟨m1, m2, m3, m4, m5, m6, m7, Space.wf_voidBelow m8 _, Space.wf_unspecified _, Space.wf_unspecified _, m11⟩

/-- DECODE's voiding (R261, R316). -/
theorem State.wf_voidDecode {s : State} (h : s.mem.wf) : s.voidDecode.mem.wf := by
  obtain ⟨m1, m2, m3, m4, m5, m6, m7, m8, m9, m10, m11⟩ := h
  exact ⟨m1, m2, m3, m4, m5, m6, Space.wf_voidBelow m7 _, Space.wf_voidBelow m8 _, Space.wf_unspecified _, m10, m11⟩

/-- What a per-call error voids, in any command (R316). -/
theorem State.wf_voidOutputs {i : Instr} {s : State} (h : s.mem.wf) : (s.voidOutputs i).mem.wf := by
  obtain ⟨m1, m2, m3, m4, m5, m6, m7, m8, m9, m10, m11⟩ := id h
  cases i
  case stuff => exact ⟨m1, m2, m3, m4, m5, m6, m7, m8, Space.wf_unspecified _, m10, m11⟩
  case unstuff => exact ⟨m1, m2, m3, m4, m5, m6, m7, m8, m9, Space.wf_unspecified _, m11⟩
  case encode => exact State.wf_voidEncode h
  case decode => exact State.wf_voidDecode h
  all_goals exact h

/-- MAP's stores (R204), for a configuration within MAX_SAMPLES (R53, R77). -/
theorem State.wf_mapBlock {s : State} (h : s.mem.wf) (hl : s.blockRows.flatten.length ≤ Config.maxSamples) :
    s.mapBlock.mem.wf := by
  obtain ⟨m1, m2, m3, m4, m5, m6, m7, m8, m9⟩ := h
  exact ⟨m1, m2, m3, m4, m5, m6, m7, Space.wf_write m8 (by omega), m9⟩

/-- UNMAP's stores (R206), for a configuration within MAX_SAMPLES (R53, R77). -/
theorem State.wf_unmapRows {s : State} (h : s.mem.wf) (hl : s.rowSamples.length ≤ Config.maxSamples) :
    s.unmapRows.mem.wf := by
  obtain ⟨m1, m2, m3, m4, m5, m6, m7, m8⟩ := h
  exact ⟨m1, m2, m3, m4, m5, m6, Space.wf_write m7 (by omega), m8⟩

/-- Storing a byte sequence that fits EBUF (R224, R241, R261). -/
theorem Memory.wf_setEbuf {m : Memory} (h : m.wf) {b : List Byte} (hl : b.length ≤ Config.ebufCap) :
    ({ m with ebuf := .exactly b } : Memory).wf := by
  obtain ⟨m1, m2, m3, m4, m5, m6, m7, m8, m9, m10⟩ := h
  exact ⟨m1, m2, m3, m4, m5, m6, m7, m8, Space.wf_exactly hl, m10⟩

/-- Storing a byte sequence that fits PBUF (R225, R241). -/
theorem Memory.wf_setPbuf {m : Memory} (h : m.wf) {b : List Byte} (hl : b.length ≤ Config.pbufCap) :
    ({ m with pbuf := .exactly b } : Memory).wf := by
  obtain ⟨m1, m2, m3, m4, m5, m6, m7, m8, m9, m10, m11⟩ := h
  exact ⟨m1, m2, m3, m4, m5, m6, m7, m8, m9, Space.wf_exactly hl, m11⟩

/-- Storing a header and a footer (R143, R182). -/
theorem Memory.wf_setFraming {m : Memory} (h : m.wf) {a b : List Byte} (ha : a.length ≤ 25) (hb : b.length ≤ 2) :
    ({ m with hdr := .exactly a, ftr := .exactly b } : Memory).wf := by
  obtain ⟨m1, m2, m3, m4, m5, m6, m7, m8, m9, m10, _, _, m13⟩ := h
  exact ⟨m1, m2, m3, m4, m5, m6, m7, m8, m9, m10, Space.wf_exactly ha, Space.wf_exactly hb, m13⟩

/-- Storing shadow tables (R163). -/
theorem Memory.wf_setShadows {m : Memory} (h : m.wf) {q : List Half} {a b c d : List Byte} (hq : q.length ≤ 64)
    (ha : a.length ≤ 256) (hb : b.length ≤ 256) (hc : c.length ≤ 256) (hd : d.length ≤ 256) :
    ({ m with qtab := .exactly q, hufCntDC := .exactly a, hufValDC := .exactly b, hufCntAC := .exactly c
              hufValAC := .exactly d } : Memory).wf := by
  obtain ⟨m1, m2, m3, m4, m5, m6, m7, m8, m9, m10, m11, m12, _⟩ := h
  exact ⟨m1, m2, m3, m4, m5, m6, m7, m8, m9, m10, m11, m12, Space.wf_exactly hq, Space.wf_exactly ha, Space.wf_exactly hb,
    Space.wf_exactly hc, Space.wf_exactly hd⟩

end Sys2Proof.Machine
end

