-- ==== Sys2Proof/Laws/PerInstr.lean ====
section
/-! SUPPORT. What holds of the command word of every command, one lemma per constructor of `Instr`. -/

/-- The encoder sets no reserved bit and gives every command an assigned opcode (30_encoding.md rules R100 to R102). -/
def Sys2Proof.Laws.OpcodeAssigned.Statement (i : Sys2Proof.Instr) : Prop :=
  Sys2Proof.commandWordWellFormed (Sys2Proof.encode i) = true

theorem Sys2Proof.Laws.OpcodeAssigned.nop : Sys2Proof.Laws.OpcodeAssigned.Statement .nop := by
  unfold Sys2Proof.Laws.OpcodeAssigned.Statement
  decide
theorem Sys2Proof.Laws.OpcodeAssigned.init : Sys2Proof.Laws.OpcodeAssigned.Statement .init := by
  unfold Sys2Proof.Laws.OpcodeAssigned.Statement
  decide
theorem Sys2Proof.Laws.OpcodeAssigned.configure : Sys2Proof.Laws.OpcodeAssigned.Statement .configure := by
  unfold Sys2Proof.Laws.OpcodeAssigned.Statement
  decide
theorem Sys2Proof.Laws.OpcodeAssigned.synth : Sys2Proof.Laws.OpcodeAssigned.Statement .synth := by
  unfold Sys2Proof.Laws.OpcodeAssigned.Statement
  decide
theorem Sys2Proof.Laws.OpcodeAssigned.verify : Sys2Proof.Laws.OpcodeAssigned.Statement .verify := by
  unfold Sys2Proof.Laws.OpcodeAssigned.Statement
  decide
theorem Sys2Proof.Laws.OpcodeAssigned.map : Sys2Proof.Laws.OpcodeAssigned.Statement .map := by
  unfold Sys2Proof.Laws.OpcodeAssigned.Statement
  decide
theorem Sys2Proof.Laws.OpcodeAssigned.unmap : Sys2Proof.Laws.OpcodeAssigned.Statement .unmap := by
  unfold Sys2Proof.Laws.OpcodeAssigned.Statement
  decide
theorem Sys2Proof.Laws.OpcodeAssigned.stuff : Sys2Proof.Laws.OpcodeAssigned.Statement .stuff := by
  unfold Sys2Proof.Laws.OpcodeAssigned.Statement
  decide
theorem Sys2Proof.Laws.OpcodeAssigned.unstuff : Sys2Proof.Laws.OpcodeAssigned.Statement .unstuff := by
  unfold Sys2Proof.Laws.OpcodeAssigned.Statement
  decide
theorem Sys2Proof.Laws.OpcodeAssigned.encode : Sys2Proof.Laws.OpcodeAssigned.Statement .encode := by
  unfold Sys2Proof.Laws.OpcodeAssigned.Statement
  decide
theorem Sys2Proof.Laws.OpcodeAssigned.decode : Sys2Proof.Laws.OpcodeAssigned.Statement .decode := by
  unfold Sys2Proof.Laws.OpcodeAssigned.Statement
  decide
theorem Sys2Proof.Laws.OpcodeAssigned.clrerr : Sys2Proof.Laws.OpcodeAssigned.Statement .clrerr := by
  unfold Sys2Proof.Laws.OpcodeAssigned.Statement
  decide
theorem Sys2Proof.Laws.OpcodeAssigned.destroy : Sys2Proof.Laws.OpcodeAssigned.Statement .destroy := by
  unfold Sys2Proof.Laws.OpcodeAssigned.Statement
  decide
end

