-- ==== Sys2Proof/Tests/Slice0.lean ====
section
/-! SUPPORT. Tests: the checks of a command word, the decoding of every command's word, vectors of 95_test_vectors.md (each test names
its vector), and a witness for the hypotheses of every statement that has some. MAX_SAMPLES, EBUF_CAP and PBUF_CAP have no value here,
only the bounds of R9, so a test shows what holds for every platform: blocks of 512 samples, streams of 27 bytes, payloads of none. -/

namespace Sys2Proof.Tests

open Sys2Proof.Machine

/-- An outcome is a next state with a property. -/
def ends (o : Host.Outcome State Fault Refusal) (f : State → Bool) : Bool :=
  match o with
  | .next t => f t
  | .fault _ | .refused _ => false

theorem ends_next {o : Host.Outcome State Fault Refusal} {f : State → Bool} (h : ends o f = true) :
    ∃ t, o = .next t ∧ f t = true := by
  cases o with
  | next t => exact ⟨t, rfl, h⟩
  | fault r => cases h
  | refused r => cases h

/-! ## Well-formed command words (R100, R102) -/

/-- Bit 8 is reserved. -/
theorem test_reserved_bit_is_ill_formed : commandWordWellFormed 0x00000109#32 = false ∧ opcodeAssigned 0x00000109#32 = true := by
  decide

/-- 0x0B is not assigned. -/
theorem test_unassigned_opcode_is_ill_formed :
    commandWordWellFormed 0x0000000B#32 = false ∧ reservedBitsClear 0x0000000B#32 = true := by decide

theorem test_commands_are_well_formed : opcodeRows.all (fun r => r.2.wellFormed && commandWordWellFormed (encode r.2)) = true := by
  decide

/-! ## Decoding: the words of R101, bit by bit -/

theorem test_decode_nop : decode 0b00000000000000000000000000000000#32 = .ok .nop := by decide
theorem test_decode_init : decode 0b00000000000000000000000000000001#32 = .ok .init := by decide
theorem test_decode_configure : decode 0b00000000000000000000000000000010#32 = .ok .configure := by decide
theorem test_decode_synth : decode 0b00000000000000000000000000000011#32 = .ok .synth := by decide
theorem test_decode_verify : decode 0b00000000000000000000000000000100#32 = .ok .verify := by decide
theorem test_decode_map : decode 0b00000000000000000000000000000101#32 = .ok .map := by decide
theorem test_decode_unmap : decode 0b00000000000000000000000000000110#32 = .ok .unmap := by decide
theorem test_decode_stuff : decode 0b00000000000000000000000000000111#32 = .ok .stuff := by decide
theorem test_decode_unstuff : decode 0b00000000000000000000000000001000#32 = .ok .unstuff := by decide
theorem test_decode_encode : decode 0b00000000000000000000000000001001#32 = .ok .encode := by decide
theorem test_decode_decode : decode 0b00000000000000000000000000001010#32 = .ok .decode := by decide
theorem test_decode_clrerr : decode 0b00000000000000000000000000001110#32 = .ok .clrerr := by decide
theorem test_decode_destroy : decode 0b00000000000000000000000000001111#32 = .ok .destroy := by decide

/-- V24, V25: the two ways a word is illegal. -/
theorem test_decode_illegal :
    decode 0x00000109#32 = .error .reservedBits ∧ decode 0x0000000B#32 = .error .unassignedOpcode := by decide

/-- A number of more than 32 bits is no command word. -/
theorem test_decode_table_word : decodeTableWord 32 0x0F = some .destroy ∧ decodeTableWord 32 0x100000000 = none := by decide

/-! ## Functions of the framing layer -/

/-- V40. -/
theorem test_synth_minimal : synthHeader 8 8 8 8 =
    [0xFF#8, 0xD8#8, 0xFF#8, 0xC0#8, 0x00#8, 0x0B#8, 0x08#8, 0x00#8, 0x40#8, 0x00#8, 0x08#8, 0x01#8, 0x01#8, 0x11#8, 0x00#8, 0xFF#8,
     0xDA#8, 0x00#8, 0x08#8, 0x01#8, 0x01#8, 0x00#8, 0x00#8, 0x3F#8, 0x00#8] := by decide

/-- V43: 640 = 0x0280, 24 = 0x0018. -/
theorem test_synth_two_byte_fields : (synthHeader 24 16 40 12).take 11 =
    [0xFF#8, 0xD8#8, 0xFF#8, 0xC1#8, 0x00#8, 0x0B#8, 0x0C#8, 0x02#8, 0x80#8, 0x00#8, 0x18#8] := by decide

/-- V49b, V49d: the header is reported first; a stream of 26 bytes is a footer mismatch. -/
theorem test_verify_framing :
    verifyFraming ([0x00#8] ++ (synthHeader 16 8 8 8).drop 1 ++ [0x00#8, 0x00#8]) (synthHeader 16 8 8 8) synthFooter
        = .error ⟨.headerMismatch, 0⟩
    ∧ verifyFraming (synthHeader 16 8 8 8 ++ [0xFF#8]) (synthHeader 16 8 8 8) synthFooter = .error ⟨.footerMismatch, 26⟩ := by
  decide

/-- V49f, V49g. -/
theorem test_verify_footer :
    verifyFraming (synthHeader 16 8 8 8 ++ [0x01#8, 0xFF#8, 0xD8#8]) (synthHeader 16 8 8 8) synthFooter
        = .error ⟨.footerMismatch, 27⟩
    ∧ verifyFraming (synthHeader 16 8 8 8 ++ [0x01#8, 0xFE#8, 0xD9#8]) (synthHeader 16 8 8 8) synthFooter
        = .error ⟨.footerMismatch, 26⟩ := by decide

/-- V62, V64. -/
theorem test_stuff_bytes :
    stuff [0xFF#8, 0x00#8] = [0xFF#8, 0x00#8, 0x00#8]
    ∧ stuff [0x00#8, 0xFF#8, 0xFF#8, 0xD9#8] = [0x00#8, 0xFF#8, 0x00#8, 0xFF#8, 0x00#8, 0xD9#8] := by decide

/-- V69, V74, V75a. -/
theorem test_unstuff_bytes :
    unstuff [0xFF#8, 0x00#8, 0x00#8] = .ok [0xFF#8, 0x00#8]
    ∧ unstuff [0x00#8, 0xFF#8, 0x00#8, 0xFF#8, 0x01#8] = .error 3
    ∧ unstuff [0xFF#8, 0xFF#8, 0x00#8] = .error 0 := by decide

/-- S9: with h = 16, row 37 is (y, z) = (5, 2). -/
theorem test_coordinates : coordOf 16 37 = (5, 2) ∧ rowOf 16 5 2 = 37 ∧ blockAddr 8 8 3 2 1 = 83 := by decide

/-! ## States for tests -/

/-- One normal answer with a row count, and one engine error (R282). -/
def good (n : Nat) : Reply := ⟨false, n, none⟩
def bad : Reply := ⟨true, 0, none⟩

/-- Reset with staged shape and precision, pitches, and the ECE's coming answers. -/
def staged (w h d p rp pp : Nat) (replies : List Reply) : State :=
  { State.reset with
    csr := { Csrs.reset with
      shapeW := BitVec.ofNat 32 w, shapeH := BitVec.ofNat 32 h, shapeD := BitVec.ofNat 32 d, prec := BitVec.ofNat 32 p
      rowPitch := BitVec.ofNat 32 rp, planePitch := BitVec.ofNat 32 pp }
    ece := ⟨none, [], replies, [], []⟩ }

/-- A state after SETUP(8, 8, 8, p), with staged tables, some samples, and the ECE's coming answers. -/
def constructed (p : Nat) (q nDC nAC : Nat) (cd ca : List Half) (sd sa : List Byte) (blk : List Half) (replies : List Reply) : State :=
  { State.reset with
    lifecycle := .constructed
    csr := { Csrs.reset with
      cfgW := 8#32, cfgH := 8#32, cfgD := 8#32, cfgP := BitVec.ofNat 32 p
      qtN := BitVec.ofNat 32 q, hsNclsDC := BitVec.ofNat 32 nDC, hsNclsAC := BitVec.ofNat 32 nAC }
    mem := { Memory.reset with
      qtStage := .exactly (List.replicate 64 1#16)
      hsCntDC := .exactly cd, hsSymDC := .exactly sd, hsCntAC := .exactly ca, hsSymAC := .exactly sa
      blkIn := .exactly blk
      hdr := .exactly (synthHeader 8 8 8 p), ftr := .exactly synthFooter }
    ece := ⟨some ⟨⟨p, none, none, none⟩, .idle⟩, [], replies, [], []⟩ }

/-- SETUP(8, 8, 8, 8) with nothing staged. -/
def setup (blk : List Half) : State := constructed 8 0 0 0 [] [] [] [] blk []

/-- The tables of V30. -/
def ones : List Half := List.replicate 16 1#16
def firstSixteen : List Byte := (List.range 16).map (BitVec.ofNat 8)
def tables : StagedTables := ⟨ones, ones, List.replicate 64 1#16, firstSixteen ++ List.replicate 240 0#8, firstSixteen ++ List.replicate 240 0#8⟩

/-- SETUP+T(8, 8, 8, 8) with BLK_IN all 100 (the start of 2.7), the ECE's coming answers and a value of ECE_ENC. -/
def ready (replies : List Reply) (enc : List (EncKey × List Byte)) : State :=
  { State.reset with
    lifecycle := .ready
    csr := { Csrs.reset with cfgW := 8#32, cfgH := 8#32, cfgD := 8#32, cfgP := 8#32 }
    mem := { Memory.reset with
      blkIn := .exactly (List.replicate 512 100#16)
      hdr := .exactly (synthHeader 8 8 8 8), ftr := .exactly synthFooter
      qtab := .exactly tables.quant
      hufCntDC := .exactly (huffCounts tables.cntDC), hufValDC := .exactly (huffValues tables.cntDC tables.symDC)
      hufCntAC := .exactly (huffCounts tables.cntAC), hufValAC := .exactly (huffValues tables.cntAC tables.symAC) }
    ece := ⟨some ⟨⟨8, some tables.quant, some (dcTable tables), some (acTable tables)⟩, .idle⟩, [], replies, enc, []⟩ }

/-- A block of 512 samples fits every platform (R9). -/
theorem minimal_block_fits {n : Nat} (h : n ≤ 512) : n ≤ Config.maxSamples := Nat.le_trans h (Nat.le_add_left _ _)

/-- A stream of 27 bytes fits every platform (R9). -/
theorem bare_framing_fits {n : Nat} (h : n ≤ 27) : n ≤ Config.ebufCap := Nat.le_trans h (Nat.le_add_left _ _)

theorem legalShape_minimal (p : Nat) (h : p = 8 ∨ p = 12) : LegalShape 8 8 8 p :=
  ⟨h, by decide, by decide, by decide, by decide, by decide, by decide, by decide, by decide, minimal_block_fits (by decide)⟩

theorem reset_inv : State.reset.Inv :=
  ⟨Memory.wf_reset, by simp [State.LifecycleOk, State.reset, State.UnconfiguredOk, State.ShadowsUnspecified, Csrs.reset, Memory.reset]⟩

theorem staged_inv (w h d p rp pp : Nat) (replies : List Reply) : (staged w h d p rp pp replies).Inv :=
  ⟨Memory.wf_reset, by
    simp [State.LifecycleOk, staged, State.reset, State.UnconfiguredOk, State.ShadowsUnspecified, Csrs.reset, Memory.reset]⟩

theorem constructed_framed {p q nDC nAC : Nat} {cd ca : List Half} {sd sa : List Byte} {blk : List Half} {replies : List Reply}
    (hp : p = 8 ∨ p = 12) : (constructed p q nDC nAC cd ca sd sa blk replies).FramedOk := by
  have hpp : (BitVec.ofNat 32 p).toNat = p := by rcases hp with rfl | rfl <;> rfl
  refine ⟨?_, ?_, rfl⟩
  · simp only [State.width, State.height, State.depth, State.precision, constructed, hpp]
    exact legalShape_minimal p hp
  · simp only [State.width, State.height, State.depth, State.precision, constructed, hpp]
    rfl

theorem constructed_inv {p q nDC nAC : Nat} {cd ca : List Half} {sd sa : List Byte} {blk : List Half} {replies : List Reply}
    (hp : p = 8 ∨ p = 12) (h1 : cd.length ≤ 16) (h2 : ca.length ≤ 16) (h3 : sd.length ≤ 256) (h4 : sa.length ≤ 256)
    (h5 : blk.length ≤ 512) : (constructed p q nDC nAC cd ca sd sa blk replies).Inv := by
  have hpp : (BitVec.ofNat 32 p).toNat = p := by rcases hp with rfl | rfl <;> rfl
  refine ⟨?_, ?_⟩
  · refine ⟨Space.wf_exactly (by simp), Space.wf_exactly h1, Space.wf_exactly h3, Space.wf_exactly h2, Space.wf_exactly h4,
      Space.wf_exactly (minimal_block_fits h5), ?_, ?_, ?_, ?_, Space.wf_exactly (by simp [synthHeader]),
      Space.wf_exactly (by simp [synthFooter]), ?_, ?_, ?_, ?_, ?_⟩ <;> exact Space.wf_unspecified _
  · refine ⟨constructed_framed hp, ⟨rfl, rfl, rfl, rfl, rfl⟩, ?_⟩
    simp only [State.precision, constructed, hpp]

theorem ones_fit : ∀ c ∈ ones, c.toNat ≤ 255 := by
  intro c hc
  rw [List.eq_of_mem_replicate hc]
  decide

theorem tables_ok : TablesOk tables := by
  refine ⟨rfl, rfl, by simp [tables], ?_, ?_, ?_, ?_, ones_fit, ones_fit⟩ <;> decide +kernel

theorem ready_readyWith (replies : List Reply) (enc : List (EncKey × List Byte)) : (ready replies enc).ReadyWith tables :=
  ⟨⟨legalShape_minimal 8 (.inl rfl), rfl, rfl⟩, tables_ok, rfl, rfl, rfl, rfl, rfl, rfl⟩

theorem ready_wf (replies : List Reply) (enc : List (EncKey × List Byte)) : (ready replies enc).mem.wf := by
  have h1 : (huffCounts tables.cntDC).length = 256 := huffCounts_length rfl
  have h2 : (huffValues tables.cntDC tables.symDC).length = 256 :=
    huffValues_length tables_ok.2.2.2.2.2.1 tables_ok.2.2.2.1
  refine ⟨?_, ?_, ?_, ?_, ?_, Space.wf_exactly (minimal_block_fits List.length_replicate.le), ?_, ?_, ?_, ?_, Space.wf_exactly (by simp [synthHeader]),
    Space.wf_exactly (by simp [synthFooter]), Space.wf_exactly (by simp [tables]), Space.wf_exactly h1.le, Space.wf_exactly h2.le,
    Space.wf_exactly h1.le, Space.wf_exactly h2.le⟩ <;> exact Space.wf_unspecified _

theorem ready_inv (replies : List Reply) (enc : List (EncKey × List Byte)) : (ready replies enc).Inv :=
  ⟨ready_wf replies enc, ⟨tables, ready_readyWith replies enc⟩⟩

/-! ## One step of every command -/

/-- The state with the coming answers of the ECE, and the state with a length register or a buffer set. -/
def withReplies (rs : List Reply) (s : State) : State := { s with ece := { s.ece with replies := rs } }
def withEbuf (b : List Byte) (s : State) : State :=
  { s with csr := { s.csr with elen := BitVec.ofNat 32 b.length }, mem := { s.mem with ebuf := .exactly b } }
def withXbuf (c : List Half) (s : State) : State := { s with mem := { s.mem with xbuf := .exactly c } }

/-- V19: after V2, NOP keeps ERRCODE. -/
theorem test_nop_keeps_errcode :
    ends (exec .init (staged 7 8 8 8 7 56 [])) (fun t => ends (step (t.withFetchWord 32 0)) (fun u => u.csr.errcode == 0x13#32)) = true := by
  decide

/-- V1. -/
theorem test_init_minimal : ends (step ((staged 8 8 8 8 8 64 [good 0]).withFetchWord 32 1)) (fun t =>
    t.csr.errcode == 0x00#32 && t.status == 1#32 && t.csr.cfgW == 8#32 && t.csr.cfgP == 8#32 && t.mem.hdr.get? 8 == some 0x40#8) = true := by
  decide +kernel

/-- V3: zero reported before non-multiple. -/
theorem test_init_zero_first : ends (step ((staged 8 0 7 8 8 0 []).withFetchWord 32 1)) (fun t =>
    t.csr.errcode == 0x12#32 && t.csr.errinfo == 1#32 && t.status == 4#32 && t.csr.shapeD == 7#32) = true := by decide

/-- V30. -/
theorem test_configure_minimal : ends (exec .configure
    (constructed 8 64 16 16 ones ones firstSixteen firstSixteen [] [good 0, good 0, good 0])) (fun t =>
    t.csr.errcode == 0x00#32 && t.status == 2#32 && t.mem.hufCntDC.get? 15 == some 1#8 && t.mem.hufCntDC.get? 16 == some 0#8
    && t.mem.hufValAC.get? 15 == some 15#8 && t.mem.hufValAC.get? 255 == some 0#8 && t.mem.qtab.get? 63 == some 1#16) = true := by
  decide +kernel

/-- V36: a class of 256 symbols; the instance is torn down. -/
theorem test_configure_class_overflow : ends (exec .configure
    (constructed 8 64 16 16 (List.replicate 7 0#16 ++ [256#16] ++ List.replicate 8 0#16) ones [] firstSixteen [] [good 0])) (fun t =>
    t.csr.errcode == 0x1A#32 && t.csr.errinfo == 0#32 && t.status == 4#32 && t.csr.cfgW == 0#32 && t.mem.hdr.get? 0 == none
    && t.ece.port == [.destroyContext]) = true := by
  decide +kernel

/-- P6: SYNTH after SETUP leaves the bytes of V40. -/
theorem test_synth : ends (exec .synth (setup [])) (fun t =>
    t.mem.hdr.get? 9 == some 0x00#8 && t.mem.hdr.get? 10 == some 0x08#8 && t.mem.ftr.get? 1 == some 0xD9#8) = true := by decide

/-- V47 and V48, for SETUP(8, 8, 8, 8). -/
theorem test_verify :
    ends (exec .verify (withEbuf (synthHeader 8 8 8 8 ++ synthFooter) (setup []))) (fun t =>
      t.csr.errcode == 0x00#32 && t.csr.elen == 27#32) = true
    ∧ ends (exec .verify (setup [])) (fun t => t.csr.errcode == 0x21#32 && t.csr.errinfo == 0#32 && t.status == 5#32) = true := by
  decide +kernel

/-- V52. -/
theorem test_map_narrows : ends (exec .map (setup [0x1234#16, 0x00FF#16, 0x0100#16])) (fun t =>
    t.mem.xbuf.get? 0 == some 0x34#16 && t.mem.xbuf.get? 1 == some 0xFF#16 && t.mem.xbuf.get? 2 == some 0x00#16) = true := by
  decide +kernel

/-- V53 at BLK_OUT[83], V54. -/
theorem test_unmap_addresses : ends (exec .unmap (withXbuf ((List.range 512).map fun n => BitVec.ofNat 16 (n / 8)) (setup []))) (fun t =>
    t.mem.blkOut.get? 83 == some 10#16) = true
    ∧ ends (exec .unmap (withXbuf [0x1234#16] (setup []))) (fun t => t.mem.blkOut.get? 0 == some 0x0034#16) = true := by
  decide +kernel

/-- V29b. -/
theorem test_stuff_empty : ends (step (State.reset.withFetchWord 32 7)) (fun t => t.csr.errcode == 0x00#32 && t.csr.elen == 0#32) = true := by
  decide

/-- V75b: EBUF is kept, PLEN is 0. -/
theorem test_unstuff_marker : ends (exec .unstuff (withEbuf [0x12#8, 0xFF#8, 0xD0#8, 0x34#8] State.reset)) (fun t =>
    t.csr.errcode == 0x23#32 && t.csr.errinfo == 1#32 && t.csr.plen == 0#32 && t.csr.elen == 4#32
    && t.mem.ebuf.get? 3 == some 0x34#8) = true := by decide +kernel

/-- V84, without the byte before the footer: the engine coded another width. The context needs no recovery. -/
theorem test_encode_wrong_width : ends (exec .encode (ready
    [good 0, good 64, ⟨false, 0, some (synthHeader 16 8 8 8 ++ synthFooter)⟩, bad] [])) (fun t =>
    t.csr.errcode == 0x21#32 && t.csr.errinfo == 10#32 && t.status == 6#32 && t.csr.elen == 0#32
    && t.ece.replies == [bad] && t.mem.blkIn.get? 511 == some 100#16) = true := by decide +kernel

/-- V88: ten rows accepted, then none; a recovery of five transactions. -/
theorem test_encode_recovers : ends (exec .encode (ready
    [good 0, good 10, good 0, good 0, good 0, good 0, good 0, good 0, bad] [])) (fun t =>
    t.csr.errcode == 0x24#32 && t.csr.errinfo == 10#32 && t.status == 6#32 && t.ece.replies == [bad]
    && t.ece.port.length == 8) = true := by decide +kernel

/-- V90 with an empty payload: the rows in two batches, each row's samples its number. -/
theorem test_decode_rows : ends (exec .decode { ready [] [] with
    ece := { (ready [] []).ece with
      replies := [good 0, good 0, good 16, good 48, good 0]
      decTable := [(⟨⟨8, some tables.quant, some (dcTable tables), some (acTable tables)⟩, synthHeader 8 8 8 8 ++ synthFooter⟩,
        (List.range 512).map fun n => BitVec.ofNat 16 (n / 8))] } }) (fun t =>
    t.csr.errcode == 0x00#32 && t.csr.elen == 27#32 && t.mem.blkOut.get? 83 == some 10#16 && t.mem.blkOut.get? 511 == some 63#16
    && t.mem.ebuf.get? 26 == some 0xD9#8) = true := by decide +kernel

/-- V94. -/
theorem test_decode_stalls : ends (exec .decode (ready
    [good 0, good 0, good 0, good 0, good 0, good 0, good 0, good 0, bad] [])) (fun t =>
    t.csr.errcode == 0x30#32 && t.csr.errinfo == 0#32 && t.status == 6#32 && t.csr.elen == 0#32 && t.ece.replies == [bad]
    && t.mem.blkOut.get? 0 == none) = true := by decide +kernel

/-- V20: after V2, CLRERR. -/
theorem test_clrerr :
    ends (exec .init (staged 7 8 8 8 7 56 [])) (fun t => t.status == 4#32
      && ends (exec .clrerr t) (fun u => u.csr.errcode == 0#32 && u.status == 0#32)) = true := by decide

/-- V17, V18, V22. -/
theorem test_destroy :
    ends (exec .destroy State.reset) (fun t => t.csr.errcode == 0#32 && t.status == 0#32 && t.ece.port == []) = true
    ∧ ends (exec .destroy (withReplies [bad] (setup []))) (fun t =>
        t.csr.errcode == 0#32 && t.status == 0#32 && t.csr.cfgW == 0#32 && t.ece.port == [.destroyContext]) = true := by
  decide

/-- V102, V100, V25: a read-only CSR, a read-only space, an unassigned opcode. -/
theorem test_host_accesses :
    ends (step ((setup []).setPending [.writeCsr 15 16#32])) (fun t => t.csr.cfgW == 8#32) = true
    ∧ ends (step ((setup []).setPending [.writeByte 11 0 0#8])) (fun t => t.mem.hdr.get? 0 == some 0xFF#8) = true
    ∧ ends (step (State.reset.withFetchWord 32 0x0B)) (fun t => t.csr.errcode == 0x42#32 && t.csr.errinfo == 0x0B#32) = true := by
  decide

/-- U5: an engine error during recovery has no state after it (R298). -/
theorem test_recovery_failure : exec .encode (ready [bad, good 0, bad] []) = .fault .recoveryFailed := by rfl

/-! ## Witnesses: a state and operands for the hypotheses of every statement that has some

The clauses that need a capacity to be exceeded, or a payload that is not empty to fit PBUF, have no witness: no platform constant has a
value here (R9, log 3). -/

/-- Both clauses, at their boundaries. -/
theorem witness_IllegalWordsReportBadCmd :
    (∀ c : Word, (State.reset.withFetchWord 32 c.toNat).host.pending = .writeCsr 0 c :: [])
    ∧ ([0x0B#32, 0x0D#32, 0x10#32, 0xFF#32, 0x100#32, 0xFFFFFFFF#32].all fun c =>
      decide (c.toNat / 256 ≠ 0 ∨ c.toNat % 256 = 0x0B ∨ c.toNat % 256 = 0x0C ∨ c.toNat % 256 = 0x0D ∨ 0x10 ≤ c.toNat % 256)) = true
    ∧ ([0x00#32, 0x0A#32, 0x0E#32, 0x0F#32].all fun c => decide ¬
      (c.toNat / 256 ≠ 0 ∨ c.toNat % 256 = 0x0B ∨ c.toNat % 256 = 0x0C ∨ c.toNat % 256 = 0x0D ∨ 0x10 ≤ c.toNat % 256)) = true := by
  refine ⟨fun c => ?_, by decide, by decide⟩
  simp [State.withFetchWord, State.reset]

theorem witness_StepRunsDecodedCommand :
    (State.reset.withFetchWord 32 7).host.pending = .writeCsr 0 7#32 :: [] ∧ decode 7#32 = .ok .stuff := by decide

theorem witness_IdleHostLeavesStateUnchanged : State.reset.host.pending = [] := rfl

theorem witness_NopChangesNothing :
    (State.reset.withFetchWord 32 0x100).host.pending = .writeCsr 0 0x100#32 :: []
    ∧ (0x100#32 : Word).toNat % 256 = 0 ∧ (0x100#32 : Word) ≠ 0#32 := by decide

/-- Refused, and executed. -/
theorem witness_RefusalsFollowLegalityTable :
    refusedIn .encode State.reset.lifecycle = true
    ∧ refusedIn .stuff State.reset.lifecycle = false ∧ Instr.stuff ≠ .nop ∧ ∃ t, exec .stuff State.reset = .next t :=
  ⟨by decide, by decide, by decide, (ends_next (f := fun _ => true) (by decide)).imp fun _ h => h.1⟩

theorem witness_OnlyRecoveryCanStopACommand : ∃ s r, exec .encode s = .fault r :=
  ⟨ready [bad, good 0, bad] [], .recoveryFailed, test_recovery_failure⟩

/-- A command that sets the flag, one that keeps it, and CLRERR. -/
theorem witness_ErrFlagIsSticky :
    (∃ t, exec .encode State.reset = .next t) ∧ (∃ t, exec .stuff State.reset = .next t) ∧ ∃ t, exec .clrerr State.reset = .next t :=
  ⟨(ends_next (f := fun _ => true) (by decide)).imp fun _ h => h.1,
   (ends_next (f := fun _ => true) (by decide)).imp fun _ h => h.1,
   (ends_next (f := fun _ => true) (by decide)).imp fun _ h => h.1⟩

/-- A successful INIT, CONFIGURE and DESTROY, a command that stays in its state, and a ConfigurationError. -/
theorem witness_LifecycleTransitions :
    (∃ t, exec .init (staged 8 8 8 8 8 64 [good 0]) = .next t ∧ t.lifecycle = .constructed)
    ∧ (∃ t, exec .configure (constructed 8 64 16 16 ones ones firstSixteen firstSixteen [] [good 0, good 0, good 0]) = .next t
        ∧ t.lifecycle = .ready)
    ∧ (∃ t, exec .destroy (setup []) = .next t ∧ t.lifecycle = .unconfigured)
    ∧ (∃ t, exec .synth (setup []) = .next t ∧ t.lifecycle = .constructed)
    ∧ ∃ t, exec .configure (setup []) = .next t ∧ t.lifecycle = .unconfigured ∧ t.csr.errcode = 0x17#32 := by
  refine ⟨?_, ?_, ?_, ?_, ?_⟩
  · simpa using ends_next (f := fun t => t.lifecycle == .constructed) (o := exec .init (staged 8 8 8 8 8 64 [good 0]))
      (by decide +kernel)
  · simpa using ends_next (f := fun t => t.lifecycle == .ready)
      (o := exec .configure (constructed 8 64 16 16 ones ones firstSixteen firstSixteen [] [good 0, good 0, good 0]))
      (by decide +kernel)
  · simpa using ends_next (f := fun t => t.lifecycle == .unconfigured) (o := exec .destroy (setup [])) (by decide +kernel)
  · simpa using ends_next (f := fun t => t.lifecycle == .constructed) (o := exec .synth (setup [])) (by decide +kernel)
  · simpa using ends_next (f := fun t => t.lifecycle == .unconfigured && t.csr.errcode == 0x17#32) (o := exec .configure (setup []))
      (by decide +kernel)

/-- The same next states meet the clauses of this statement: a successful INIT, a DESTROY, a ConfigurationError, another command. -/
theorem witness_ConfigurationIsLatched :
    (∃ t, exec .init (staged 8 8 8 8 8 64 [good 0]) = .next t ∧ t.csr.errcode = 0#32)
    ∧ (∃ t, exec .destroy (setup []) = .next t)
    ∧ (∃ t, exec .configure (setup []) = .next t ∧ t.csr.errcode = 0x17#32)
    ∧ ∃ t, exec .synth (setup []) = .next t := by
  refine ⟨?_, ?_, ?_, ?_⟩
  · simpa using ends_next (f := fun t => t.csr.errcode == 0#32) (o := exec .init (staged 8 8 8 8 8 64 [good 0])) (by decide +kernel)
  · simpa using ends_next (f := fun _ => true) (o := exec .destroy (setup [])) (by decide +kernel)
  · simpa using ends_next (f := fun t => t.csr.errcode == 0x17#32) (o := exec .configure (setup [])) (by decide +kernel)
  · simpa using ends_next (f := fun _ => true) (o := exec .synth (setup [])) (by decide +kernel)

theorem witness_InitConstructs :
    (staged 8 8 8 12 8 64 [good 0]).lifecycle = .unconfigured
    ∧ LegalShape (staged 8 8 8 12 8 64 [good 0]).csr.shapeW.toNat (staged 8 8 8 12 8 64 [good 0]).csr.shapeH.toNat
        (staged 8 8 8 12 8 64 [good 0]).csr.shapeD.toNat (staged 8 8 8 12 8 64 [good 0]).csr.prec.toNat
    ∧ (staged 8 8 8 12 8 64 [good 0]).csr.rowPitch.toNat = (staged 8 8 8 12 8 64 [good 0]).csr.shapeW.toNat
    ∧ (staged 8 8 8 12 8 64 [good 0]).csr.planePitch.toNat
        = (staged 8 8 8 12 8 64 [good 0]).csr.shapeW.toNat * (staged 8 8 8 12 8 64 [good 0]).csr.shapeH.toNat
    ∧ (staged 8 8 8 12 8 64 [good 0]).ece.replies = good 0 :: [] ∧ (good 0).error = false :=
  ⟨rfl, legalShape_minimal 12 (.inr rfl), rfl, rfl, rfl, rfl⟩

/-- The common hypotheses, for all staged values; then one shape for every clause but the capacity's, at its boundary (V2 to V11). -/
theorem witness_InitReportsFirstFailedCheck :
    (∀ W H D P RP PP : Nat, W < 2 ^ 32 → H < 2 ^ 32 → D < 2 ^ 32 → P < 2 ^ 32 → RP < 2 ^ 32 → PP < 2 ^ 32 →
      (staged W H D P RP PP []).lifecycle = .unconfigured ∧ (staged W H D P RP PP []).Inv
      ∧ (staged W H D P RP PP []).csr.shapeW.toNat = W ∧ (staged W H D P RP PP []).csr.shapeH.toNat = H
      ∧ (staged W H D P RP PP []).csr.shapeD.toNat = D ∧ (staged W H D P RP PP []).csr.prec.toNat = P
      ∧ (staged W H D P RP PP []).csr.rowPitch.toNat = RP ∧ (staged W H D P RP PP []).csr.planePitch.toNat = PP)
    ∧ ¬ (10 = 8 ∨ 10 = 12)
    ∧ ((0 < 8 ∧ 0 < 8 ∧ 0 < 8) ∧ (7 % 8 ≠ 0) ∧ (8 % 8 = 0 ∧ 12 % 8 ≠ 0) ∧ 20 % 8 ≠ 0)
    ∧ (65535 < 65536 ∧ 65536 % 8 = 0) ∧ (8 ≤ 65535 ∧ 65535 < 256 * 256)
    ∧ (8 ≤ 65535 ∧ 8 * 8 ≤ 65535 ∧ 8 * 8 * 8 ≤ Config.maxSamples ∧ 16 ≠ 8 ∧ 128 ≠ 8 * 8) := by
  refine ⟨?_, by decide, by decide, by decide, by decide, by decide, by decide, minimal_block_fits (by decide), by decide, by decide⟩
  intro W H D P RP PP h1 h2 h3 h4 h5 h6
  refine ⟨rfl, staged_inv W H D P RP PP [], ?_, ?_, ?_, ?_, ?_, ?_⟩
  all_goals
    simp only [staged, BitVec.toNat_ofNat]
    exact Nat.mod_eq_of_lt (by assumption)

theorem witness_InitEngineErrorLeavesUnconfigured :
    (staged 8 8 8 12 8 64 [bad]).lifecycle = .unconfigured ∧ (staged 8 8 8 12 8 64 [bad]).Inv
    ∧ LegalShape (staged 8 8 8 12 8 64 [bad]).csr.shapeW.toNat (staged 8 8 8 12 8 64 [bad]).csr.shapeH.toNat
        (staged 8 8 8 12 8 64 [bad]).csr.shapeD.toNat (staged 8 8 8 12 8 64 [bad]).csr.prec.toNat
    ∧ (staged 8 8 8 12 8 64 [bad]).csr.rowPitch.toNat = (staged 8 8 8 12 8 64 [bad]).csr.shapeW.toNat
    ∧ (staged 8 8 8 12 8 64 [bad]).csr.planePitch.toNat
        = (staged 8 8 8 12 8 64 [bad]).csr.shapeW.toNat * (staged 8 8 8 12 8 64 [bad]).csr.shapeH.toNat
    ∧ (staged 8 8 8 12 8 64 [bad]).ece.replies = bad :: [] ∧ bad.error = true :=
  ⟨rfl, staged_inv _ _ _ _ _ _ _, legalShape_minimal 12 (.inr rfl), rfl, rfl, rfl, rfl⟩

theorem setup_inv (blk : List Half) (h : blk.length ≤ 512) : (setup blk).Inv :=
  constructed_inv (.inl rfl) (by decide) (by decide) (by decide) (by decide) h

theorem witness_DestroyEndsTheInstance :
    (setup []).lifecycle ≠ .unconfigured ∧ State.reset.lifecycle = .unconfigured ∧ State.reset.Inv :=
  ⟨by decide, rfl, reset_inv⟩

/-! ### CONFIGURE -/

/-- DC as V30, AC as V35: sixteen symbols in every class, 256 in all, every staged symbol specified. -/
def fullAc : State :=
  constructed 8 64 16 16 ones (List.replicate 16 16#16) firstSixteen (List.replicate 256 5#8) [] [good 0, good 0, good 0]

theorem witness_ConfigureInjectsTables :
    fullAc.lifecycle ≠ .unconfigured ∧ fullAc.csr.qtN = 64#32 ∧ fullAc.csr.hsNclsDC = 16#32 ∧ fullAc.csr.hsNclsAC = 16#32
    ∧ (∀ k, k < 64 → fullAc.mem.qtStage.get? k = some 1#16)
    ∧ (∀ k, k < 16 → fullAc.mem.hsCntDC.get? k = some 1#16 ∧ (1#16 : Half).toNat ≤ 255)
    ∧ (∀ k, k < 16 → fullAc.mem.hsCntAC.get? k = some 16#16 ∧ (16#16 : Half).toNat ≤ 255)
    ∧ 16 = ((List.range 16).map fun _ => (1#16 : Half).toNat).sum ∧ 256 = ((List.range 16).map fun _ => (16#16 : Half).toNat).sum
    ∧ 16 ≤ 256 ∧ 256 ≤ 256
    ∧ (∀ j, j < 16 → fullAc.mem.hsSymDC.get? j = some (BitVec.ofNat 8 j)) ∧ (∀ j, j < 256 → fullAc.mem.hsSymAC.get? j = some 5#8)
    ∧ fullAc.ece.replies = good 0 :: good 0 :: good 0 :: [] ∧ (good 0).error = false := by
  refine ⟨by decide, rfl, rfl, rfl, ?_, ?_, ?_, by decide, by decide, by decide, by decide, ?_, ?_, rfl, rfl⟩
  · intro k hk
    simp only [fullAc, constructed, Space.get?_exactly]
    rw [List.getElem?_replicate, if_pos hk]
  · intro k hk
    simp only [fullAc, constructed, Space.get?_exactly, ones]
    rw [List.getElem?_replicate, if_pos hk]
    exact ⟨rfl, by decide⟩
  · intro k hk
    simp only [fullAc, constructed, Space.get?_exactly]
    rw [List.getElem?_replicate, if_pos hk]
    exact ⟨rfl, by decide⟩
  · intro j hj
    simp only [fullAc, constructed, Space.get?_exactly, firstSixteen]
    rw [List.getElem?_map, List.getElem?_range hj]
    rfl
  · intro j hj
    simp only [fullAc, constructed, Space.get?_exactly]
    rw [List.getElem?_replicate, if_pos hj]

/-- What CONFIGURE reads of the counts, for any staged sizes and counts. -/
theorem counts_staged (q nDC nAC : Nat) (cd ca : List Half) (rs : List Reply) (h1 : cd.length = 16) (h2 : ca.length = 16) :
    (constructed 8 q nDC nAC cd ca [] [] [] rs).lifecycle ≠ .unconfigured
    ∧ (∀ k, k < 16 → (constructed 8 q nDC nAC cd ca [] [] [] rs).mem.hsCntDC.get? k = some (cd.getD k 0#16))
    ∧ (∀ k, k < 16 → (constructed 8 q nDC nAC cd ca [] [] [] rs).mem.hsCntAC.get? k = some (ca.getD k 0#16)) := by
  refine ⟨by simp [constructed], ?_, ?_⟩
  · intro k hk
    have : k < cd.length := by omega
    simp [constructed, this]
  · intro k hk
    have : k < ca.length := by omega
    simp [constructed, this]

/-- The common hypotheses for any counts, then counts for every clause at its boundary (V31 to V36). -/
theorem witness_ConfigureReportsFirstFailedCheck :
    (∀ (q nDC nAC : Nat) (cd ca : List Half), cd.length = 16 → ca.length = 16 →
      (constructed 8 q nDC nAC cd ca [] [] [] []).lifecycle ≠ .unconfigured
      ∧ (∀ k, k < 16 → (constructed 8 q nDC nAC cd ca [] [] [] []).mem.hsCntDC.get? k = some (cd.getD k 0#16))
      ∧ (∀ k, k < 16 → (constructed 8 q nDC nAC cd ca [] [] [] []).mem.hsCntAC.get? k = some (ca.getD k 0#16)))
    ∧ (constructed 8 63 16 16 ones ones [] [] [] []).csr.qtN ≠ 64#32
    ∧ (constructed 8 64 15 16 ones ones [] [] [] []).csr.hsNclsDC ≠ 16#32
    ∧ (constructed 8 64 16 17 ones ones [] [] [] []).csr.hsNclsAC ≠ 16#32
    ∧ 256 < ((List.range 16).map fun k => ((List.replicate 15 1#16 ++ [242#16]).getD k 0#16).toNat).sum
    ∧ ((List.range 16).map fun k => ((256#16 :: List.replicate 15 0#16).getD k 0#16).toNat).sum ≤ 256
    ∧ (∃ k, k < 16 ∧ 255 < ((256#16 :: List.replicate 15 0#16).getD k 0#16).toNat)
    ∧ (∀ k, k < 16 → (ones.getD k 0#16).toNat ≤ 255) := by
  refine ⟨fun q nDC nAC cd ca h1 h2 => counts_staged q nDC nAC cd ca [] h1 h2, by decide, by decide, by decide, by decide, by decide,
    ⟨0, by decide, by decide⟩, by decide⟩

/-- The three places of the engine error; a specified quantization table, and specified symbols. -/
theorem witness_ConfigureEngineErrorTearsDown (r1 r2 r3 : Reply) :
    (constructed 8 64 16 16 ones ones [] [] [] [r1, r2, r3]).lifecycle ≠ .unconfigured
    ∧ (constructed 8 64 16 16 ones ones [] [] [] [r1, r2, r3]).csr.qtN = 64#32
    ∧ (constructed 8 64 16 16 ones ones [] [] [] [r1, r2, r3]).csr.hsNclsDC = 16#32
    ∧ (constructed 8 64 16 16 ones ones [] [] [] [r1, r2, r3]).csr.hsNclsAC = 16#32
    ∧ (∀ k, k < 16 → (constructed 8 64 16 16 ones ones [] [] [] [r1, r2, r3]).mem.hsCntDC.get? k = some 1#16
        ∧ (1#16 : Half).toNat ≤ 255)
    ∧ (∀ k, k < 16 → (constructed 8 64 16 16 ones ones [] [] [] [r1, r2, r3]).mem.hsCntAC.get? k = some 1#16
        ∧ (1#16 : Half).toNat ≤ 255)
    ∧ 16 = ((List.range 16).map fun _ => (1#16 : Half).toNat).sum ∧ 16 ≤ 256
    ∧ (constructed 8 64 16 16 ones ones [] [] [] [r1, r2, r3]).ece.replies = r1 :: r2 :: r3 :: []
    ∧ bad.error = true ∧ (good 0).error = false
    ∧ (∀ k, k < 64 → (constructed 8 64 16 16 ones ones [] [] [] [r1, r2, r3]).mem.qtStage.get? k = some 1#16)
    ∧ (∀ j, j < 16 → fullAc.mem.hsSymDC.get? j = some (BitVec.ofNat 8 j)) := by
  refine ⟨by simp [constructed], rfl, rfl, rfl, ?_, ?_, by decide, by decide, rfl, rfl, rfl, ?_, witness_ConfigureInjectsTables.2.2.2.2.2.2.2.2.2.2.2.1⟩
  · intro k hk
    simp only [constructed, Space.get?_exactly, ones]
    rw [List.getElem?_replicate, if_pos hk]
    exact ⟨rfl, by decide⟩
  · intro k hk
    simp only [constructed, Space.get?_exactly, ones]
    rw [List.getElem?_replicate, if_pos hk]
    exact ⟨rfl, by decide⟩
  · intro k hk
    simp only [constructed, Space.get?_exactly]
    rw [List.getElem?_replicate, if_pos hk]

/-! ### SYNTH and VERIFY -/

/-- V44 and the widest width. -/
theorem witness_HeaderBytesAreThoseOfTheTable : 8184 * 8 ≤ 65535 ∧ 65535 ≤ 65535 := by decide

/-- V45: equal products; index 6 lies outside the field. -/
theorem witness_HeaderSensitivity :
    8 * 16 = 16 * 8 ∧ ¬ (7 ≤ 6 ∧ 6 ≤ 10) ∧ 6 < 25 ∧ synthHeader 8 8 16 8 = synthHeader 8 16 8 8 := by decide

theorem witness_SynthWritesHeaderAndFooter : (setup []).lifecycle ≠ .unconfigured := by decide

theorem witness_SynthNeverChangesAValue : (setup []).Inv ∧ (setup []).lifecycle ≠ .unconfigured :=
  ⟨setup_inv [] (by decide), by decide⟩

theorem witness_VerifyFramingAcceptsExactlyWellFramed : (synthHeader 16 8 8 8).length = 25 ∧ synthFooter.length = 2 := by decide

/-- V49c, V49e, V49f, V47: the three footer clauses and the accepting one. -/
theorem witness_VerifyFramingNamesFirstMismatch :
    (synthHeader 16 8 8 8).length = 25 ∧ synthFooter.length = 2
    ∧ (∀ j, j < 25 → (synthHeader 16 8 8 8)[j]? = (synthHeader 16 8 8 8)[j]?) ∧ (synthHeader 16 8 8 8).length < 27
    ∧ (∀ b : List Byte, ∀ j, j < 25 → (synthHeader 16 8 8 8 ++ b)[j]? = (synthHeader 16 8 8 8)[j]?)
    ∧ (27 ≤ (synthHeader 16 8 8 8 ++ [0xFF#8, 0xD9#8, 0x00#8]).length
        ∧ (synthHeader 16 8 8 8 ++ [0xFF#8, 0xD9#8, 0x00#8])[26]? ≠ synthFooter[0]?)
    ∧ (27 ≤ (synthHeader 16 8 8 8 ++ [0x01#8, 0xFF#8, 0xD8#8]).length
        ∧ (synthHeader 16 8 8 8 ++ [0x01#8, 0xFF#8, 0xD8#8])[26]? = synthFooter[0]?
        ∧ (synthHeader 16 8 8 8 ++ [0x01#8, 0xFF#8, 0xD8#8])[27]? ≠ synthFooter[1]?)
    ∧ (27 ≤ (synthHeader 16 8 8 8 ++ [0xFF#8, 0xD9#8]).length
        ∧ (synthHeader 16 8 8 8 ++ [0xFF#8, 0xD9#8])[25]? = synthFooter[0]?
        ∧ (synthHeader 16 8 8 8 ++ [0xFF#8, 0xD9#8])[26]? = synthFooter[1]?) := by
  refine ⟨by decide, by decide, fun _ _ => rfl, by decide, ?_, by decide, by decide, by decide⟩
  intro b j hj
  exact List.getElem?_append_left (show j < (synthHeader 16 8 8 8).length from hj)

/-- V47 and V48: a well-framed stream of 27 bytes, and the empty stream, with its error. -/
theorem witness_VerifyChecksTheStream :
    (∀ b : List Byte, b.length ≤ 27 →
      (withEbuf b (setup [])).lifecycle ≠ .unconfigured ∧ (withEbuf b (setup [])).FramedOk
      ∧ (withEbuf b (setup [])).csr.elen.toNat = b.length ∧ b.length ≤ Config.ebufCap
      ∧ ∀ k, k < b.length → (withEbuf b (setup [])).mem.ebuf.get? k = b[k]?)
    ∧ (∃ e, synthHeader 8 8 8 8 ++ synthFooter = synthHeader 8 8 8 8 ++ e ++ synthFooter)
    ∧ verifyFraming [] (synthHeader 8 8 8 8) synthFooter = .error ⟨.headerMismatch, 0⟩ := by
  refine ⟨?_, ⟨[], rfl⟩, by decide⟩
  intro b hb
  refine ⟨(show Lifecycle.constructed ≠ .unconfigured by decide), ⟨legalShape_minimal 8 (.inl rfl), rfl, rfl⟩, ?_, bare_framing_fits hb, ?_⟩
  · simp only [withEbuf, BitVec.toNat_ofNat]
    omega
  · intro k _
    simp [withEbuf]

/-! ### MAP, UNMAP, STUFF, UNSTUFF -/

theorem witness_ScanlineCoordinatesCorrespond : 5 < 16 ∧ 2 < 8 ∧ 37 < 16 * 8 := by decide

theorem witness_NarrowAndWidenAreInverse :
    ((8 = 8 ∨ 8 = 12) ∧ (255#16 : Half).toNat < 2 ^ 8 ∧ (255#16 : Half).toNat < 2 ^ esw 8)
    ∧ ((12 = 8 ∨ 12 = 12) ∧ (4095#16 : Half).toNat < 2 ^ 12 ∧ (65535#16 : Half).toNat < 2 ^ esw 12) := by decide

/-- The first and the last sample, the last with its element specified. -/
theorem witness_MapStoresNarrowedSamples :
    (setup (List.replicate 512 7#16)).lifecycle ≠ .unconfigured
    ∧ (0 < (setup (List.replicate 512 7#16)).width ∧ 7 < (setup (List.replicate 512 7#16)).width
        ∧ 7 < (setup (List.replicate 512 7#16)).height ∧ 7 < (setup (List.replicate 512 7#16)).depth)
    ∧ (setup (List.replicate 512 7#16)).mem.blkIn.get? 511 = some 7#16 := by
  refine ⟨(show Lifecycle.constructed ≠ .unconfigured by decide), by decide, ?_⟩
  simp only [setup, constructed, Space.get?_exactly]
  rw [List.getElem?_replicate, if_pos (by decide)]

theorem witness_UnmapStoresWidenedCells :
    (withXbuf [0x1234#16] (setup [])).lifecycle ≠ .unconfigured
    ∧ (0 < (withXbuf [0x1234#16] (setup [])).width ∧ 0 < (withXbuf [0x1234#16] (setup [])).height
        ∧ 0 < (withXbuf [0x1234#16] (setup [])).depth)
    ∧ (withXbuf [0x1234#16] (setup [])).mem.xbuf.get? 0 = some 0x1234#16 := by decide

theorem witness_MapThenUnmapCopiesTheBlock :
    (setup [0x1234#16]).lifecycle ≠ .unconfigured ∧ (setup [0x1234#16]).mem.blkIn.get? 0 = some 0x1234#16
    ∧ 0 < (setup [0x1234#16]).width * (setup [0x1234#16]).height * (setup [0x1234#16]).depth := by decide

/-- V68, V63. -/
theorem witness_StuffingLaws :
    unstuff [0xFF#8, 0x00#8] = .ok [0xFF#8] ∧ unstuff [0x12#8] = .ok [0x12#8] ∧ stuff [0xFF#8] = stuff [0xFF#8]
    ∧ 0xFF#8 ∈ [0x12#8, 0xFF#8] := by decide

theorem witness_StuffingLengths : unstuff [0x12#8, 0xFF#8, 0x00#8] = .ok [0x12#8, 0xFF#8] := by decide

theorem witness_StuffWritesTheStuffedPayload :
    State.reset.csr.plen.toNat = ([] : List Byte).length ∧ ([] : List Byte).length ≤ Config.pbufCap
    ∧ (∀ k, k < ([] : List Byte).length → State.reset.mem.pbuf.get? k = ([] : List Byte)[k]?)
    ∧ (stuff []).length ≤ Config.ebufCap ∧ (stuff []).length < 2 ^ 32 :=
  ⟨rfl, Nat.zero_le _, fun k h => by simp at h, Nat.zero_le _, by decide⟩

/-- V67, V68, V71: the empty sequence, one that unstuffs, one that does not. -/
theorem witness_UnstuffWritesThePayload :
    (∀ y : List Byte, y.length ≤ 27 →
      (withEbuf y State.reset).csr.elen.toNat = y.length ∧ y.length ≤ Config.ebufCap
      ∧ ∀ k, k < y.length → (withEbuf y State.reset).mem.ebuf.get? k = y[k]?)
    ∧ unstuff [] = .ok [] ∧ unstuff [0xFF#8, 0x00#8] = .ok [0xFF#8] ∧ unstuff [0xFF#8] = .error 0
    ∧ ([] : List Byte).length ≤ Config.pbufCap := by
  refine ⟨?_, by decide, by decide, by decide, Nat.zero_le _⟩
  intro y hy
  refine ⟨?_, bare_framing_fits hy, ?_⟩
  · simp only [withEbuf, BitVec.toNat_ofNat]
    omega
  · intro k _
    simp [withEbuf]

theorem witness_LengthOperandsAreChecked :
    (setup []).lifecycle ≠ .unconfigured ∧ (ready [] []).lifecycle = .ready
    ∧ ∃ t, exec .decode (ready [bad, good 0, good 0, good 0, good 0, good 0] []) = .next t := by
  refine ⟨by decide, rfl, ?_⟩
  simpa using ends_next (f := fun _ => true) (o := exec .decode (ready [bad, good 0, good 0, good 0, good 0, good 0] []))
    (by decide +kernel)

/-! ### ENCODE -/

/-- The bare framing of V81: header and footer, no entropy bytes. -/
def bare : List Byte := synthHeader 8 8 8 8 ++ synthFooter

/-- SETUP+T with an ECE that codes the block in BLK_IN as the bare framing. -/
def codes (replies : List Reply) : State := ready replies [((ready [] []).encodeKey, bare)]

/-- ECE_ENC's value for the block in BLK_IN is what the table says. -/
theorem ready_eceEnc (replies : List Reply) (b : List Byte) :
    (ready replies [((ready [] []).encodeKey, b)]).eceEnc (ready replies [((ready [] []).encodeKey, b)]).encodeKey = b := by
  have hl : ∀ k : EncKey, ([(k, b)] : List (EncKey × List Byte)).lookup k = some b := fun k => by simp
  rw [show (ready replies [((ready [] []).encodeKey, b)]).encodeKey = (ready [] []).encodeKey from rfl]
  unfold State.eceEnc
  rw [show (ready replies [((ready [] []).encodeKey, b)]).ece.encTable = [((ready [] []).encodeKey, b)] from rfl, hl]
  rfl

theorem codes_eceEnc (replies : List Reply) : (codes replies).eceEnc (codes replies).encodeKey = bare := ready_eceEnc replies bare

theorem rowCounts_whole (n : Nat) (h : 0 < n) : RowCounts 0 n [good n] := ⟨rfl, h, by simp [good], by simp [RowCounts, good]⟩

theorem rowCounts_two : RowCounts 0 64 [good 40, good 24] := by
  simp [RowCounts, good]

theorem witness_EncodeProducesThePayload :
    (codes [good 0, good 64, good 0]).lifecycle = .ready ∧ (codes [good 0, good 64, good 0]).Inv
    ∧ (codes [good 0, good 64, good 0]).ece.replies = good 0 :: ([good 64] ++ good 0 :: [])
    ∧ RowCounts 0 (codes [good 0, good 64, good 0]).nRows [good 64]
    ∧ (good 0).error = false ∧ (good 0).output = none
    ∧ (codes [good 0, good 64, good 0]).eceEnc (codes [good 0, good 64, good 0]).encodeKey
        = (codes [good 0, good 64, good 0]).framedStream []
    ∧ ((codes [good 0, good 64, good 0]).framedStream []).length ≤ Config.ebufCap
    ∧ ((codes [good 0, good 64, good 0]).framedStream []).length < 2 ^ 32 :=
  ⟨rfl, ready_inv _ _, rfl, rowCounts_whole 64 (by decide), rfl, rfl, codes_eceEnc _, bare_framing_fits (by decide), by decide⟩

/-- The common hypotheses for any output, and for ECE_ENC's own; then an output for every clause but OVERFLOW's: another width in the
header (V84), a right header without a footer, two wrong footers (V85), a marker in the entropy region (V82). -/
theorem witness_EncodeRejectsBadStreams :
    (∀ b : Option (List Byte),
      (ready [good 0, good 64, ⟨false, 0, b⟩] []).lifecycle = .ready ∧ (ready [good 0, good 64, ⟨false, 0, b⟩] []).Inv
      ∧ (ready [good 0, good 64, ⟨false, 0, b⟩] []).ece.replies = good 0 :: ([good 64] ++ ⟨false, 0, b⟩ :: [])
      ∧ RowCounts 0 (ready [good 0, good 64, ⟨false, 0, b⟩] []).nRows [good 64]
      ∧ (good 0).error = false ∧ (⟨false, 0, b⟩ : Reply).error = false ∧ (⟨false, 0, b⟩ : Reply).output = b)
    ∧ (∀ b, (ready [good 0, good 64, good 0] [((ready [] []).encodeKey, b)]).eceEnc
        (ready [good 0, good 64, good 0] [((ready [] []).encodeKey, b)]).encodeKey = b)
    ∧ RejectedWith (synthHeader 8 8 8 8) synthFooter (synthHeader 16 8 8 8) 0x21#32 10
    ∧ RejectedWith (synthHeader 8 8 8 8) synthFooter (synthHeader 8 8 8 8 ++ [0xFF#8]) 0x22#32 26
    ∧ RejectedWith (synthHeader 8 8 8 8) synthFooter (synthHeader 8 8 8 8 ++ [0xFE#8, 0xD9#8]) 0x22#32 25
    ∧ RejectedWith (synthHeader 8 8 8 8) synthFooter (synthHeader 8 8 8 8 ++ [0xFF#8, 0xD8#8]) 0x22#32 26
    ∧ (synthHeader 8 8 8 8 ++ [0x12#8, 0xFF#8, 0xD0#8, 0x34#8] ++ synthFooter).length < 2 ^ 32
    ∧ (31 ≤ Config.ebufCap → RejectedWith (synthHeader 8 8 8 8) synthFooter
        (synthHeader 8 8 8 8 ++ [0x12#8, 0xFF#8, 0xD0#8, 0x34#8] ++ synthFooter) 0x23#32 1) := by
  refine ⟨fun b => ⟨rfl, ready_inv _ _, rfl, rowCounts_whole 64 (by decide), rfl, rfl, rfl⟩, fun b => ready_eceEnc _ b,
    .inr ⟨bare_framing_fits (by decide), .inl (by decide)⟩, .inr ⟨bare_framing_fits (by decide), .inr (.inl (by decide))⟩,
    .inr ⟨bare_framing_fits (by decide), .inr (.inl (by decide))⟩, .inr ⟨bare_framing_fits (by decide), .inr (.inl (by decide))⟩,
    by decide, fun h => .inr ⟨h, .inr (.inr ⟨[0x12#8, 0xFF#8, 0xD0#8, 0x34#8], rfl, ?_, rfl, by decide, rfl⟩)⟩⟩
  intro k hk
  match k with
  | 0 => simp at hk
  | k + 1 => simp at hk

/-- The hypotheses of the statements on failing runs but the run itself: the coming answers and the five of the recovery. -/
def FailingRunStarts (s : State) (answers : List Reply) (rd rc rq rh ra : Reply) : Prop :=
  s.lifecycle = .ready ∧ s.mem.wf ∧ s.ReadyWith tables ∧ s.width = 8 ∧ s.nRows = 64
  ∧ s.ece.replies = answers ++ rd :: rc :: rq :: rh :: ra :: []

theorem ready_fails (answers : List Reply) (rd rc rq rh ra : Reply) :
    FailingRunStarts (ready (answers ++ [rd, rc, rq, rh, ra]) []) answers rd rc rq rh ra :=
  ⟨rfl, ready_wf _ _, ready_readyWith _ _, rfl, rfl, rfl⟩

/-- V89; V88, with the three ways an answer is bad after ten rows, and V89a at the first; an engine error of `finish_compress`. -/
theorem witness_EncodeEngineErrorRecovers :
    (∃ calls, CompressFails 8 64 [bad] calls 0)
    ∧ (∀ b, b ∈ [bad, good 0, good 55] → ∃ calls, CompressFails 8 64 [good 0, good 10, b] calls 10)
    ∧ (∃ calls, CompressFails 8 64 [good 0, good 65] calls 0)
    ∧ (∃ calls, CompressFails 8 64 [good 0, good 64, bad] calls 64)
    ∧ (∀ answers rd rc rq rh ra, ∃ s, FailingRunStarts s answers rd rc rq rh ra)
    ∧ bad.error = true ∧ (good 0).error = false := by
  refine ⟨⟨_, .atBegin bad rfl⟩, ?_, ⟨_, .atRows (good 0) (good 65) [] 0 rfl rfl (by decide) (.inr (.inr (by decide)))⟩,
    ⟨_, .atFinish (good 0) bad [good 64] rfl (rowCounts_whole 64 (by decide)) rfl⟩, fun _ _ _ _ _ _ => ⟨_, ready_fails _ _ _ _ _ _⟩,
    rfl, rfl⟩
  intro b hb
  refine ⟨_, .atRows (good 0) b [good 10] 10 rfl (rowCounts_whole 10 (by decide)) (by decide) ?_⟩
  simp only [List.mem_cons, List.not_mem_nil, or_false] at hb
  rcases hb with rfl | rfl | rfl <;> decide

theorem witness_EncodeKeepsEverythingElse :
    ∃ s t, exec .encode s = .next t ∧ s.lifecycle = .ready ∧ t.csr.errcode ≠ 0#32 := by
  obtain ⟨t, h, ht⟩ := ends_next (o := exec .encode (ready [good 0, good 64, ⟨false, 0, some (synthHeader 16 8 8 8)⟩] []))
    (f := fun t => t.csr.errcode == 0x21#32) (by decide +kernel)
  refine ⟨_, t, h, rfl, ?_⟩
  rw [eq_of_beq ht]
  decide

/-- An ENCODE that succeeds, with any batches: what a DECODE after it needs. -/
theorem codes_encodes {first last : Reply} {counts rest : List Reply} (hf : first.error = false) (hc : RowCounts 0 64 counts)
    (hl : last.error = false) (ho : last.output = none) :
    ∃ t, exec .encode (codes (first :: (counts ++ last :: rest))) = .next t ∧ t.csr.errcode = 0#32 ∧ t.lifecycle = .ready
      ∧ t.mem.ebuf = .exactly bare ∧ t.csr.plen = 0#32 ∧ t.ece.replies = rest ∧ t.nRows = 64
      ∧ t.mem.hdr = .exactly (synthHeader 8 8 8 8) ∧ t.mem.ftr = .exactly synthFooter := by
  generalize hs : codes (first :: (counts ++ last :: rest)) = s
  have hh : s.voidEncode.mapBlock.readHdr = synthHeader 8 8 8 8 := by
    subst hs
    exact Space.readRange_exactly (synthHeader 8 8 8 8) _
  have hft : s.voidEncode.mapBlock.readFtr = synthFooter := by
    subst hs
    exact Space.readRange_exactly synthFooter _
  have hx : s.beforeCompress.XbufHolds fun n => narrow s.voidEncode.precision (s.voidEncode.mem.blkIn.read (s.voidEncode.draws + n) n) :=
    s.voidEncode.mapBlock_xbufHolds
  obtain ⟨out, u, hd, hr, _, hout, _⟩ := driveCompress_run (s := s.beforeCompress) (hdr := synthHeader 8 8 8 8) (ftr := synthFooter)
    (first := first) (last := last) (counts := counts) (rest := rest) (by subst hs; rfl) hf (by subst hs; exact hc) hl hx
  have hb : out = bare := by
    rw [hout ho, ← codes_eceEnc (first :: (counts ++ last :: rest)), hs]
    exact congrArg s.eceEnc (congrArg (EncKey.mk s.eceCfg s.width s.nRows) (State.imageRows_mapBlock s.voidEncode))
  have ha : acceptStream (synthHeader 8 8 8 8) synthFooter bare = .ok [] := by decide +kernel
  have e := driveCompress_eceOnly (synthHeader 8 8 8 8) synthFooter s.beforeCompress
  rw [hd] at e
  have hbody : encodeBody s = .done (u.storePayload bare []) := by
    unfold encodeBody
    simp only [hh, hft]
    have hd' : driveCompress (synthHeader 8 8 8 8) synthFooter s.voidEncode.mapBlock.afterFraming = .ok out u := hd
    rw [hd', hb]
    simp only [ha]
  have hleg : refusedIn .encode s.lifecycle = false := by
    subst hs
    rfl
  refine ⟨_, runCommand_done hleg hbody, rfl, ?_, rfl, rfl, hr, ?_, ?_, ?_⟩
  · exact e.lifecycle.trans (by subst hs; rfl)
  · exact e.nRows.trans (by subst hs; rfl)
  · exact (congrArg Memory.hdr e.mem).trans (by subst hs; rfl)
  · exact (congrArg Memory.ftr e.mem).trans (by subst hs; rfl)

/-- Two instances with other batches and another history at the port. -/
theorem witness_EncodeIsDeterministic : ∃ s s' t t' : State,
    s ≠ s' ∧ s.lifecycle = .ready ∧ s'.lifecycle = .ready ∧ s.Inv ∧ s'.Inv ∧ SameEncodeInputs s s'
    ∧ exec .encode s = .next t ∧ exec .encode s' = .next t' ∧ t.csr.errcode = 0#32 ∧ t'.csr.errcode = 0#32 := by
  obtain ⟨t, h1, h2, _⟩ := codes_encodes (first := good 0) (last := good 0) (rest := []) rfl (rowCounts_whole 64 (by decide)) rfl rfl
  obtain ⟨t', h3, h4, _⟩ := codes_encodes (first := good 0) (last := good 0) (rest := []) rfl rowCounts_two rfl rfl
  refine ⟨_, _, t, t', ?_, rfl, rfl, ready_inv _ _, ready_inv _ _, ?_, h1, h3, h2, h4⟩
  · intro h
    have : ([good 0, good 64, good 0] : List Reply) = [good 0, good 40, good 24, good 0] := congrArg (fun s => s.ece.replies) h
    simp at this
  · refine ⟨rfl, rfl, rfl, rfl, rfl, rfl, ?_⟩
    intro n hn
    have hn : n < 512 := hn
    refine ⟨100#16, ?_⟩
    have hb : (codes []).mem.blkIn.get? n = some 100#16 := by
      simp only [codes, ready, Space.get?_exactly]
      rw [List.getElem?_replicate, if_pos hn]
    exact ⟨hb, hb⟩

/-! ### DECODE -/

/-- The hypotheses of the DECODE statements on the payload. -/
def HoldsPayload (s : State) (p : List Byte) : Prop :=
  s.csr.plen.toNat = p.length ∧ p.length ≤ Config.pbufCap ∧ (∀ k, k < p.length → s.mem.pbuf.get? k = p[k]?)
  ∧ (s.framedStream p).length ≤ Config.ebufCap ∧ (s.framedStream p).length < 2 ^ 32

/-- No payload: the stream is the bare framing. -/
theorem empty_payload (replies : List Reply) (enc : List (EncKey × List Byte)) : HoldsPayload (ready replies enc) [] :=
  ⟨rfl, Nat.zero_le _, fun k h => by simp at h, bare_framing_fits (show bare.length ≤ 27 by decide), (show bare.length < 2 ^ 32 by decide)⟩

theorem witness_DecodeProducesTheBlock :
    (ready [good 0, good 0, good 40, good 24, good 0] []).lifecycle = .ready
    ∧ (ready [good 0, good 0, good 40, good 24, good 0] []).Inv
    ∧ (ready [good 0, good 0, good 40, good 24, good 0] []).ece.replies = good 0 :: good 0 :: ([good 40, good 24] ++ good 0 :: [])
    ∧ RowCounts 0 (ready [good 0, good 0, good 40, good 24, good 0] []).nRows [good 40, good 24] ∧ (good 0).error = false
    ∧ HoldsPayload (ready [good 0, good 0, good 40, good 24, good 0] []) [] :=
  ⟨rfl, ready_inv _ _, rfl, rowCounts_two, rfl, empty_payload _ _⟩

/-- V95, without its payload byte; an engine error of `begin_decompress`; V93, and the two other ways an answer is bad, after sixteen rows;
V94 and V96 at the first; V97. -/
theorem witness_DecodeStallsAndEngineErrors (stream : List Byte) :
    (∃ calls, DecompressFails 8 64 stream [bad] calls 0 0x24#32)
    ∧ (∃ calls, DecompressFails 8 64 stream [good 0, bad] calls 0 0x24#32)
    ∧ (∃ calls, DecompressFails 8 64 stream [good 0, good 0, good 16, good 0] calls 16 0x30#32)
    ∧ (∀ b, b ∈ [bad, good 49] → ∃ calls, DecompressFails 8 64 stream [good 0, good 0, good 16, b] calls 16 0x24#32)
    ∧ (∃ calls, DecompressFails 8 64 stream [good 0, good 0, good 0] calls 0 0x30#32)
    ∧ (∃ calls, DecompressFails 8 64 stream [good 0, good 0, good 65] calls 0 0x24#32)
    ∧ (∃ calls, DecompressFails 8 64 stream [good 0, good 0, good 64, bad] calls 64 0x24#32)
    ∧ (∀ answers rd rc rq rx ra, ∃ s, FailingRunStarts s answers rd rc rq rx ra ∧ HoldsPayload s []) := by
  refine ⟨⟨_, .atHeader bad rfl⟩, ⟨_, .atBegin (good 0) bad rfl rfl⟩,
    ⟨_, .stalled (good 0) (good 0) (good 0) [good 16] 16 rfl rfl (rowCounts_whole 16 (by decide)) (by decide) ⟨rfl, rfl⟩⟩, ?_,
    ⟨_, .stalled (good 0) (good 0) (good 0) [] 0 rfl rfl rfl (by decide) ⟨rfl, rfl⟩⟩,
    ⟨_, .atRows (good 0) (good 0) (good 65) [] 0 rfl rfl rfl (by decide) (.inr (by decide))⟩,
    ⟨_, .atFinish (good 0) (good 0) bad [good 64] rfl rfl (rowCounts_whole 64 (by decide)) rfl⟩,
    fun _ _ _ _ _ _ => ⟨_, ready_fails _ _ _ _ _ _, empty_payload _ _⟩⟩
  intro b hb
  refine ⟨_, .atRows (good 0) (good 0) b [good 16] 16 rfl rfl (rowCounts_whole 16 (by decide)) (by decide) ?_⟩
  simp only [List.mem_cons, List.not_mem_nil, or_false] at hb
  rcases hb with rfl | rfl <;> decide

/-- DECODE after DECODE's answers: a stall, and a success. -/
theorem witness_DecodeKeepsEverythingElse :
    ∃ s t, exec .decode s = .next t ∧ t.csr.errcode = 0x30#32 := by
  obtain ⟨t, h, ht⟩ := ends_next (o := exec .decode (ready [good 0, good 0, good 0, good 0, good 0, good 0, good 0, good 0] []))
    (f := fun t => t.csr.errcode == 0x30#32) (by decide +kernel)
  exact ⟨_, t, h, eq_of_beq ht⟩

theorem ready_decodes (rs : List Reply) (h : rs = [good 0, good 0, good 64, good 0] ∨ rs = [good 0, good 0, good 40, good 24, good 0]) :
    ∃ t, exec .decode (ready rs []) = .next t ∧ t.csr.errcode = 0#32 := by
  have key : ends (exec .decode (ready rs [])) (fun t => t.csr.errcode == 0#32) = true := by
    rcases h with rfl | rfl <;> decide +kernel
  obtain ⟨t, h, ht⟩ := ends_next key
  exact ⟨t, h, eq_of_beq ht⟩

theorem witness_DecodeOverflowIsExact : ∃ t, (ready [good 0, good 0, good 64, good 0] []).lifecycle = .ready
    ∧ (ready [good 0, good 0, good 64, good 0] []).Inv ∧ HoldsPayload (ready [good 0, good 0, good 64, good 0] []) []
    ∧ exec .decode (ready [good 0, good 0, good 64, good 0] []) = .next t := by
  obtain ⟨t, h, _⟩ := ready_decodes _ (.inl rfl)
  exact ⟨t, rfl, ready_inv _ _, empty_payload _ _, h⟩

theorem witness_DecodeNeverLeavesAPartialBlock : ∃ s t : State, s.lifecycle = .ready ∧ exec .decode s = .next t ∧ t.csr.errcode = 0#32
    ∧ 7 < s.width ∧ 7 < s.height ∧ 7 < s.depth := by
  obtain ⟨t, h, he⟩ := ready_decodes _ (.inl rfl)
  exact ⟨_, t, rfl, h, he, (show 7 < 8 by decide), (show 7 < 8 by decide), (show 7 < 8 by decide)⟩

theorem witness_DecodeIsDeterministic : ∃ s s' t t' : State,
    s ≠ s' ∧ s.lifecycle = .ready ∧ s'.lifecycle = .ready ∧ s.Inv ∧ s'.Inv ∧ SameDecodeInputs s s'
    ∧ exec .decode s = .next t ∧ exec .decode s' = .next t' ∧ t.csr.errcode = 0#32 ∧ t'.csr.errcode = 0#32 := by
  obtain ⟨t, h1, h2⟩ := ready_decodes _ (.inl rfl)
  obtain ⟨t', h3, h4⟩ := ready_decodes _ (.inr rfl)
  refine ⟨_, _, t, t', ?_, rfl, rfl, ready_inv _ _, ready_inv _ _, ?_, h1, h3, h2, h4⟩
  · intro h
    have : ([good 0, good 0, good 64, good 0] : List Reply) = [good 0, good 0, good 40, good 24, good 0] :=
      congrArg (fun s => s.ece.replies) h
    simp [good] at this
  · exact ⟨rfl, rfl, rfl, rfl, rfl, rfl, rfl, fun n hn => absurd hn (Nat.not_lt_zero n)⟩

/-- A successful ENCODE, and a successful DECODE after it. -/
theorem witness_DecodePresentsTheEncodedStream : ∃ s t u : State, s.lifecycle = .ready ∧ s.Inv
    ∧ exec .encode s = .next t ∧ t.csr.errcode = 0#32 ∧ (∀ n, 2 ^ 32 - 1 ≤ n → t.mem.ebuf.get? n = none)
    ∧ exec .decode t = .next u ∧ u.csr.errcode = 0#32 := by
  obtain ⟨t, h1, h2, h3, h4, h5, h6, h7, h8, h9⟩ := codes_encodes (first := good 0) (last := good 0)
    (rest := good 0 :: good 0 :: ([good 64] ++ good 0 :: [])) rfl (rowCounts_whole 64 (by decide)) rfl rfl
  have hst : t.decodeStream = bare := by
    have ha : ((t.advance t.csr.plen.toNat).voidDecode).readHdr = synthHeader 8 8 8 8 := by
      simp only [State.readHdr, State.voidDecode_mem, State.advance_mem, h8]
      exact Space.readRange_exactly (synthHeader 8 8 8 8) _
    have hb : ((t.advance t.csr.plen.toNat).voidDecode).readFtr = synthFooter := by
      simp only [State.readFtr, State.voidDecode_mem, State.advance_mem, h9]
      exact Space.readRange_exactly synthFooter _
    have hp : t.mem.pbuf.readRange t.draws 0 t.csr.plen.toNat = [] := by
      rw [h5]
      rfl
    rw [State.decodeStream, ha, hb, hp]
    rfl
  have hlen : bare.length = 27 := by decide
  obtain ⟨v, hd, _, _⟩ := driveDecompress_run (s := t.beforeDecompress) (stream := t.decodeStream) (header := good 0)
    (begun := good 0) (last := good 0) (counts := [good 64]) (rest := []) h6 rfl rfl
    (by rw [show t.beforeDecompress.nRows = t.nRows from rfl, h7]; exact rowCounts_whole 64 (by decide)) rfl
  have hbody : decodeBody t = .done v.unmapRows := by
    have hc1 : ¬ Config.pbufCap < t.csr.plen.toNat := by
      rw [h5]
      exact Nat.not_lt_zero _
    have hc2 : ¬ Config.ebufCap < t.decodeStream.length := by
      rw [hst, hlen]
      exact Nat.not_lt.mpr (bare_framing_fits (Nat.le_refl _))
    rw [decodeBody_eq, if_neg hc1, if_neg hc2, hd]
  refine ⟨_, t, _, rfl, ready_inv _ _, h1, h2, ?_, runCommand_done (by rw [h3]; rfl) hbody, rfl⟩
  intro n hn
  rw [h4, Space.get?_exactly]
  exact List.getElem?_eq_none (by omega)

/-! ### Invariants and host accesses -/

/-- A step of a host that has nothing to do, and one of a MAP. -/
theorem witness_StepKeepsTheInvariant :
    (∃ t, State.reset.Inv ∧ step State.reset = .next t)
    ∧ ∃ t, ((setup []).withFetchWord 32 5).Inv ∧ step ((setup []).withFetchWord 32 5) = .next t := by
  refine ⟨⟨_, reset_inv, rfl⟩, ?_⟩
  obtain ⟨t, h, _⟩ := ends_next (o := step ((setup []).withFetchWord 32 5)) (f := fun _ => true) (by decide +kernel)
  exact ⟨t, setup_inv [] (by decide), h⟩

theorem witness_StepKeepsResultRegistersLegal :
    State.reset.ResultOk ∧ ∃ t, step (State.reset.withFetchWord 32 9) = .next t ∧ t.csr.errcode = 0x41#32 := by
  refine ⟨⟨by decide, by decide⟩, ?_⟩
  simpa using ends_next (f := fun t => t.csr.errcode == 0x41#32) (o := step (State.reset.withFetchWord 32 9)) (by decide +kernel)

/-- One state for each clause. -/
theorem witness_InvariantGivesTheLaunchPremises :
    (State.reset.Inv ∧ State.reset.lifecycle = .unconfigured) ∧ ((setup []).Inv ∧ (setup []).lifecycle ≠ .unconfigured)
    ∧ (ready [] []).Inv ∧ (ready [] []).lifecycle = .ready :=
  ⟨⟨reset_inv, rfl⟩, ⟨setup_inv [] (by decide), by decide⟩, ready_inv _ _, rfl⟩

/-- A writable register, a read-only one, one that does not exist; a reserved register read. -/
theorem witness_HostReachesRegisters (n : Nat) (v : Word) :
    (State.reset.setPending [.writeCsr n v]).host.pending = .writeCsr n v :: [] ∧ (14 ≠ 0 ∧ 4 ≤ 14 ∧ 14 ≤ 14) ∧ 15 ≠ 0 ∧ 32 ≠ 0
    ∧ (State.reset.setPending [.readCsr n]).host.pending = .readCsr n :: [] ∧ (0 = 0 ∨ 19 ≤ 0) ∧ (19 = 0 ∨ 19 ≤ 19) :=
  ⟨rfl, by decide, by decide, by decide, rfl, by decide, by decide⟩

/-- The last element of a space and the index after it; a space the host may not write. -/
theorem witness_HostWritesOneElement (id i : Nat) (v : Half) :
    (State.reset.setPending [.writeHalf id i v]).host.pending = .writeHalf id i v :: []
    ∧ (63 < 64 ∧ 15 < 16 ∧ 511 < Config.maxSamples) ∧ (64 ≤ 64 ∧ 16 ≤ 16 ∧ Config.maxSamples ≤ Config.maxSamples)
    ∧ (11 ≤ 11 ∧ 17 ≤ 17 ∧ 18 ≤ 18) :=
  ⟨rfl, ⟨by decide, by decide, minimal_block_fits (by decide)⟩, ⟨by decide, by decide, Nat.le_refl _⟩, by decide⟩

/-- Below and at the length of a space; HDR's last byte, specified; an element without specified content; two spaces that do not exist. -/
theorem witness_HostReadsElements (id i : Nat) :
    ((setup []).setPending [.readElem id i]).host.pending = .readElem id i :: []
    ∧ (spaceSize 11 = some (25, 8) ∧ 24 < 25 ∧ (setup []).mem.content 11 24 = some 0x00#32 ∧ 25 ≤ 25)
    ∧ (spaceSize 8 = some (Config.maxSamples, 16) ∧ 511 < Config.maxSamples ∧ (setup []).mem.content 8 511 = none)
    ∧ spaceSize 0 = none ∧ spaceSize 18 = none :=
  ⟨rfl, by decide, ⟨rfl, minimal_block_fits (by decide), rfl⟩, rfl, rfl⟩

theorem witness_HardwareResetForgetsTheInstance :
    ((setup []).setPending [.hardwareReset]).host.pending = .hardwareReset :: [] := rfl

/-- Two instances, of which the second runs a DESTROY. -/
theorem witness_InstancesShareNothing :
    Platform.step 1 ⟨[setup [], State.reset.withFetchWord 32 0x0F]⟩ =
      .next ⟨[setup [], State.reset.setCsr State.reset.csr.okResult]⟩ ∧ 0 ≠ 1 := ⟨rfl, by decide⟩

/-- The last element of a u8 space and the index after it, the first byte of EBUF; a space the host may not write; a u16 element. -/
theorem witness_HostWritesOneByte (id i : Nat) (v : Byte) :
    (State.reset.setPending [.writeByte id i v]).host.pending = .writeByte id i v :: []
    ∧ (255 < 256 ∧ 26 < Config.ebufCap) ∧ (256 ≤ 256 ∧ Config.ebufCap ≤ Config.ebufCap ∧ Config.pbufCap ≤ Config.pbufCap)
    ∧ (11 ≤ 11 ∧ 17 ≤ 17 ∧ 18 ≤ 18) ∧ (63 < 64 ∧ 64 ≤ 64) :=
  ⟨rfl, ⟨by decide, bare_framing_fits (by decide)⟩, ⟨by decide, Nat.le_refl _, Nat.le_refl _⟩, by decide, by decide⟩

end Sys2Proof.Tests
end

section
/-! PROOFS. What a command that answers a next state did, once for every command: the four ways it ends (40_lifecycle.md rule R147), and
what each body does to the CSRs and to the lifecycle state. From these follow the laws of STATUS.ERR (R30), of the lifecycle state (R29)
and of the latched configuration (R28). -/

namespace Sys2Proof.Machine

/-! ## The ways a command ends -/

/-- The body of each command but NOP, which has none (R147). -/
def commandBody : Instr → State → BodyResult
  | .nop => .done
  | .init => initBody
  | .configure => configureBody
  | .synth => synthBody
  | .verify => verifyBody
  | .map => fun s => .done s.mapBlock
  | .unmap => fun s => .done s.unmapRows
  | .stuff => stuffBody
  | .unstuff => unstuffBody
  | .encode => encodeBody
  | .decode => decodeBody
  | .clrerr => fun s => .done s.acknowledge
  | .destroy => fun s => .done s.teardown

theorem exec_eq_runCommand {i : Instr} (hi : i ≠ .nop) (s : State) : exec i s = runCommand i (commandBody i) s := by
  cases i with
  | nop => exact absurd rfl hi
  | _ => rfl

/-- How command `i` got from `s` to `t`: NOP, a refusal (R318), a body that ran to its end, or a body that raised an error (R312). -/
inductive CommandEnds (i : Instr) (s t : State) : Prop where
  | nop (hi : i = .nop) (ht : t = s)
  | refused (hi : i ≠ .nop) (hr : refusedIn i s.lifecycle = true)
      (ht : t = s.refusedWith 0x41#32 ((opcodeOf i).setWidth 32))
  | done (hi : i ≠ .nop) (hr : refusedIn i s.lifecycle = false) (u : State) (hb : commandBody i s = .done u)
      (ht : t = u.setCsr u.csr.okResult)
  | raised (hi : i ≠ .nop) (hr : refusedIn i s.lifecycle = false) (e : Err) (u : State) (hb : commandBody i s = .raise e u)
      (ht : t = u.takeError i e)

theorem exec_next {i : Instr} {s t : State} (h : exec i s = .next t) : CommandEnds i s t := by
  by_cases hi : i = .nop
  · subst hi
    cases h
    exact .nop rfl rfl
  · rw [exec_eq_runCommand hi] at h
    obtain ⟨hr, ht⟩ | ⟨hr, u, hb, ht⟩ | ⟨hr, e, u, hb, ht⟩ := runCommand_next h
    · exact .refused hi hr ht
    · exact .done hi hr u hb ht
    · exact .raised hi hr e u hb ht

/-! ## Where a command is refused (R104) -/

@[simp] theorem refusedIn_stuff (l : Lifecycle) : refusedIn .stuff l = false := by cases l <;> rfl

@[simp] theorem refusedIn_unstuff (l : Lifecycle) : refusedIn .unstuff l = false := by cases l <;> rfl

@[simp] theorem refusedIn_clrerr (l : Lifecycle) : refusedIn .clrerr l = false := by cases l <;> rfl

@[simp] theorem refusedIn_destroy (l : Lifecycle) : refusedIn .destroy l = false := by cases l <;> rfl

theorem refusedIn_init_false {l : Lifecycle} (h : refusedIn .init l = false) : l = .unconfigured := by
  cases l <;> simp [refusedIn] at h ⊢

theorem refusedIn_false_constructed {i : Instr} {l : Lifecycle} (hi : i = .configure ∨ i = .synth ∨ i = .map ∨ i = .unmap)
    (h : refusedIn i l = false) : l ≠ .unconfigured := by
  rintro rfl
  rcases hi with rfl | rfl | rfl | rfl <;> simp [refusedIn] at h

theorem refusedIn_false_ready {i : Instr} {l : Lifecycle} (hi : i = .encode ∨ i = .decode) (h : refusedIn i l = false) :
    l = .ready := by
  rcases hi with rfl | rfl <;> cases l <;> simp [refusedIn] at h ⊢

/-! ## The bodies' effect on the CSRs and the lifecycle state -/

/-- What the body of a command that ends without error does to the CSRs, PLEN and ELEN apart (R143, R145, R146). -/
def Csrs.afterDone (i : Instr) (c : Csrs) : Csrs :=
  match i with
  | .init => { c with cfgW := c.shapeW, cfgH := c.shapeH, cfgD := c.shapeD, cfgP := c.prec }
  | .destroy => { c with cfgW := 0#32, cfgH := 0#32, cfgD := 0#32, cfgP := 0#32 }
  | .clrerr => { c with err := false }
  | .nop | .configure | .synth | .verify | .map | .unmap | .stuff | .unstuff | .encode | .decode => c

/-- The lifecycle state after a body that ends without error (R29). -/
def Lifecycle.afterDone (i : Instr) (l : Lifecycle) : Lifecycle :=
  match i with
  | .init => .constructed
  | .configure => .ready
  | .destroy => .unconfigured
  | .nop | .clrerr | .synth | .verify | .map | .unmap | .stuff | .unstuff | .encode | .decode => l

/-- The CSRs `d` are `c` but for the length registers. -/
def Csrs.EqButLengths (c d : Csrs) : Prop := d = { c with plen := d.plen, elen := d.elen }

theorem Csrs.EqButLengths.refl (c : Csrs) : c.EqButLengths c := rfl

theorem Csrs.EqButLengths.err {c d : Csrs} (h : c.EqButLengths d) : d.err = c.err := by
  rw [h]

theorem EceOnly.eqButLengths {s t : State} (h : EceOnly s t) {c : Csrs} (hc : c.EqButLengths s.csr) : c.EqButLengths t.csr := by
  rw [h.csr]
  exact hc

theorem EceAndXbuf.eqButLengths {s t : State} (h : EceAndXbuf s t) {c : Csrs} (hc : c.EqButLengths s.csr) :
    c.EqButLengths t.csr := by
  rw [h.csr]
  exact hc

theorem initBody_done {s u : State} (h : initBody s = .done u) :
    initCheck s.csr.shapeW.toNat s.csr.shapeH.toNat s.csr.shapeD.toNat s.csr.prec.toNat s.csr.rowPitch.toNat
      s.csr.planePitch.toNat = none
    ∧ ∃ v, EceOnly s v ∧ v.ece.ctx = some ⟨⟨s.csr.prec.toNat, none, none, none⟩, .idle⟩ ∧ u = v.construct := by
  unfold initBody at h
  dsimp only at h
  split at h
  · cases h
  · next hc =>
    split at h
    · cases h
    · next he =>
      cases h
      exact ⟨hc, _, State.eceCreate_eceOnly _ _, State.eceCreate_ctx (by simpa using he), rfl⟩

theorem initBody_raise {s u : State} {e : Err} (h : initBody s = .raise e u) :
    EceOnly s u ∧ u.ece.ctx = s.ece.ctx ∧ classOf e.cause = .configurationError := by
  unfold initBody at h
  dsimp only at h
  split at h
  · next hc =>
    cases h
    exact ⟨EceOnly.refl s, rfl, initCheck_class hc⟩
  · split at h
    · next he =>
      cases h
      exact ⟨State.eceCreate_eceOnly _ _, State.eceCreate_ctx_error he, rfl⟩
    · cases h

theorem configureBody_done {s u : State} (h : configureBody s = .done u) :
    configureCheck s.csr.qtN.toNat s.csr.hsNclsDC.toNat s.csr.hsNclsAC.toNat s.readStaging.cntDC s.readStaging.cntAC = none
    ∧ inject s.readStaging (s.advance 608) = .done u := by
  unfold configureBody at h
  dsimp only at h
  split at h
  · cases h
  · next hc => exact ⟨hc, h⟩

theorem configureBody_raise {s u : State} {e : Err} (h : configureBody s = .raise e u) :
    EceOnly s u ∧ classOf e.cause = .configurationError := by
  unfold configureBody at h
  dsimp only at h
  split at h
  · next hc =>
    cases h
    exact ⟨s.advance_eceOnly 608, configureCheck_class hc⟩
  · obtain ⟨hu, hc, _⟩ := inject_raise h
    exact ⟨(s.advance_eceOnly 608).trans hu, by rw [hc]; rfl⟩

theorem verifyBody_done {s u : State} (h : verifyBody s = .done u) : u = (s.advance s.csr.elen.toNat).afterFraming := by
  unfold verifyBody at h
  dsimp only at h
  split at h
  · cases h
  · split at h <;> cases h
    rfl

/-- VERIFY raises BAD_OPERAND on the state as it is, or a framing error after its reads (R185). -/
theorem verifyBody_raise {s u : State} {e : Err} (h : verifyBody s = .raise e u) :
    (Config.ebufCap < s.csr.elen.toNat ∧ e = ⟨.badOperand, 14⟩ ∧ u = s)
    ∨ (s.csr.elen.toNat ≤ Config.ebufCap ∧ (e.cause = .headerMismatch ∨ e.cause = .footerMismatch)
        ∧ u = (s.advance s.csr.elen.toNat).afterFraming) := by
  unfold verifyBody at h
  dsimp only at h
  split at h
  · next hc => cases h; exact .inl ⟨hc, rfl, rfl⟩
  · next hc =>
    split at h <;> cases h
    next hv => exact .inr ⟨by omega, verifyFraming_error hv, rfl⟩

theorem stuffBody_done {s u : State} (h : stuffBody s = .done u) :
    ∃ out : List Byte, out.length ≤ Config.ebufCap
      ∧ u = ((s.advance s.csr.plen.toNat).setMem { s.mem with ebuf := .exactly out }).setElen out.length := by
  unfold stuffBody at h
  dsimp only at h
  split at h
  · cases h
  · split at h
    · cases h
    · next hc => cases h; exact ⟨_, by omega, rfl⟩

/-- STUFF raises BAD_OPERAND on the state as it is, or OVERFLOW after its reads (R224). -/
theorem stuffBody_raise {s u : State} {e : Err} (h : stuffBody s = .raise e u) :
    (Config.pbufCap < s.csr.plen.toNat ∧ e = ⟨.badOperand, 13⟩ ∧ u = s)
    ∨ (s.csr.plen.toNat ≤ Config.pbufCap ∧ e.cause = .overflow ∧ u = s.advance s.csr.plen.toNat) := by
  unfold stuffBody at h
  dsimp only at h
  split at h
  · next hc => cases h; exact .inl ⟨hc, rfl, rfl⟩
  · next hc =>
    split at h <;> cases h
    exact .inr ⟨by omega, rfl, rfl⟩

theorem unstuffBody_done {s u : State} (h : unstuffBody s = .done u) :
    ∃ out : List Byte, out.length ≤ Config.pbufCap
      ∧ u = ((s.advance s.csr.elen.toNat).setMem { s.mem with pbuf := .exactly out }).setPlen out.length := by
  unfold unstuffBody at h
  dsimp only at h
  split at h
  · cases h
  · split at h
    · cases h
    · split at h
      · cases h
      · next hc => cases h; exact ⟨_, by omega, rfl⟩

/-- UNSTUFF raises BAD_OPERAND on the state as it is, or UNESCAPED_FF or OVERFLOW after its reads (R225). -/
theorem unstuffBody_raise {s u : State} {e : Err} (h : unstuffBody s = .raise e u) :
    (Config.ebufCap < s.csr.elen.toNat ∧ e = ⟨.badOperand, 14⟩ ∧ u = s)
    ∨ (s.csr.elen.toNat ≤ Config.ebufCap ∧ (e.cause = .unescapedFf ∨ e.cause = .overflow)
        ∧ u = s.advance s.csr.elen.toNat) := by
  unfold unstuffBody at h
  dsimp only at h
  split at h
  · next hc => cases h; exact .inl ⟨hc, rfl, rfl⟩
  · next hc =>
    split at h
    · cases h; exact .inr ⟨by omega, .inl rfl, rfl⟩
    · split at h <;> cases h
      exact .inr ⟨by omega, .inr rfl, rfl⟩

theorem driveCompress_ok_eceOnly {hdr ftr out : List Byte} {s t : State} (h : driveCompress hdr ftr s = .ok out t) :
    EceOnly s t := by
  simpa [h, EngineRun.state] using driveCompress_eceOnly hdr ftr s

theorem driveCompress_bad_eceOnly {hdr ftr : List Byte} {s t : State} {e : Err} (h : driveCompress hdr ftr s = .bad e t) :
    EceOnly s t := by
  simpa [h, EngineRun.state] using driveCompress_eceOnly hdr ftr s

theorem driveDecompress_ok_eceAndXbuf {stream : List Byte} {s t : State} (h : driveDecompress stream s = .ok () t) :
    EceAndXbuf s t := by
  simpa [h, EngineRun.state] using driveDecompress_eceAndXbuf stream s

theorem driveDecompress_bad_eceAndXbuf {stream : List Byte} {s t : State} {e : Err}
    (h : driveDecompress stream s = .bad e t) : EceAndXbuf s t := by
  simpa [h, EngineRun.state] using driveDecompress_eceAndXbuf stream s

/-- A body that ends without error leaves the CSRs and the lifecycle state that its command says (R29, R143, R145, R146). -/
theorem commandBody_done {i : Instr} {s u : State} (h : commandBody i s = .done u) :
    (s.csr.afterDone i).EqButLengths u.csr ∧ u.lifecycle = s.lifecycle.afterDone i := by
  cases i with
  | nop | map | unmap | synth | clrerr => cases h; exact ⟨rfl, rfl⟩
  | destroy => cases h; exact ⟨by rw [State.teardown_csr]; rfl, rfl⟩
  | init =>
    obtain ⟨_, v, hv, _, rfl⟩ := initBody_done h
    refine ⟨?_, rfl⟩
    simp only [State.construct, hv.csr]
    rfl
  | configure =>
    obtain ⟨v, hv, rfl, _⟩ := inject_done (configureBody_done h).2
    exact ⟨hv.eqButLengths rfl, rfl⟩
  | verify => rw [verifyBody_done h]; exact ⟨rfl, rfl⟩
  | stuff => obtain ⟨out, _, rfl⟩ := stuffBody_done h; exact ⟨rfl, rfl⟩
  | unstuff => obtain ⟨out, _, rfl⟩ := unstuffBody_done h; exact ⟨rfl, rfl⟩
  | encode =>
    obtain ⟨out, p, v, hd, _, rfl⟩ := encodeBody_done h
    have hv := driveCompress_ok_eceOnly hd
    refine ⟨?_, hv.lifecycle⟩
    simp only [State.storePayload, State.setPlen_csr, State.setElen_csr, State.setMem_csr, hv.csr]
    rfl
  | decode =>
    obtain ⟨_, _, v, hd, rfl⟩ := decodeBody_done h
    have hv := driveDecompress_ok_eceAndXbuf hd
    exact ⟨hv.eqButLengths rfl, hv.lifecycle⟩

/-- A body that raises an error has left the lifecycle state and the CSRs as they were, PLEN and ELEN apart (R312). -/
theorem commandBody_raise {i : Instr} {s u : State} {e : Err} (h : commandBody i s = .raise e u) :
    s.csr.EqButLengths u.csr ∧ u.lifecycle = s.lifecycle := by
  cases i with
  | nop | map | unmap | synth | clrerr | destroy => cases h
  | init => have hu := (initBody_raise h).1; exact ⟨hu.eqButLengths rfl, hu.lifecycle⟩
  | configure => have hu := (configureBody_raise h).1; exact ⟨hu.eqButLengths rfl, hu.lifecycle⟩
  | verify => obtain ⟨_, _, rfl⟩ | ⟨_, _, rfl⟩ := verifyBody_raise h <;> exact ⟨rfl, rfl⟩
  | stuff => obtain ⟨_, _, rfl⟩ | ⟨_, _, rfl⟩ := stuffBody_raise h <;> exact ⟨rfl, rfl⟩
  | unstuff => obtain ⟨_, _, rfl⟩ | ⟨_, _, rfl⟩ := unstuffBody_raise h <;> exact ⟨rfl, rfl⟩
  | encode =>
    have hu := (encodeBody_raise_frame h).2
    exact ⟨hu.eqButLengths rfl, hu.lifecycle⟩
  | decode =>
    obtain ⟨_, _, rfl⟩ | ⟨_, _, _, rfl⟩ | ⟨_, _, v, hd, hr, _⟩ := decodeBody_raise h
    · exact ⟨rfl, rfl⟩
    · exact ⟨rfl, rfl⟩
    · have hu := (driveDecompress_bad_eceAndXbuf hd).trans (State.recover_spec hr).1.toXbuf
      exact ⟨hu.eqButLengths rfl, hu.lifecycle⟩

/-- INIT and CONFIGURE raise ConfigurationErrors, and no other command does (R313, R315). -/
theorem commandBody_raise_class {i : Instr} {s u : State} {e : Err} (h : commandBody i s = .raise e u) :
    classOf e.cause = .configurationError ↔ i = .init ∨ i = .configure := by
  cases i with
  | nop | map | unmap | synth | clrerr | destroy => cases h
  | init => simp [(initBody_raise h).2.2]
  | configure => simp [(configureBody_raise h).2]
  | verify => obtain ⟨_, rfl, _⟩ | ⟨_, hc | hc, _⟩ := verifyBody_raise h <;> simp [classOf, *]
  | stuff => obtain ⟨_, rfl, _⟩ | ⟨_, hc, _⟩ := stuffBody_raise h <;> simp [classOf, *]
  | unstuff => obtain ⟨_, rfl, _⟩ | ⟨_, hc | hc, _⟩ := unstuffBody_raise h <;> simp [classOf, *]
  | encode => simp [(encodeBody_raise_frame h).1]
  | decode =>
    obtain ⟨_, rfl, _⟩ | ⟨_, _, rfl, _⟩ | ⟨_, _, _, _, _, hc | hc⟩ := decodeBody_raise h <;> simp [classOf, *]

/-! ## The registers after a command -/

@[simp] theorem Csrs.okResult_errcode (c : Csrs) : c.okResult.errcode = 0#32 := rfl

@[simp] theorem Csrs.okResult_err (c : Csrs) : c.okResult.err = c.err := rfl

@[simp] theorem State.refusedWith_csr (s : State) (code info : Word) : (s.refusedWith code info).csr = s.csr.errResult code info := rfl

@[simp] theorem Csrs.errResult_errcode (c : Csrs) (code info : Word) : (c.errResult code info).errcode = code := rfl

@[simp] theorem Csrs.errResult_err (c : Csrs) (code info : Word) : (c.errResult code info).err = true := rfl

@[simp] theorem State.takeError_errcode (i : Instr) (e : Err) (u : State) :
    (u.takeError i e).csr.errcode = errorCode e.cause := rfl

/-- What a per-call error voids leaves the CSRs as they were, PLEN and ELEN apart (R316). -/
theorem State.voidOutputs_csr (i : Instr) (u : State) : u.csr.EqButLengths (u.voidOutputs i).csr := by
  cases i <;> rfl

/-- The effects of an error's class leave STATUS.ERR as it was (R312). -/
theorem State.errorEffects_err (i : Instr) (c : Cause) (u : State) : (u.errorEffects i c).csr.err = u.csr.err := by
  unfold State.errorEffects
  split
  · rw [State.teardown_csr]
  · rw [State.voidOutputs_csr i u]
  · rw [State.voidOutputs_csr i u]
  · rfl

/-- Only a ConfigurationError changes the lifecycle state: it tears down (R315). -/
theorem State.takeError_lifecycle (i : Instr) (e : Err) (u : State) :
    (u.takeError i e).lifecycle = if classOf e.cause = .configurationError then .unconfigured else u.lifecycle := by
  have hv : (u.voidOutputs i).lifecycle = u.lifecycle := by cases i <;> rfl
  cases hc : classOf e.cause with
  | configurationError => simp [State.takeError_configuration u hc]
  | framingViolation => simp [State.takeError_perCall u (.inl hc), hv]
  | decoderStalled => simp [State.takeError_perCall u (.inr hc), hv]
  | sequenceError => simp [State.takeError_sequence u hc]

/-- ERRCODE bits `[7:4]` are the class number (R26). -/
theorem errorCode_class (c : Cause) : (errorCode c).toNat / 16 = classNumber (classOf c) := by
  cases c <;> decide

theorem classNumber_eq_one (k : ErrClass) : classNumber k = 1 ↔ k = .configurationError := by
  cases k <;> decide

end Sys2Proof.Machine
end

section
/-! PROOFS. STATUS.ERR, the lifecycle state and the latched configuration after a command; the check of a length operand. -/

namespace Sys2Proof.Machine

/-- Settles O9: the four ways a command ends, of which only an error and a refusal write a non-zero ERRCODE. -/
theorem errFlagIsSticky : Obligations.ErrFlagIsSticky := by
  intro i s t h
  cases exec_next h with
  | nop hi ht => rw [hi, ht]; rfl
  | refused hi hr ht =>
    rw [ht]
    cases i with
    | nop => exact absurd rfl hi
    | clrerr => simp at hr
    | _ => simp [errAfter]
  | done hi hr u hb ht =>
    have herr : u.csr.err = (s.csr.afterDone i).err := (commandBody_done hb).1.err
    rw [ht, State.setCsr_csr, Csrs.okResult_err, Csrs.okResult_errcode, herr]
    cases i <;> simp [errAfter, Csrs.afterDone]
  | raised hi hr e u hb ht =>
    have herr : u.csr.err = s.csr.err := (commandBody_raise hb).1.err
    have ht' : t.csr.err = (s.csr.err || t.csr.errcode != 0#32) := by
      rw [ht, State.takeError, State.finish_csr, State.errorEffects_err, herr]
    rw [ht']
    cases i with
    | nop => exact absurd rfl hi
    | clrerr => cases hb
    | _ => rfl

/-- Settles O11: a body that ends changes STATE in INIT, CONFIGURE and DESTROY only, and an error changes it by
the teardown of its class only. -/
theorem lifecycleTransitions : Obligations.LifecycleTransitions := by
  intro i s t h
  cases exec_next h with
  | nop hi ht => exact .inl (by rw [ht])
  | refused hi hr ht => exact .inl (by rw [ht]; rfl)
  | done hi hr u hb ht =>
    have hl : t.lifecycle = s.lifecycle.afterDone i := by rw [ht]; exact (commandBody_done hb).2
    have hc : t.csr.errcode = 0#32 := by rw [ht]; rfl
    cases i with
    | init =>
      exact .inr (.inl ⟨rfl, refusedIn_init_false hr, hl, hc⟩)
    | configure =>
      exact .inr (.inr (.inl ⟨rfl, refusedIn_false_constructed (.inl rfl) hr, hl, hc⟩))
    | destroy => exact .inr (.inr (.inr (.inl ⟨rfl, hl⟩)))
    | _ => exact .inl hl
  | raised hi hr e u hb ht =>
    have hl := State.takeError_lifecycle i e u
    rw [← ht, (commandBody_raise hb).2] at hl
    split at hl
    · next hc =>
      refine .inr (.inr (.inr (.inr ⟨hl, ?_⟩)))
      rw [ht, State.takeError_errcode, errorCode_class, hc]
      rfl
    · exact .inl hl

/-- Two register files hold the same latched configuration (R28). -/
def Csrs.SameCfg (c d : Csrs) : Prop := d.cfgW = c.cfgW ∧ d.cfgH = c.cfgH ∧ d.cfgD = c.cfgD ∧ d.cfgP = c.cfgP

theorem Csrs.EqButLengths.sameCfg {c d : Csrs} (h : c.EqButLengths d) : c.SameCfg d := by
  rw [h]
  exact ⟨rfl, rfl, rfl, rfl⟩

/-- An error that is no ConfigurationError keeps the latched configuration (R28, R316, R318). -/
theorem State.takeError_sameCfg {i : Instr} {e : Err} {u : State} (h : classOf e.cause ≠ .configurationError) :
    u.csr.SameCfg (u.takeError i e).csr := by
  have hv := (State.voidOutputs_csr i u).sameCfg
  cases hc : classOf e.cause with
  | configurationError => exact absurd hc h
  | framingViolation => rw [State.takeError_perCall u (.inl hc)]; exact hv
  | decoderStalled => rw [State.takeError_perCall u (.inr hc)]; exact hv
  | sequenceError => rw [State.takeError_sequence u hc]; exact ⟨rfl, rfl, rfl, rfl⟩

/-- Settles O12: INIT's body latches staging, teardown clears CFG, and every other body and error keeps it. -/
theorem configurationIsLatched : Obligations.ConfigurationIsLatched := by
  intro i s t h
  cases exec_next h with
  | nop hi ht => simp [hi, ht]
  | refused hi hr ht =>
    have hd : i ≠ .destroy := by
      rintro rfl
      simp at hr
    rw [ht]
    simp [State.refusedWith, Csrs.errResult, hd]
  | done hi hr u hb ht =>
    have hcfg := (commandBody_done hb).1.sameCfg
    rw [ht]
    cases i with
    | nop => exact absurd rfl hi
    | _ => simpa [Csrs.SameCfg, Csrs.okResult, Csrs.afterDone] using hcfg
  | raised hi hr e u hb ht =>
    have hd : i ≠ .destroy := by
      rintro rfl
      cases hb
    have hcode : (t.csr.errcode.toNat / 16 = 1) = (classOf e.cause = .configurationError) := by
      rw [ht, State.takeError_errcode, errorCode_class, classNumber_eq_one]
    have h0 : t.csr.errcode ≠ 0#32 := by rw [ht]; exact errorCode_ne_zero e.cause
    simp only [h0, and_false, if_false, hcode, hd, hi, ne_eq, not_false_eq_true, true_and, false_or]
    split
    · next hc =>
      rw [ht, State.takeError_configuration u hc, State.finish_csr, State.teardown_csr]
      exact ⟨rfl, rfl, rfl, rfl⟩
    · next hc =>
      obtain ⟨h1, h2, h3, h4⟩ := State.takeError_sameCfg (i := i) (u := u) hc
      obtain ⟨k1, k2, k3, k4⟩ := (commandBody_raise hb).1.sameCfg
      rw [ht]
      exact ⟨h1.trans k1, h2.trans k2, h3.trans k3, h4.trans k4⟩

/-! ## Length operands (R23, R318) -/

theorem errorCode_eq_badOperand (c : Cause) : errorCode c = 0x43#32 ↔ c = .badOperand := by
  cases c <;> decide

/-- BAD_OPERAND is a refusal that changes nothing but the error registers (R318). -/
theorem State.takeError_badOperand (i : Instr) {info : Nat} (hi : info < 2 ^ 32) (s : State) :
    s.takeError i ⟨.badOperand, info⟩ = s.refusedWith 0x43#32 (BitVec.ofNat 32 info) := by
  rw [State.takeError_sequence s rfl, State.finish_err (errorCode_ne_zero _) hi]
  rfl

theorem runCommand_answers {i : Instr} {body : State → BodyResult} {s : State} (h : ∀ r, body s ≠ .fault r) :
    ∃ t, runCommand i body s = .next t := by
  unfold runCommand
  split
  · split
    · exact ⟨_, rfl⟩
    · exact ⟨_, rfl⟩
    · next r hb => exact absurd hb (h r)
  · exact ⟨_, rfl⟩

/-- A command whose body raises BAD_OPERAND for a length beyond its buffer, and only then, reports it exactly then (R318). -/
theorem runCommand_lengthOperand {i : Instr} {body : State → BodyResult} {s t : State} {cap len info : Nat}
    (hinfo : info < 2 ^ 32) (hl : refusedIn i s.lifecycle = false) (hover : cap < len → body s = .raise ⟨.badOperand, info⟩ s)
    (hfits : ∀ e u, body s = .raise e u → len ≤ cap → e.cause ≠ .badOperand) (h : runCommand i body s = .next t) :
    (t.csr.errcode = 0x43#32 ↔ cap < len) ∧ (t.csr.errcode = 0x43#32 → t = s.refusedWith 0x43#32 (BitVec.ofNat 32 info)) := by
  by_cases hc : cap < len
  · rw [runCommand_raise hl (hover hc), State.takeError_badOperand i hinfo] at h
    cases h
    exact ⟨iff_of_true rfl hc, fun _ => rfl⟩
  · have hne : t.csr.errcode ≠ 0x43#32 := by
      obtain ⟨hr, _⟩ | ⟨_, u, _, rfl⟩ | ⟨_, e, u, hb, rfl⟩ := runCommand_next h
      · simp [hl] at hr
      · simp
      · rw [State.takeError_errcode, ne_eq, errorCode_eq_badOperand]
        exact hfits e u hb (by omega)
    exact ⟨iff_of_false hne hc, fun he => absurd he hne⟩

theorem stuffBody_not_fault (s : State) (r : Fault) : stuffBody s ≠ .fault r := by
  unfold stuffBody
  dsimp only
  split
  · simp
  · split <;> simp

theorem unstuffBody_not_fault (s : State) (r : Fault) : unstuffBody s ≠ .fault r := by
  unfold unstuffBody
  dsimp only
  split
  · simp
  · split
    · simp
    · split <;> simp

theorem verifyBody_not_fault (s : State) (r : Fault) : verifyBody s ≠ .fault r := by
  unfold verifyBody
  dsimp only
  split
  · simp
  · split <;> simp

theorem exec_stuff_lengthOperand {s t : State} (h : exec .stuff s = .next t) :
    (t.csr.errcode = 0x43#32 ↔ Config.pbufCap < s.csr.plen.toNat)
    ∧ (t.csr.errcode = 0x43#32 → t = s.refusedWith 0x43#32 13#32) := by
  refine runCommand_lengthOperand (i := .stuff) (body := stuffBody) (info := 13) (by decide) (refusedIn_stuff _)
    (fun hc => by simp [stuffBody, hc]) ?_ h
  intro e u hb hle
  obtain ⟨hc, _⟩ | ⟨_, hc, _⟩ := stuffBody_raise hb
  · omega
  · simp [hc]

theorem exec_unstuff_lengthOperand {s t : State} (h : exec .unstuff s = .next t) :
    (t.csr.errcode = 0x43#32 ↔ Config.ebufCap < s.csr.elen.toNat)
    ∧ (t.csr.errcode = 0x43#32 → t = s.refusedWith 0x43#32 14#32) := by
  refine runCommand_lengthOperand (i := .unstuff) (body := unstuffBody) (info := 14) (by decide) (refusedIn_unstuff _)
    (fun hc => by simp [unstuffBody, hc]) ?_ h
  intro e u hb hle
  obtain ⟨hc, _⟩ | ⟨_, hc | hc, _⟩ := unstuffBody_raise hb
  · omega
  · simp [hc]
  · simp [hc]

theorem exec_verify_lengthOperand {s t : State} (hl : s.lifecycle ≠ .unconfigured) (h : exec .verify s = .next t) :
    (t.csr.errcode = 0x43#32 ↔ Config.ebufCap < s.csr.elen.toNat)
    ∧ (t.csr.errcode = 0x43#32 → t = s.refusedWith 0x43#32 14#32) := by
  refine runCommand_lengthOperand (i := .verify) (body := verifyBody) (info := 14) (by decide) ?_
    (fun hc => by simp [verifyBody, hc]) ?_ h
  · cases hs : s.lifecycle with
    | unconfigured => exact absurd hs hl
    | constructed | ready => rfl
  · intro e u hb hle
    obtain ⟨hc, _⟩ | ⟨_, hc | hc, _⟩ := verifyBody_raise hb
    · omega
    · simp [hc]
    · simp [hc]

theorem exec_decode_lengthOperand {s t : State} (hl : s.lifecycle = .ready) (h : exec .decode s = .next t) :
    (t.csr.errcode = 0x43#32 ↔ Config.pbufCap < s.csr.plen.toNat)
    ∧ (t.csr.errcode = 0x43#32 → t = s.refusedWith 0x43#32 13#32) := by
  refine runCommand_lengthOperand (i := .decode) (body := decodeBody) (info := 13) (by decide) (by rw [hl]; rfl)
    (fun hc => by simp [decodeBody, hc]) ?_ h
  intro e u hb hle
  obtain ⟨hc, _⟩ | ⟨_, _, he, _⟩ | ⟨_, _, _, _, _, hc | hc⟩ := decodeBody_raise hb
  · omega
  · simp [he]
  · simp [hc]
  · simp [hc]

/-- Settles O38: each of the four bodies checks its length operand first, and raises BAD_OPERAND nowhere else. -/
theorem lengthOperandsAreChecked : Obligations.LengthOperandsAreChecked := by
  intro s
  refine ⟨?_, ?_, fun hl => ?_, fun hl => ⟨fun t h => (exec_decode_lengthOperand hl h).1,
    fun t h => (exec_decode_lengthOperand hl h).2⟩⟩
  · obtain ⟨t, ht⟩ := runCommand_answers (i := .stuff) (stuffBody_not_fault s)
    exact ⟨t, ht, exec_stuff_lengthOperand ht⟩
  · obtain ⟨t, ht⟩ := runCommand_answers (i := .unstuff) (unstuffBody_not_fault s)
    exact ⟨t, ht, exec_unstuff_lengthOperand ht⟩
  · obtain ⟨t, ht⟩ := runCommand_answers (i := .verify) (verifyBody_not_fault s)
    exact ⟨t, ht, exec_verify_lengthOperand hl ht⟩

end Sys2Proof.Machine
end

section
/-! PROOFS. The invariant of R53: every step keeps the canonical form of the spaces and the agreement of STATE with the latched
configuration, the header and footer, the shadows and the ECE context (R28, R46, R49, R50). -/

namespace Sys2Proof.Machine

/-! ## What the lifecycle state has to agree with -/

/-- The spaces that the lifecycle commands build and tear down: header, footer and shadows (R46, R49). -/
structure BuiltSpaces where
  hdr : Space 8
  ftr : Space 8
  qtab : Space 16
  hufCntDC : Space 8
  hufValDC : Space 8
  hufCntAC : Space 8
  hufValAC : Space 8

/-- The spaces of `m` that the lifecycle commands build. -/
def Memory.built (m : Memory) : BuiltSpaces := ⟨m.hdr, m.ftr, m.qtab, m.hufCntDC, m.hufValDC, m.hufCntAC, m.hufValAC⟩

/-- All that `LifecycleOk` speaks of, but for the ECE context, is the same in `s` and `t`. -/
structure SameButContext (s t : State) : Prop where
  lifecycle : t.lifecycle = s.lifecycle
  cfg : s.csr.SameCfg t.csr
  built : t.mem.built = s.mem.built

/-- All that `LifecycleOk` speaks of is the same in `s` and `t`. -/
structure SameInstance (s t : State) : Prop extends SameButContext s t where
  ctx : t.ece.ctx = s.ece.ctx

theorem Csrs.SameCfg.refl (c : Csrs) : c.SameCfg c := ⟨rfl, rfl, rfl, rfl⟩

theorem Csrs.SameCfg.trans {c d e : Csrs} (h : c.SameCfg d) (k : d.SameCfg e) : c.SameCfg e := by
  obtain ⟨h1, h2, h3, h4⟩ := h
  obtain ⟨k1, k2, k3, k4⟩ := k
  exact ⟨k1.trans h1, k2.trans h2, k3.trans h3, k4.trans h4⟩

section
variable {s t u : State}

theorem Csrs.SameCfg.width (h : s.csr.SameCfg t.csr) : t.width = s.width := congrArg BitVec.toNat h.1
theorem Csrs.SameCfg.height (h : s.csr.SameCfg t.csr) : t.height = s.height := congrArg BitVec.toNat h.2.1
theorem Csrs.SameCfg.depth (h : s.csr.SameCfg t.csr) : t.depth = s.depth := congrArg BitVec.toNat h.2.2.1
theorem Csrs.SameCfg.precision (h : s.csr.SameCfg t.csr) : t.precision = s.precision := congrArg BitVec.toNat h.2.2.2

theorem SameButContext.hdr (h : SameButContext s t) : t.mem.hdr = s.mem.hdr := congrArg BuiltSpaces.hdr h.built
theorem SameButContext.ftr (h : SameButContext s t) : t.mem.ftr = s.mem.ftr := congrArg BuiltSpaces.ftr h.built
theorem SameButContext.qtab (h : SameButContext s t) : t.mem.qtab = s.mem.qtab := congrArg BuiltSpaces.qtab h.built
theorem SameButContext.hufCntDC (h : SameButContext s t) : t.mem.hufCntDC = s.mem.hufCntDC := congrArg BuiltSpaces.hufCntDC h.built
theorem SameButContext.hufValDC (h : SameButContext s t) : t.mem.hufValDC = s.mem.hufValDC := congrArg BuiltSpaces.hufValDC h.built
theorem SameButContext.hufCntAC (h : SameButContext s t) : t.mem.hufCntAC = s.mem.hufCntAC := congrArg BuiltSpaces.hufCntAC h.built
theorem SameButContext.hufValAC (h : SameButContext s t) : t.mem.hufValAC = s.mem.hufValAC := congrArg BuiltSpaces.hufValAC h.built

theorem SameButContext.trans (h : SameButContext s t) (k : SameButContext t u) : SameButContext s u :=
  ⟨k.lifecycle.trans h.lifecycle, h.cfg.trans k.cfg, k.built.trans h.built⟩

end

theorem EceAndXbuf.sameButContext {s t : State} (h : EceAndXbuf s t) : SameButContext s t := by
  obtain ⟨x, hx⟩ := h.mem
  exact ⟨h.lifecycle, by rw [h.csr]; exact .refl _, by rw [hx]; rfl⟩

theorem SameInstance.shadows {s t : State} (h : SameInstance s t) (hs : s.ShadowsUnspecified) : t.ShadowsUnspecified := by
  obtain ⟨h1, h2, h3, h4, h5⟩ := hs
  exact ⟨h.qtab.trans h1, h.hufCntDC.trans h2, h.hufValDC.trans h3, h.hufCntAC.trans h4, h.hufValAC.trans h5⟩

theorem SameInstance.framedOk {s t : State} (h : SameInstance s t) (hs : s.FramedOk) : t.FramedOk := by
  unfold State.FramedOk
  rw [h.cfg.width, h.cfg.height, h.cfg.depth, h.cfg.precision, h.hdr, h.ftr]
  exact hs

theorem SameInstance.unconfiguredOk {s t : State} (h : SameInstance s t) (hs : s.UnconfiguredOk) : t.UnconfiguredOk := by
  obtain ⟨⟨c1, c2, c3, c4⟩, hh, hf, hsh, hctx⟩ := hs
  obtain ⟨h1, h2, h3, h4⟩ := h.cfg
  exact ⟨⟨h1.trans c1, h2.trans c2, h3.trans c3, h4.trans c4⟩, h.hdr.trans hh, h.ftr.trans hf, h.shadows hsh, h.ctx.trans hctx⟩

theorem SameInstance.constructedOk {s t : State} (h : SameInstance s t) (hs : s.ConstructedOk) : t.ConstructedOk := by
  obtain ⟨hf, hsh, hctx⟩ := hs
  exact ⟨h.framedOk hf, h.shadows hsh, by rw [h.ctx, hctx, h.cfg.precision]⟩

theorem SameInstance.readyWith {s t : State} {tabs : StagedTables} (h : SameInstance s t) (hs : s.ReadyWith tabs) :
    t.ReadyWith tabs := by
  obtain ⟨hf, hok, h1, h2, h3, h4, h5, hctx⟩ := hs
  exact ⟨h.framedOk hf, hok, h.qtab.trans h1, h.hufCntDC.trans h2, h.hufValDC.trans h3, h.hufCntAC.trans h4, h.hufValAC.trans h5,
    by rw [h.ctx, hctx, h.cfg.precision]⟩

theorem SameInstance.lifecycleOk {s t : State} (h : SameInstance s t) (hs : s.LifecycleOk) : t.LifecycleOk := by
  unfold State.LifecycleOk at hs ⊢
  rw [h.lifecycle]
  cases hl : s.lifecycle <;> rw [hl] at hs
  · exact h.unconfiguredOk hs
  · exact h.constructedOk hs
  · obtain ⟨tabs, hs⟩ := hs
    exact ⟨tabs, h.readyWith hs⟩

theorem SameInstance.inv {s t : State} (h : SameInstance s t) (hs : s.Inv) (hm : t.mem.wf) : t.Inv :=
  ⟨hm, h.lifecycleOk hs.2⟩

theorem State.Inv.unconfiguredOk {s : State} (h : s.Inv) (hl : s.lifecycle = .unconfigured) : s.UnconfiguredOk := by
  have := h.2
  rwa [State.LifecycleOk, hl] at this

theorem State.Inv.no_context {s : State} (h : s.Inv) (hl : s.lifecycle = .unconfigured) : s.ece.ctx = none := by
  obtain ⟨_, _, _, _, hctx⟩ := h.unconfiguredOk hl
  exact hctx

theorem State.Inv.constructedOk {s : State} (h : s.Inv) (hl : s.lifecycle = .constructed) : s.ConstructedOk := by
  have := h.2
  rwa [State.LifecycleOk, hl] at this

theorem State.Inv.readyWith {s : State} (h : s.Inv) (hl : s.lifecycle = .ready) : ∃ tabs, s.ReadyWith tabs := by
  have := h.2
  rwa [State.LifecycleOk, hl] at this

theorem State.Inv.framedOk {s : State} (h : s.Inv) (hl : s.lifecycle ≠ .unconfigured) : s.FramedOk := by
  cases hs : s.lifecycle with
  | unconfigured => exact absurd hs hl
  | constructed => exact (h.constructedOk hs).1
  | ready => exact (h.readyWith hs).choose_spec.1

/-- The block of a constructed FE fits the block spaces (R53, R77). -/
theorem State.FramedOk.nSamp_le {s : State} (h : s.FramedOk) : s.nSamp ≤ Config.maxSamples := by
  obtain ⟨⟨_, _, _, _, _, _, _, _, _, hle⟩, _, _⟩ := h
  exact hle

/-! ## Ending a command (R147) and taking an error (R312) -/

theorem State.finish_sameInstance (s : State) (code : Word) (info : Nat) : SameInstance s (s.finish code info) :=
  ⟨⟨rfl, ⟨rfl, rfl, rfl, rfl⟩, rfl⟩, rfl⟩

theorem State.inv_finish {s : State} (h : s.Inv) (code : Word) (info : Nat) : (s.finish code info).Inv :=
  (s.finish_sameInstance code info).inv h h.1

theorem State.inv_okResult {s : State} (h : s.Inv) : (s.setCsr s.csr.okResult).Inv := by
  rw [← State.finish_ok]
  exact State.inv_finish h _ _

theorem State.inv_refusedWith {s : State} (h : s.Inv) (code info : Word) : (s.refusedWith code info).Inv :=
  SameInstance.inv (s := s) ⟨⟨rfl, ⟨rfl, rfl, rfl, rfl⟩, rfl⟩, rfl⟩ h h.1

theorem State.inv_voidOutputs {s : State} (h : s.Inv) (i : Instr) : (s.voidOutputs i).Inv := by
  refine SameInstance.inv (s := s) ?_ h (State.wf_voidOutputs h.1)
  cases i <;> exact ⟨⟨rfl, ⟨rfl, rfl, rfl, rfl⟩, rfl⟩, rfl⟩

theorem State.wf_teardown {s : State} (h : s.mem.wf) : s.teardown.mem.wf := by
  obtain ⟨m1, m2, m3, m4, m5, m6, m7, m8, m9, m10, _⟩ := h
  rw [State.teardown_mem]
  exact ⟨m1, m2, m3, m4, m5, m6, m7, m8, m9, m10, Space.wf_unspecified _, Space.wf_unspecified _, Space.wf_unspecified _,
    Space.wf_unspecified _, Space.wf_unspecified _, Space.wf_unspecified _, Space.wf_unspecified _⟩

/-- Teardown leaves an unconfigured FE, in any state whose spaces are canonical (R144). -/
theorem State.inv_teardown {s : State} (hm : s.mem.wf) (hc : s.lifecycle = .unconfigured → s.ece.ctx = none) :
    s.teardown.Inv := by
  refine ⟨State.wf_teardown hm, ?_⟩
  rw [State.LifecycleOk, State.teardown_lifecycle]
  refine ⟨?_, ?_, ?_, ?_, State.teardown_ctx hc⟩
  · rw [State.teardown_csr]
    exact ⟨rfl, rfl, rfl, rfl⟩
  · rw [State.teardown_mem]
  · rw [State.teardown_mem]
  · unfold State.ShadowsUnspecified
    rw [State.teardown_mem]
    exact ⟨rfl, rfl, rfl, rfl, rfl⟩

/-- Taking an error keeps the invariant: a ConfigurationError needs no more of the lifecycle state than that there is
no context in UNCONFIGURED. -/
theorem State.inv_takeError {i : Instr} {e : Err} {u : State} (hm : u.mem.wf)
    (hconf : classOf e.cause = .configurationError → u.lifecycle = .unconfigured → u.ece.ctx = none)
    (hcall : classOf e.cause ≠ .configurationError → u.LifecycleOk) : (u.takeError i e).Inv := by
  cases hc : classOf e.cause with
  | configurationError =>
    rw [State.takeError_configuration u hc]
    exact State.inv_finish (State.inv_teardown hm (hconf hc)) _ _
  | framingViolation =>
    rw [State.takeError_perCall u (.inl hc)]
    exact State.inv_finish (State.inv_voidOutputs ⟨hm, hcall (by simp [hc])⟩ i) _ _
  | decoderStalled =>
    rw [State.takeError_perCall u (.inr hc)]
    exact State.inv_finish (State.inv_voidOutputs ⟨hm, hcall (by simp [hc])⟩ i) _ _
  | sequenceError =>
    rw [State.takeError_sequence u hc]
    exact State.inv_finish ⟨hm, hcall (by simp [hc])⟩ _ _

/-! ## INIT, CONFIGURE, SYNTH -/

theorem none_failed_iff {c : Prop} [Decidable c] {x : Err} {o : Option Err} :
    (if c then some x else o) = none ↔ ¬ c ∧ o = none := by
  split <;> simp [*]

/-- A shape that passes INIT's checks is legal (R53, R142). -/
theorem initCheck_none {w h d p r q : Nat} (hc : initCheck w h d p r q = none) : LegalShape w h d p := by
  simp only [initCheck, none_failed_iff] at hc
  obtain ⟨hp, hw, hh, hd, hw8, hh8, hd8, hwr, hhd, hcap, _⟩ := hc
  exact ⟨by omega, by omega, by omega, by omega, by omega, by omega, by omega, by omega, by omega, by omega⟩

theorem huffCheck_none {info ncls : Nat} {cnt : List Half} (hc : huffCheck info ncls cnt = none) :
    symbolTotal cnt ≤ 256 ∧ ∀ c ∈ cnt, c.toNat ≤ 255 := by
  simp only [huffCheck, none_failed_iff] at hc
  obtain ⟨_, htotal, hany, _⟩ := hc
  exact ⟨by omega, by simpa using hany⟩

/-- Tables that pass CONFIGURE's checks are good tables (R161). -/
theorem tablesOk_readStaging {s : State} {q n m : Nat}
    (hc : configureCheck q n m s.readStaging.cntDC s.readStaging.cntAC = none) : TablesOk s.readStaging := by
  simp only [configureCheck, none_failed_iff] at hc
  obtain ⟨_, hc⟩ := hc
  split at hc
  · cases hc
  · next hdc =>
    obtain ⟨td, bd⟩ := huffCheck_none hdc
    obtain ⟨ta, ba⟩ := huffCheck_none hc
    exact ⟨Space.length_readRange .., Space.length_readRange .., Space.length_readRange .., Space.length_readRange ..,
      Space.length_readRange .., td, ta, bd, ba⟩

theorem synthHeader_length (w h d p : Nat) : (synthHeader w h d p).length = 25 := rfl

theorem inv_initBody_done {s u : State} (hs : s.Inv) (hl : s.lifecycle = .unconfigured) (h : initBody s = .done u) : u.Inv := by
  obtain ⟨hc, v, hv, hctx, rfl⟩ := initBody_done h
  obtain ⟨_, _, _, hsh, _⟩ := hs.unconfiguredOk hl
  have hsv : v.ShadowsUnspecified := by
    unfold State.ShadowsUnspecified
    rw [hv.mem]
    exact hsh
  have hlegal := initCheck_none hc
  rw [← hv.csr] at hlegal hctx
  exact ⟨Memory.wf_setFraming (by rw [hv.mem]; exact hs.1) (synthHeader_length ..).le (Nat.le_refl 2),
    ⟨hlegal, rfl, rfl⟩, hsv, hctx⟩

/-- In CONSTRUCTED and READY the context is idle and holds the latched precision (R50). -/
theorem State.Inv.context {s : State} (h : s.Inv) (hl : s.lifecycle ≠ .unconfigured) :
    ∃ c, s.ece.ctx = some ⟨c, .idle⟩ ∧ c.precision = s.precision := by
  cases hs : s.lifecycle with
  | unconfigured => exact absurd hs hl
  | constructed => exact ⟨_, (h.constructedOk hs).2.2, rfl⟩
  | ready =>
    obtain ⟨tabs, _, _, _, _, _, _, _, hctx⟩ := h.readyWith hs
    exact ⟨_, hctx, rfl⟩

theorem inv_configureBody_done {s u : State} (hs : s.Inv) (hl : s.lifecycle ≠ .unconfigured) (h : configureBody s = .done u) :
    u.Inv := by
  obtain ⟨hc, hi⟩ := configureBody_done h
  obtain ⟨v, hv, rfl, hctx⟩ := inject_done hi
  have htab := tablesOk_readStaging hc
  obtain ⟨lcd, lca, lq, lsd, lsa, td, ta, _, _⟩ := id htab
  obtain ⟨c, hctxs, hprec⟩ := hs.context hl
  have hv : EceOnly s v := (s.advance_eceOnly 608).trans hv
  have hframe : v.FramedOk := by
    have hf := hs.framedOk hl
    unfold State.FramedOk at hf ⊢
    rw [hv.precision, hv.width, hv.mem]
    simpa [State.height, State.depth, hv.csr] using hf
  refine ⟨Memory.wf_setShadows (by rw [hv.mem]; exact hs.1) lq.le (huffCounts_length lcd).le (huffValues_length td lsd).le
    (huffCounts_length lca).le (huffValues_length ta lsa).le, s.readStaging, hframe, htab, rfl, rfl, rfl, rfl, rfl, ?_⟩
  have hctxv := hctx ⟨c, .idle⟩ hctxs
  have hp : (v.install s.readStaging).precision = c.precision := hv.precision.trans hprec.symm
  rw [hp]
  exact hctxv

/-- SYNTH stores what header and footer hold already (R182). -/
theorem inv_synthBody_done {s u : State} (hs : s.Inv) (hl : s.lifecycle ≠ .unconfigured) (h : synthBody s = .done u) : u.Inv := by
  cases h
  obtain ⟨_, hh, hf⟩ := hs.framedOk hl
  refine SameInstance.inv (s := s) ⟨⟨rfl, ⟨rfl, rfl, rfl, rfl⟩, ?_⟩, rfl⟩ hs
    (Memory.wf_setFraming hs.1 (synthHeader_length ..).le (Nat.le_refl 2))
  rw [Memory.built, ← hh, ← hf]
  rfl

/-! ## Commands that only move blocks and streams -/

theorem State.blockRows_flatten_length (s : State) : s.blockRows.flatten.length = s.nSamp := by
  rw [State.flatten_blockRows, List.length_map, List.length_range]

theorem State.rowSamples_length (s : State) : s.rowSamples.length = s.nSamp := by
  rw [State.rowSamples_eq, List.length_map, List.length_range]

theorem State.inv_mapBlock {s : State} (hs : s.Inv) (hl : s.lifecycle ≠ .unconfigured) : s.mapBlock.Inv :=
  SameInstance.inv (s := s) ⟨⟨rfl, ⟨rfl, rfl, rfl, rfl⟩, rfl⟩, rfl⟩ hs
    (State.wf_mapBlock hs.1 (by rw [State.blockRows_flatten_length]; exact (hs.framedOk hl).nSamp_le))

theorem State.inv_unmapRows {s : State} (hs : s.Inv) (hl : s.lifecycle ≠ .unconfigured) : s.unmapRows.Inv :=
  SameInstance.inv (s := s) ⟨⟨rfl, ⟨rfl, rfl, rfl, rfl⟩, rfl⟩, rfl⟩ hs
    (State.wf_unmapRows hs.1 (by rw [State.rowSamples_length]; exact (hs.framedOk hl).nSamp_le))

theorem inv_stuffBody_done {s u : State} (hs : s.Inv) (h : stuffBody s = .done u) : u.Inv := by
  obtain ⟨out, hle, rfl⟩ := stuffBody_done h
  exact SameInstance.inv (s := s) ⟨⟨rfl, ⟨rfl, rfl, rfl, rfl⟩, rfl⟩, rfl⟩ hs (Memory.wf_setEbuf hs.1 hle)

theorem inv_unstuffBody_done {s u : State} (hs : s.Inv) (h : unstuffBody s = .done u) : u.Inv := by
  obtain ⟨out, hle, rfl⟩ := unstuffBody_done h
  exact SameInstance.inv (s := s) ⟨⟨rfl, ⟨rfl, rfl, rfl, rfl⟩, rfl⟩, rfl⟩ hs (Memory.wf_setPbuf hs.1 hle)

/-! ## ENCODE and DECODE: the context after an image and after a recovery -/

/-- The shadows in READY read as the injected tables, whatever the draws (R49, R163). -/
theorem SameButContext.shadowTables {s u : State} {tabs : StagedTables} (h : SameButContext s u) (hs : s.ReadyWith tabs) :
    u.shadowTables = ⟨s.precision, some tabs.quant, some (dcTable tabs), some (acTable tabs)⟩ := by
  obtain ⟨_, ⟨lcd, lca, lq, lsd, lsa, td, ta, _, _⟩, hq, hcd, hvd, hca, hva, _⟩ := hs
  have counts : ∀ {c : List Half} (draw : Nat), c.length = 16 →
      (Space.exactly (huffCounts c)).readRange draw 0 16 = (huffCounts c).take 16 :=
    fun draw hc => Space.readRange_exactly_prefix _ draw 16 (by rw [huffCounts_length hc]; omega)
  have values : ∀ {c : List Half} {v : List Byte} (draw : Nat), symbolTotal c ≤ 256 → v.length = 256 →
      (Space.exactly (huffValues c v)).readRange draw 0 256 = huffValues c v :=
    fun draw hc hv => huffValues_length hc hv ▸ Space.readRange_exactly _ draw
  have quant : ∀ draw, (Space.exactly tabs.quant).readRange draw 0 64 = tabs.quant :=
    fun draw => lq ▸ Space.readRange_exactly _ draw
  unfold State.shadowTables
  rw [h.qtab, h.hufCntDC, h.hufValDC, h.hufCntAC, h.hufValAC, hq, hcd, hvd, hca, hva, h.cfg.precision, quant, counts _ lcd,
    counts _ lca, values _ td lsd, values _ ta lsa]
  rfl

/-- An image that is driven to its end leaves the context as it was in READY (R242, R292). -/
theorem SameButContext.afterImage {s u : State} {tabs : StagedTables} (h : SameButContext s u) (hs : s.ReadyWith tabs)
    (hc : u.ece.ctx = some ⟨s.eceCfg, .idle⟩) : SameInstance s u := by
  obtain ⟨_, _, _, _, _, _, _, hctx⟩ := hs
  refine ⟨h, ?_⟩
  rw [hc, State.eceCfg, hctx]

/-- A recovery that succeeds leaves the context as it was in READY before the image (R298). -/
theorem SameButContext.afterRecovery {s u t : State} {tabs : StagedTables} (h : SameButContext s u) (hs : s.ReadyWith tabs)
    (hr : u.recover = some t) : SameInstance s t := by
  obtain ⟨hu, hctx⟩ := State.recover_spec hr
  rw [h.shadowTables hs] at hctx
  obtain ⟨_, _, _, _, _, _, _, hctxs⟩ := hs
  exact ⟨h.trans hu.toXbuf.sameButContext, hctx.trans hctxs.symm⟩

theorem unstuffFrom_length_le {k : Nat} {y p : List Byte} (h : unstuffFrom k y = .ok p) : p.length ≤ y.length := by
  induction k, y using unstuffFrom.induct generalizing p with
  | case1 k => cases h; simp
  | case2 k => simp [unstuffFrom] at h
  | case3 k rest out ho ih =>
    simp only [unstuffFrom, if_true, ho, Except.ok.injEq] at h
    have hle := ih ho
    subst h
    simp only [List.length_cons]
    omega
  | case4 k rest e he => simp [unstuffFrom, he] at h
  | case5 k z rest hz => simp [unstuffFrom, hz] at h
  | case6 k b rest hb out ho ih =>
    rw [unstuffFrom.eq_def] at h
    simp only [if_neg hb, ho, Except.ok.injEq] at h
    have hle := ih ho
    subst h
    simpa only [List.length_cons, Nat.add_le_add_iff_right] using hle
  | case7 k b rest hb e he =>
    rw [unstuffFrom.eq_def] at h
    simp [hb, he] at h

/-- The payload of an accepted stream fits PBUF: PBUF_CAP is at least EBUF_CAP − 27 (R9, R241). -/
theorem acceptStream_ok_length {hdr ftr out p : List Byte} (h : acceptStream hdr ftr out = .ok p) :
    p.length ≤ Config.pbufCap := by
  obtain ⟨hle, _, hu⟩ := acceptStream_ok h
  have hp : p.length ≤ (entropyRegion out).length := unstuffFrom_length_le hu
  have he : (entropyRegion out).length ≤ out.length - 27 := by simp [entropyRegion]
  unfold Config.ebufCap at hle
  unfold Config.pbufCap
  omega

theorem State.beforeCompress_sameButContext (s : State) : SameButContext s s.beforeCompress :=
  ⟨rfl, ⟨rfl, rfl, rfl, rfl⟩, rfl⟩

theorem State.wf_beforeCompress {s : State} (hm : s.mem.wf) (hn : s.nSamp ≤ Config.maxSamples) : s.beforeCompress.mem.wf :=
  State.wf_mapBlock (State.wf_voidEncode hm) (by rw [State.blockRows_flatten_length]; exact hn)

/-- An ENCODE whose engine run ends normally leaves an idle context with the tables it had (R242, R287). -/
theorem driveCompress_beforeCompress_ctx {hdr ftr out : List Byte} {s u : State}
    (hd : driveCompress hdr ftr s.beforeCompress = .ok out u) : u.ece.ctx = some ⟨s.eceCfg, .idle⟩ :=
  (driveCompress_ok hd ((State.advance_eceOnly _ 27).xbufHolds s.voidEncode.mapBlock_xbufHolds)).1

theorem inv_encodeBody_done {s u : State} (hs : s.Inv) (hl : s.lifecycle = .ready) (h : encodeBody s = .done u) : u.Inv := by
  obtain ⟨out, p, v, hd, ha, rfl⟩ := encodeBody_done h
  obtain ⟨tabs, hready⟩ := hs.readyWith hl
  have hv := driveCompress_ok_eceOnly hd
  have hsame : SameInstance s v := (s.beforeCompress_sameButContext.trans hv.toXbuf.sameButContext).afterImage hready
    (driveCompress_beforeCompress_ctx hd)
  have hm : v.mem.wf := by
    rw [hv.mem]
    exact State.wf_beforeCompress hs.1 hready.1.nSamp_le
  exact SameInstance.inv (s := v) ⟨⟨rfl, ⟨rfl, rfl, rfl, rfl⟩, rfl⟩, rfl⟩ (hsame.inv hs hm)
    (Memory.wf_setPbuf (Memory.wf_setEbuf hm (acceptStream_ok ha).1) (acceptStream_ok_length ha))

theorem inv_encodeBody_raise {s u : State} {e : Err} (hs : s.Inv) (hl : s.lifecycle = .ready) (h : encodeBody s = .raise e u) :
    u.Inv := by
  obtain ⟨tabs, hready⟩ := hs.readyWith hl
  have hsame : SameInstance s u := by
    obtain ⟨v, hd, hr, _⟩ | ⟨out, hd, _⟩ := encodeBody_raise h
    · exact (s.beforeCompress_sameButContext.trans (driveCompress_bad_eceOnly hd).toXbuf.sameButContext).afterRecovery hready hr
    · exact (s.beforeCompress_sameButContext.trans (driveCompress_ok_eceOnly hd).toXbuf.sameButContext).afterImage hready
        (driveCompress_beforeCompress_ctx hd)
  refine hsame.inv hs ?_
  rw [(encodeBody_raise_frame h).2.mem]
  exact State.wf_beforeCompress hs.1 hready.1.nSamp_le

/-- Delivered rows of the image lie in XBUF (R77, R290). -/
theorem State.wf_deliverRows {s : State} {a n : Nat} (hm : s.mem.wf) (hn : s.nSamp ≤ Config.maxSamples) (ha : a + n ≤ s.nRows) :
    (s.deliverRows a n).mem.wf := by
  obtain ⟨m1, m2, m3, m4, m5, m6, m7, m8, m9⟩ := hm
  have hle : rowPtr s.width a + n * s.width ≤ Config.maxSamples := by
    calc rowPtr s.width a + n * s.width = (a + n) * s.width := by rw [rowPtr, Nat.add_mul]
      _ ≤ s.nRows * s.width := Nat.mul_le_mul_right _ ha
      _ = s.nSamp := by rw [State.nRows, State.nSamp]; ring
      _ ≤ Config.maxSamples := hn
  have hx := Space.wf_write m8 (a := rowPtr s.width a)
    (vs := (List.range (n * s.width)).map fun k => s.eceDec s.precision s.decKey (rowPtr s.width a + k)) (by simpa using hle)
  unfold State.deliverRows
  dsimp only
  split <;> exact ⟨m1, m2, m3, m4, m5, m6, m7, hx, m9⟩

theorem State.wf_eceReadScanlines {s : State} {done : Nat} (hm : s.mem.wf) (hn : s.nSamp ≤ Config.maxSamples)
    (hd : done ≤ s.nRows) : (s.eceReadScanlines done).2.mem.wf := by
  have hi := s.issue_eceOnly (.readScanlines (rowPtrs s.width done (s.nRows - done)) (s.nRows - done))
  unfold State.eceReadScanlines
  dsimp only
  generalize s.issue (.readScanlines (rowPtrs s.width done (s.nRows - done)) (s.nRows - done)) = a at *
  have hma : a.2.mem.wf := by rw [hi.mem]; exact hm
  split
  · exact hma
  · split
    · exact hma
    · split
      · exact hma
      · exact State.wf_deliverRows hma (by rw [hi.nSamp]; exact hn) (by rw [hi.nRows]; omega)

theorem wf_readRows {fuel done : Nat} {s : State} (hm : s.mem.wf) (hn : s.nSamp ≤ Config.maxSamples) :
    (readRows fuel done s).state.mem.wf := by
  induction fuel generalizing done s with
  | zero => exact hm
  | succ fuel ih =>
    unfold readRows
    split
    · next hd =>
      have hma := State.wf_eceReadScanlines hm hn hd.le
      have ha := s.eceReadScanlines_eceAndXbuf done
      generalize s.eceReadScanlines done = a at *
      obtain ⟨n, t⟩ := a
      cases n with
      | error e => exact hma
      | ok n => exact ih hma (by rw [ha.nSamp]; exact hn)
    · exact hm

theorem wf_driveDecompress {stream : List Byte} {s : State} (hm : s.mem.wf) (hn : s.nSamp ≤ Config.maxSamples) :
    (driveDecompress stream s).state.mem.wf := by
  have h0 := s.eceReadHeader_eceOnly stream
  unfold driveDecompress
  dsimp only
  generalize s.eceReadHeader stream = b at h0
  split
  · exact h0.mem ▸ hm
  · have h1 : EceOnly s b.2.eceBeginDecompress.2 := h0.trans (State.issue_eceOnly _ _)
    generalize b.2.eceBeginDecompress = c at h1
    split
    · exact h1.mem ▸ hm
    · have h2 := wf_readRows (fuel := s.nRows) (done := 0) (s := c.2) (h1.mem ▸ hm) (by rw [h1.nSamp]; exact hn)
      generalize readRows s.nRows 0 c.2 = r at h2
      cases r with
      | bad e t => exact h2
      | ok a t =>
        have h3 := t.eceFinishDecompress_eceOnly
        dsimp only
        generalize t.eceFinishDecompress = f at h3
        split <;> exact h3.mem ▸ h2

theorem State.beforeFrame_sameInstance (s : State) : SameInstance s s.beforeFrame :=
  ⟨⟨rfl, ⟨rfl, rfl, rfl, rfl⟩, rfl⟩, rfl⟩

theorem State.inv_beforeFrame {s : State} (hs : s.Inv) : s.beforeFrame.Inv :=
  s.beforeFrame_sameInstance.inv hs (State.wf_voidDecode (s := s.advance s.csr.plen.toNat) hs.1)

theorem State.beforeDecompress_sameButContext (s : State) : SameButContext s s.beforeDecompress :=
  ⟨rfl, ⟨rfl, rfl, rfl, rfl⟩, rfl⟩

theorem State.wf_beforeDecompress {s : State} (hs : s.Inv) (hle : s.decodeStream.length ≤ Config.ebufCap) :
    s.beforeDecompress.mem.wf :=
  Memory.wf_setEbuf (State.inv_beforeFrame hs).1 hle

theorem inv_decodeBody_done {s u : State} (hs : s.Inv) (hl : s.lifecycle = .ready) (h : decodeBody s = .done u) : u.Inv := by
  obtain ⟨_, hle, v, hd, rfl⟩ := decodeBody_done h
  obtain ⟨tabs, hready⟩ := hs.readyWith hl
  have hsame : SameInstance s v := (s.beforeDecompress_sameButContext.trans
    (driveDecompress_ok_eceAndXbuf hd).sameButContext).afterImage hready (driveDecompress_ok hd).1
  have hm := wf_driveDecompress (stream := s.decodeStream) (State.wf_beforeDecompress hs hle) hready.1.nSamp_le
  rw [hd] at hm
  exact State.inv_unmapRows (hsame.inv hs hm) (by rw [hsame.lifecycle, hl]; decide)

theorem inv_decodeBody_raise {s u : State} {e : Err} (hs : s.Inv) (hl : s.lifecycle = .ready) (h : decodeBody s = .raise e u) :
    u.Inv := by
  obtain ⟨tabs, hready⟩ := hs.readyWith hl
  obtain ⟨_, _, rfl⟩ | ⟨_, _, _, rfl⟩ | ⟨_, hle, v, hd, hr, _⟩ := decodeBody_raise h
  · exact hs
  · exact State.inv_beforeFrame hs
  · have hsame : SameInstance s u := (s.beforeDecompress_sameButContext.trans
      (driveDecompress_bad_eceAndXbuf hd).sameButContext).afterRecovery hready hr
    have hm := wf_driveDecompress (stream := s.decodeStream) (State.wf_beforeDecompress hs hle) hready.1.nSamp_le
    rw [hd] at hm
    exact hsame.inv hs (by rw [(State.recover_spec hr).1.mem]; exact hm)

/-! ## Every command -/

theorem inv_commandBody_done {i : Instr} {s u : State} (hs : s.Inv) (hr : refusedIn i s.lifecycle = false)
    (h : commandBody i s = .done u) : u.Inv := by
  cases i with
  | nop => cases h; exact hs
  | init => exact inv_initBody_done hs (refusedIn_init_false hr) h
  | configure => exact inv_configureBody_done hs (refusedIn_false_constructed (by simp) hr) h
  | synth => exact inv_synthBody_done hs (refusedIn_false_constructed (by simp) hr) h
  | verify => rw [verifyBody_done h]; exact hs
  | map => cases h; exact State.inv_mapBlock hs (refusedIn_false_constructed (by simp) hr)
  | unmap => cases h; exact State.inv_unmapRows hs (refusedIn_false_constructed (by simp) hr)
  | stuff => exact inv_stuffBody_done hs h
  | unstuff => exact inv_unstuffBody_done hs h
  | encode => exact inv_encodeBody_done hs (refusedIn_false_ready (by simp) hr) h
  | decode => exact inv_decodeBody_done hs (refusedIn_false_ready (by simp) hr) h
  | clrerr =>
    cases h
    exact SameInstance.inv (s := s) ⟨⟨rfl, ⟨rfl, rfl, rfl, rfl⟩, rfl⟩, rfl⟩ hs hs.1
  | destroy =>
    cases h
    exact State.inv_teardown hs.1 hs.no_context

/-- The commands that raise per-call errors have kept the invariant when they raise them (R316, R318). -/
theorem inv_commandBody_raise {i : Instr} {s u : State} {e : Err} (hs : s.Inv) (hr : refusedIn i s.lifecycle = false)
    (hi : ¬ (i = .init ∨ i = .configure)) (h : commandBody i s = .raise e u) : u.Inv := by
  cases i with
  | nop | map | unmap | synth | clrerr | destroy => cases h
  | init | configure => simp at hi
  | verify => obtain ⟨_, _, rfl⟩ | ⟨_, _, rfl⟩ := verifyBody_raise h <;> exact hs
  | stuff => obtain ⟨_, _, rfl⟩ | ⟨_, _, rfl⟩ := stuffBody_raise h <;> exact hs
  | unstuff => obtain ⟨_, _, rfl⟩ | ⟨_, _, rfl⟩ := unstuffBody_raise h <;> exact hs
  | encode => exact inv_encodeBody_raise hs (refusedIn_false_ready (by simp) hr) h
  | decode => exact inv_decodeBody_raise hs (refusedIn_false_ready (by simp) hr) h

/-- INIT and CONFIGURE leave the spaces alone when they raise an error, and no context where there was none (R315). -/
theorem commandBody_raise_configuration {i : Instr} {s u : State} {e : Err} (hr : refusedIn i s.lifecycle = false)
    (hi : i = .init ∨ i = .configure) (h : commandBody i s = .raise e u) :
    u.mem = s.mem ∧ (u.lifecycle = .unconfigured → u.ece.ctx = s.ece.ctx) := by
  rcases hi with rfl | rfl
  · obtain ⟨hu, hctx, _⟩ := initBody_raise h
    exact ⟨hu.mem, fun _ => hctx⟩
  · have hu := (configureBody_raise h).1
    exact ⟨hu.mem, fun hl => absurd (hu.lifecycle.symm.trans hl) (refusedIn_false_constructed (by simp) hr)⟩

theorem inv_exec {i : Instr} {s t : State} (hs : s.Inv) (h : exec i s = .next t) : t.Inv := by
  cases exec_next h with
  | nop hi ht => exact ht ▸ hs
  | refused hi hr ht => exact ht ▸ State.inv_refusedWith hs _ _
  | done hi hr u hb ht => exact ht ▸ State.inv_okResult (inv_commandBody_done hs hr hb)
  | raised hi hr e u hb ht =>
    rw [ht]
    by_cases hc : i = .init ∨ i = .configure
    · obtain ⟨hm, hctx⟩ := commandBody_raise_configuration hr hc hb
      have hclass := (commandBody_raise_class hb).2 hc
      refine State.inv_takeError (hm ▸ hs.1) (fun _ hl => ?_) (fun hne => absurd hclass hne)
      rw [hctx hl]
      rw [(commandBody_raise hb).2] at hl
      exact hs.no_context hl
    · have hu := inv_commandBody_raise hs hr hc hb
      exact State.inv_takeError hu.1 (fun _ => hu.no_context) (fun _ => hu.2)

/-! ## The host's other accesses (R31, R350) -/

theorem Csrs.hostWrite_sameCfg (c : Csrs) (n : Nat) (v : Word) : c.SameCfg (c.hostWrite n v) := by
  unfold Csrs.hostWrite
  split <;> exact ⟨rfl, rfl, rfl, rfl⟩

/-- The host writes no header, no footer and no shadow (R40, R46, R49). -/
theorem Memory.built_writeHalf (m : Memory) (id i : Nat) (v : Half) : (m.writeHalf id i v).built = m.built := by
  unfold Memory.writeHalf
  split <;> rfl

theorem Memory.built_writeByte (m : Memory) (id i : Nat) (v : Byte) : (m.writeByte id i v).built = m.built := by
  unfold Memory.writeByte
  split <;> rfl

theorem State.inv_hostWriteHalf {s t : State} {id i : Nat} {v : Half} (hs : s.Inv) (h : s.hostWriteHalf id i v = .next t) :
    t.Inv := by
  unfold State.hostWriteHalf at h
  split at h
  · cases h; exact hs
  · next info hi =>
    split at h
    · cases h; exact hs
    · next hw =>
      split at h <;> cases h
      exact SameInstance.inv (s := s) ⟨⟨rfl, .refl _, Memory.built_writeHalf ..⟩, rfl⟩ hs (Memory.wf_writeHalf hs.1 hi (by omega) v)

theorem State.inv_hostWriteByte {s t : State} {id i : Nat} {v : Byte} (hs : s.Inv) (h : s.hostWriteByte id i v = .next t) :
    t.Inv := by
  unfold State.hostWriteByte at h
  split at h
  · cases h; exact hs
  · next info hi =>
    split at h
    · cases h; exact hs
    · next hw =>
      split at h <;> cases h
      exact SameInstance.inv (s := s) ⟨⟨rfl, .refl _, Memory.built_writeByte ..⟩, rfl⟩ hs (Memory.wf_writeByte hs.1 hi (by omega) v)

/-- Reading an element changes what the read returned and the counter of free values, on which the invariant does not depend. -/
theorem State.inv_hostReadElem {s : State} (hs : s.Inv) (id i : Nat) : (s.hostReadElem id i).Inv := by
  unfold State.hostReadElem
  split
  · exact hs
  · split <;> exact hs

theorem State.inv_hardwareReset (s : State) : s.hardwareReset.Inv :=
  ⟨Memory.wf_reset, ⟨rfl, rfl, rfl, rfl⟩, rfl, rfl, ⟨rfl, rfl, rfl, rfl, rfl⟩, rfl⟩

theorem inv_hostAccess {a : HostAccess} {s t : State} (hs : s.Inv) (h : s.hostAccess a = .next t) : t.Inv := by
  cases a with
  | readCsr n => cases h; exact hs
  | writeCsr n v => cases h; exact SameInstance.inv (s := s) ⟨⟨rfl, Csrs.hostWrite_sameCfg .., rfl⟩, rfl⟩ hs hs.1
  | readElem id i => cases h; exact State.inv_hostReadElem hs id i
  | writeByte id i v => exact State.inv_hostWriteByte hs h
  | writeHalf id i v => exact State.inv_hostWriteHalf hs h
  | hardwareReset => cases h; exact State.inv_hardwareReset s

/-- Taking an access off the host's list changes nothing that the invariant speaks of. -/
theorem State.inv_setPending {s : State} (hs : s.Inv) (rest : List HostAccess) : (s.setPending rest).Inv := hs

/-- Settles O52: a step is idle, a command, an illegal word or another access of the host, and each keeps the invariant. -/
theorem stepKeepsTheInvariant : Obligations.StepKeepsTheInvariant := by
  intro s t hs h
  unfold step at h
  split at h
  · cases h; exact hs
  · next a rest hp =>
    have hs' := State.inv_setPending hs rest
    split at h
    · exact inv_hostAccess hs' h
    · split at h
      · cases h; exact State.inv_finish hs' _ _
      · exact inv_exec hs' h

/-- Settles O51: the reset state is the state after a hardware reset of itself. -/
theorem resetMeetsTheInvariants : Obligations.ResetMeetsTheInvariants := by
  refine ⟨State.inv_hardwareReset State.reset, ⟨by decide, fun h => absurd rfl h⟩, rfl, fun n => ?_, rfl, rfl⟩
  unfold State.csrValue
  split <;> rfl

end Sys2Proof.Machine
end

section
/-! PROOFS. What the invariant says in the terms of R53: the arrays of a Huffman specification slot by slot (R162), and the framing. -/

namespace Sys2Proof.Machine

/-! ## The arrays of a Huffman specification (R162) -/

theorem huffCounts_getD_lt {cnt : List Half} {k : Nat} (hk : k < cnt.length) :
    (huffCounts cnt).getD k 0#8 = cnt[k].setWidth 8 := by
  rw [huffCounts, List.getD_append _ _ _ _ (by simpa using hk), List.getD_eq_getElem _ _ (by simpa using hk), List.getElem_map]

/-- A count slot past the sixteen classes holds zero. -/
theorem huffCounts_getD_zero {cnt : List Half} {k : Nat} (hk : cnt.length ≤ k) : (huffCounts cnt).getD k 0#8 = 0#8 := by
  simp only [huffCounts, List.getD_eq_getElem?_getD]
  rw [List.getElem?_append_right (by simpa using hk), List.getElem?_replicate]
  split <;> rfl

/-- A symbol slot at or past the total holds zero. -/
theorem huffValues_getD_zero {cnt : List Half} {sym : List Byte} {j : Nat} (hj : symbolTotal cnt ≤ j) :
    (huffValues cnt sym).getD j 0#8 = 0#8 := by
  simp only [huffValues, List.getD_eq_getElem?_getD]
  rw [List.getElem?_append_right (by simp; omega), List.getElem?_replicate]
  split <;> rfl

/-- Counts that fit a byte lose nothing in the shadow, so its sixteen slots sum to the staged total (R161, R162). -/
theorem huffCounts_sum {cnt : List Half} (hlen : cnt.length = 16) (hfit : ∀ c ∈ cnt, c.toNat ≤ 255) :
    ((List.range 16).map fun k => ((huffCounts cnt).getD k 0#8).toNat).sum = symbolTotal cnt := by
  rw [symbolTotal]
  congr 1
  apply List.ext_getElem (by simp [hlen])
  intro k _ h2
  have hk : k < cnt.length := by simpa using h2
  have hc := hfit cnt[k] (List.getElem_mem hk)
  simp only [List.getElem_map, List.getElem_range, huffCounts_getD_lt hk, BitVec.toNat_setWidth]
  omega

theorem getElem?_of_getD {l : List Byte} {k : Nat} (hk : k < l.length) : l[k]? = some (l.getD k 0#8) := by
  simp [hk]

/-! ## The framing (R46, R180) -/

/-- HDR ++ FTR reads as `synth(w, h, d, P)` in CONSTRUCTED and READY, whatever the draws. -/
theorem State.FramedOk.readFraming {s : State} (h : s.FramedOk) (draw : Nat) :
    s.mem.hdr.readRange draw 0 25 ++ s.mem.ftr.readRange (draw + 25) 0 2
      = synthHeader s.width s.height s.depth s.precision ++ synthFooter := by
  obtain ⟨_, hh, hf⟩ := h
  rw [hh, hf]
  exact congrArg₂ (· ++ ·) (Space.readRange_exactly (synthHeader ..) draw) (Space.readRange_exactly synthFooter (draw + 25))

/-- Settles O54: in READY the shadows hold the arrays of tables that CONFIGURE's checks have passed. -/
theorem invariantGivesTheLaunchPremises : Obligations.InvariantGivesTheLaunchPremises := by
  intro s hs
  refine ⟨fun hl => (hs.unconfiguredOk hl).1, fun hl => ?_, fun hl => ?_⟩
  · have hf := hs.framedOk hl
    obtain ⟨hp, hw, hh, hd, hw8, hh8, hd8, hwr, hhd, hcap⟩ := hf.1
    exact ⟨hp, ⟨hw, hw8⟩, ⟨hh, hh8⟩, ⟨hd, hd8⟩, hwr, hhd, hcap, hf.readFraming⟩
  · obtain ⟨t, _, ⟨lcd, lca, _, lsd, lsa, td, ta, bd, ba⟩, _, hcd, hvd, hca, hva, _⟩ := hs.readyWith hl
    have sd := huffCounts_sum lcd bd
    have sa := huffCounts_sum lca ba
    refine ⟨fun k => (huffCounts t.cntDC).getD k 0#8, fun k => (huffCounts t.cntAC).getD k 0#8,
      fun k => (huffValues t.cntDC t.symDC).getD k 0#8, fun k => (huffValues t.cntAC t.symAC).getD k 0#8, ?_, sd.trans_le td,
      sa.trans_le ta, ?_, fun j hj _ => huffValues_getD_zero (sd ▸ hj), fun j hj _ => huffValues_getD_zero (sa ▸ hj)⟩
    · intro k hk
      rw [hcd, hvd, hca, hva]
      simp only [Space.get?_exactly]
      exact ⟨getElem?_of_getD (by rwa [huffCounts_length lcd]), getElem?_of_getD (by rwa [huffCounts_length lca]),
        getElem?_of_getD (by rwa [huffValues_length td lsd]), getElem?_of_getD (by rwa [huffValues_length ta lsa])⟩
    · intro k hk _
      exact ⟨huffCounts_getD_zero (by omega), huffCounts_getD_zero (by omega)⟩

end Sys2Proof.Machine
end

section
/-! PROOFS. The host's accesses one by one: CSRs by their numbers (R21, R31), elements by space and index (R31, R40). -/

namespace Sys2Proof.Machine

/-! ## What a step does with the host's next access -/

theorem step_idle {s : State} (h : s.host.pending = []) : step s = .next s := by
  unfold step
  split
  · rfl
  · next hp => simp [h] at hp

theorem step_access {s : State} {a : HostAccess} {rest : List HostAccess} (h : s.host.pending = a :: rest)
    (ha : commandWord a = none) : step s = (s.setPending rest).hostAccess a := by
  unfold step
  split
  · next hp => simp [h] at hp
  · next hp =>
    obtain ⟨rfl, rfl⟩ := List.cons.inj (h.symm.trans hp)
    rw [ha]

theorem step_command {s : State} {c : Word} {rest : List HostAccess} {i : Instr} (h : s.host.pending = .writeCsr 0 c :: rest)
    (hd : decode c = .ok i) : step s = exec i (s.setPending rest) := by
  unfold step
  split
  · next hp => simp [h] at hp
  · next hp =>
    obtain ⟨rfl, rfl⟩ := List.cons.inj (h.symm.trans hp)
    simp only [commandWord, hd]

/-- Settles O4: the write of CMD is the host's next access, and its word decodes. -/
theorem stepRunsDecodedCommand : Obligations.StepRunsDecodedCommand :=
  fun _ _ _ _ h hd => step_command h hd

/-- Settles O5. -/
theorem idleHostLeavesStateUnchanged : Obligations.IdleHostLeavesStateUnchanged :=
  fun _ h => step_idle h

/-! ## CSRs (R21, R25, R31) -/

theorem commandWord_writeCsr {n : Nat} (hn : n ≠ 0) (v : Word) : commandWord (.writeCsr n v) = none := by
  cases n with
  | zero => exact absurd rfl hn
  | succ n => rfl

/-- A host write of a CSR outside 4 to 14 is ignored (R31). -/
theorem Csrs.hostWrite_of_not_writable (c : Csrs) {n : Nat} (hn : ¬ (4 ≤ n ∧ n ≤ 14)) (v : Word) : c.hostWrite n v = c := by
  unfold Csrs.hostWrite
  split
  case h_12 => rfl
  all_goals omega

/-- A host write changes the RW register it names, as the host reads the CSRs, and no other (R21, R31). -/
theorem State.csrValue_hostWrite (s : State) (n m : Nat) (v : Word) :
    (s.setCsr (s.csr.hostWrite n v)).csrValue m = if m = n ∧ 4 ≤ n ∧ n ≤ 14 then v else s.csrValue m := by
  by_cases hn : 4 ≤ n ∧ n ≤ 14
  · by_cases hm : m = n
    · subst hm
      rw [if_pos ⟨rfl, hn⟩]
      obtain ⟨h4, h14⟩ := hn
      interval_cases m <;> rfl
    · rw [if_neg (fun h => hm h.1)]
      obtain ⟨h4, h14⟩ := hn
      interval_cases n <;> unfold State.csrValue <;> split <;> first | rfl | exact absurd rfl hm
  · rw [Csrs.hostWrite_of_not_writable _ hn, if_neg (fun h => hn h.2)]
    rfl

theorem Csrs.hostWrite_err (c : Csrs) (n : Nat) (v : Word) : (c.hostWrite n v).err = c.err := by
  unfold Csrs.hostWrite
  split <;> rfl

theorem State.csrValue_reserved (s : State) {n : Nat} (hn : n = 0 ∨ 19 ≤ n) : s.csrValue n = 0#32 := by
  unfold State.csrValue
  split
  case h_19 => rfl
  all_goals omega

theorem State.status_toNat (s : State) :
    s.status.toNat =
      (match s.lifecycle with | .unconfigured => 0 | .constructed => 1 | .ready => 2) + (if s.csr.err then 4 else 0) := by
  unfold State.status
  cases s.lifecycle <;> cases s.csr.err <;> rfl

/-- Settles O55: a CSR write is `hostWrite` on the state with the access taken off the list, and a read only reports. -/
theorem hostReachesRegisters : Obligations.HostReachesRegisters := by
  intro s n rest
  refine ⟨fun v h hn => ?_, fun h => step_access h rfl, s.csrValue_reserved, s.status_toNat, rfl, rfl, rfl, rfl, rfl, rfl, rfl, rfl,
    rfl, rfl, rfl, rfl, rfl, rfl, rfl, rfl, rfl⟩
  exact ⟨_, step_access h (commandWord_writeCsr hn v), fun m => (s.setPending rest).csrValue_hostWrite n m v, rfl,
    Csrs.hostWrite_err _ n v, rfl, rfl, rfl, rfl⟩

/-! ## Elements by their content (R31, R40) -/

theorem Space.get?_write_single {w : Nat} (sp : Space w) (a i : Nat) (v : BitVec w) :
    (sp.write a [v]).get? i = if i = a then some v else sp.get? i := by
  rw [Space.get?_write]
  by_cases h : i = a
  · simp [h]
  · rw [if_neg h, if_neg (by simp; omega)]

theorem Space.map_get?_write_single {w : Nat} (sp : Space w) (a i : Nat) (v : BitVec w) :
    ((sp.write a [v]).get? i).map (BitVec.setWidth 32) = if i = a then some (v.setWidth 32) else (sp.get? i).map (BitVec.setWidth 32) := by
  rw [Space.get?_write_single]
  split <;> rfl

/-- The u16 spaces that the host may write (R40). -/
def HostHalfSpace (id : Nat) : Prop := id = 1 ∨ id = 2 ∨ id = 4 ∨ id = 6 ∨ id = 8

/-- The u8 spaces that the host may write (R40). -/
def HostByteSpace (id : Nat) : Prop := id = 3 ∨ id = 5 ∨ id = 9 ∨ id = 10

/-- Writing an element of a writable u16 space changes its content and no other element's. -/
theorem Memory.content_writeHalf (m : Memory) {id : Nat} (hid : HostHalfSpace id) (i : Nat) (v : Half) (id' i' : Nat) :
    (m.writeHalf id i v).content id' i' = if id' = id ∧ i' = i then some (v.setWidth 32) else m.content id' i' := by
  by_cases h : id' = id
  · subst h
    simp only [true_and]
    rcases hid with rfl | rfl | rfl | rfl | rfl <;> exact Space.map_get?_write_single _ i i' v
  · rw [if_neg (fun hc => h hc.1)]
    rcases hid with rfl | rfl | rfl | rfl | rfl <;> unfold Memory.content <;> split <;> first | rfl | exact absurd rfl h

/-- Writing an element of a writable u8 space changes its content and no other element's. -/
theorem Memory.content_writeByte (m : Memory) {id : Nat} (hid : HostByteSpace id) (i : Nat) (v : Byte) (id' i' : Nat) :
    (m.writeByte id i v).content id' i' = if id' = id ∧ i' = i then some (v.setWidth 32) else m.content id' i' := by
  by_cases h : id' = id
  · subst h
    simp only [true_and]
    rcases hid with rfl | rfl | rfl | rfl <;> exact Space.map_get?_write_single _ i i' v
  · rw [if_neg (fun hc => h hc.1)]
    rcases hid with rfl | rfl | rfl | rfl <;> unfold Memory.content <;> split <;> first | rfl | exact absurd rfl h

/-- The two writings of the space map agree (R40). -/
theorem spaceSize_eq (id : Nat) : spaceSize id = (spaceInfo id).map fun info => (info.len, info.width) := by
  rcases Nat.lt_or_ge id 18 with h | h
  · interval_cases id <;> rfl
  · obtain ⟨k, rfl⟩ := Nat.exists_eq_add_of_le' h
    rfl

theorem Space.read_setWidth {w : Nat} (sp : Space w) (draw i : Nat) :
    (sp.read draw i).setWidth 32 = ((sp.get? i).map (BitVec.setWidth 32)).getD ((Config.freeBits w draw).setWidth 32) := by
  rw [Space.read]
  cases sp.get? i <;> rfl

/-- The host reads an element as its content, or as a free value of the element's width (R31, log 2). -/
theorem Memory.hostElem_eq (m : Memory) {id len width : Nat} (h : spaceSize id = some (len, width)) (draw i : Nat) :
    m.hostElem draw id i = (m.content id i).getD ((Config.freeBits width draw).setWidth 32) := by
  unfold spaceSize at h
  split at h <;> simp only [Option.some.injEq, Prod.mk.injEq, reduceCtorEq] at h
  all_goals
    obtain ⟨-, rfl⟩ := h
    exact Space.read_setWidth ..

theorem Memory.hostElem_of_no_space (m : Memory) {id : Nat} (h : spaceSize id = none) (draw i : Nat) :
    m.hostElem draw id i = 0#32 := by
  unfold Memory.hostElem
  split
  case h_18 => rfl
  all_goals simp [spaceSize] at h

theorem Memory.content_of_no_space (m : Memory) {id : Nat} (h : spaceSize id = none) (i : Nat) : m.content id i = none := by
  unfold Memory.content
  split
  case h_18 => rfl
  all_goals simp [spaceSize] at h

/-- What the host reads depends on the content alone. -/
theorem Memory.hostElem_congr {m m' : Memory} {id i : Nat} (h : m'.content id i = m.content id i) (draw : Nat) :
    m'.hostElem draw id i = m.hostElem draw id i := by
  cases hs : spaceSize id with
  | none => rw [Memory.hostElem_of_no_space _ hs, Memory.hostElem_of_no_space _ hs]
  | some size => rw [Memory.hostElem_eq _ hs, Memory.hostElem_eq _ hs, h]

/-- A specified element reads as its content. -/
theorem Memory.hostElem_of_content {m : Memory} {id i : Nat} {v : Word} (h : m.content id i = some v) (draw : Nat) :
    m.hostElem draw id i = v := by
  cases hs : spaceSize id with
  | none => rw [Memory.content_of_no_space _ hs] at h; cases h
  | some size => rw [Memory.hostElem_eq _ hs, h]; rfl

/-! ## Host reads of elements -/

/-- No space, or no element at that index: the read returns 0 (R31). -/
theorem State.hostReadElem_none {s : State} {id i : Nat} (h : ∀ len width, spaceSize id = some (len, width) → len ≤ i) :
    s.hostReadElem id i = s.setReadData 0#32 := by
  unfold State.hostReadElem
  split
  · rfl
  · next info hi => exact if_pos (h info.len info.width (by rw [spaceSize_eq, hi]; rfl))

theorem State.hostReadElem_some {s : State} {id i len width : Nat} (hs : spaceSize id = some (len, width)) (hi : i < len) :
    s.hostReadElem id i
      = (s.setReadData ((s.mem.content id i).getD ((Config.freeBits width s.draws).setWidth 32))).advance 1 := by
  rw [← Memory.hostElem_eq _ hs]
  rw [spaceSize_eq] at hs
  unfold State.hostReadElem
  split
  · next hn => rw [hn] at hs; cases hs
  · next info hf =>
    rw [hf] at hs
    cases hs
    exact if_neg (by omega)

/-- A read of an element changes what the read returned, and draws at most one free value. -/
theorem State.hostReadElem_frame (s : State) (id i : Nat) :
    ∃ v n, s.hostReadElem id i = (s.setReadData v).advance n := by
  unfold State.hostReadElem
  split
  · exact ⟨0#32, 0, rfl⟩
  · split
    · exact ⟨0#32, 0, rfl⟩
    · exact ⟨_, 1, rfl⟩

/-- Settles O57: a read below a space's length returns the content or a free value, and any other read returns 0. -/
theorem hostReadsElements : Obligations.HostReadsElements := by
  intro s id i rest h
  obtain ⟨v, n, hframe⟩ := (s.setPending rest).hostReadElem_frame id i
  refine ⟨_, step_access h rfl, by rw [hframe]; rfl, by rw [hframe]; rfl, by rw [hframe]; rfl, by rw [hframe]; rfl,
    by rw [hframe]; rfl, fun hs => ?_, fun len width hs => ⟨fun hi => ?_, fun v hi hv => ?_, fun hi hv => ?_⟩⟩
  · rw [State.hostReadElem_none (by simp [hs])]
    rfl
  · rw [State.hostReadElem_none (by simpa [hs] using hi)]
    rfl
  · rw [State.hostReadElem_some hs hi, State.setPending_mem, hv]
    rfl
  · rw [State.hostReadElem_some hs hi, State.setPending_mem, hv]
    exact ⟨rfl, rfl⟩

/-! ## Host writes of elements -/

/-- The host may not write the element, or it does not exist. -/
def HostMayNotWrite (id i : Nat) : Prop := ∀ info, spaceInfo id = some info → info.hostWrites = false ∨ info.len ≤ i

/-- A host write of `width` bits reaches an element of that width. -/
def HostMayWrite (width id i : Nat) : Prop :=
  ∃ info, spaceInfo id = some info ∧ info.hostWrites = true ∧ i < info.len ∧ info.width = width

theorem State.hostWriteHalf_ignored {s : State} {id i : Nat} (h : HostMayNotWrite id i) (v : Half) :
    s.hostWriteHalf id i v = .next s := by
  unfold State.hostWriteHalf
  split
  · rfl
  · next info hi => exact if_pos (h info hi)

theorem State.hostWriteByte_ignored {s : State} {id i : Nat} (h : HostMayNotWrite id i) (v : Byte) :
    s.hostWriteByte id i v = .next s := by
  unfold State.hostWriteByte
  split
  · rfl
  · next info hi => exact if_pos (h info hi)

theorem State.hostWriteHalf_of_may {s : State} {id i : Nat} (h : HostMayWrite 16 id i) (v : Half) :
    s.hostWriteHalf id i v = .next (s.setMem (s.mem.writeHalf id i v)) := by
  obtain ⟨info, hinfo, hw, hi, h16⟩ := h
  simp [State.hostWriteHalf, hinfo, hw, h16, Nat.not_le.mpr hi]

theorem State.hostWriteByte_of_may {s : State} {id i : Nat} (h : HostMayWrite 8 id i) (v : Byte) :
    s.hostWriteByte id i v = .next (s.setMem (s.mem.writeByte id i v)) := by
  obtain ⟨info, hinfo, hw, hi, h8⟩ := h
  simp [State.hostWriteByte, hinfo, hw, h8, Nat.not_le.mpr hi]

/-- A byte written to a u16 element is refused (log 12). -/
theorem State.hostWriteByte_refused {s : State} {id i : Nat} (h : HostMayWrite 16 id i) (v : Byte) :
    s.hostWriteByte id i v = .refused (.mixedWidthAccess id) := by
  obtain ⟨info, hinfo, hw, hi, h16⟩ := h
  simp [State.hostWriteByte, hinfo, hw, h16, Nat.not_le.mpr hi]

/-- The existing elements of the writable u16 spaces (R40). -/
theorem hostMayWrite_half {id i : Nat}
    (h : id = 1 ∧ i < 64 ∨ id = 2 ∧ i < 16 ∨ id = 4 ∧ i < 16 ∨ id = 6 ∧ i < Config.maxSamples
      ∨ id = 8 ∧ i < Config.maxSamples) :
    HostMayWrite 16 id i := by
  obtain ⟨rfl, hi⟩ | ⟨rfl, hi⟩ | ⟨rfl, hi⟩ | ⟨rfl, hi⟩ | ⟨rfl, hi⟩ := h <;> exact ⟨_, rfl, rfl, hi, rfl⟩

/-- The existing elements of the writable u8 spaces (R40). -/
theorem hostMayWrite_byte {id i : Nat}
    (h : id = 3 ∧ i < 256 ∨ id = 5 ∧ i < 256 ∨ id = 9 ∧ i < Config.ebufCap ∨ id = 10 ∧ i < Config.pbufCap) :
    HostMayWrite 8 id i := by
  obtain ⟨rfl, hi⟩ | ⟨rfl, hi⟩ | ⟨rfl, hi⟩ | ⟨rfl, hi⟩ := h <;> exact ⟨_, rfl, rfl, hi, rfl⟩

/-- Spaces that do not exist or are read-only (R31, R40). -/
theorem hostMayNotWrite_space {id : Nat} (h : id = 0 ∨ 18 ≤ id ∨ id = 7 ∨ (11 ≤ id ∧ id ≤ 17)) (i : Nat) :
    HostMayNotWrite id i := by
  intro info hinfo
  obtain rfl | h18 | rfl | ⟨h11, h17⟩ := h
  · cases hinfo
  · obtain ⟨k, rfl⟩ := Nat.exists_eq_add_of_le' h18
    cases hinfo
  · cases hinfo
    exact .inl rfl
  · interval_cases id <;> cases hinfo <;> exact .inl rfl

/-- Indices at and past the end of a writable u16 space (R31, R40). -/
theorem hostMayNotWrite_half {id i : Nat} (h : (id = 1 ∧ 64 ≤ i) ∨ (id = 2 ∧ 16 ≤ i) ∨ (id = 4 ∧ 16 ≤ i)
    ∨ (id = 6 ∧ Config.maxSamples ≤ i) ∨ (id = 8 ∧ Config.maxSamples ≤ i)) : HostMayNotWrite id i := by
  intro info hinfo
  obtain ⟨rfl, hi⟩ | ⟨rfl, hi⟩ | ⟨rfl, hi⟩ | ⟨rfl, hi⟩ | ⟨rfl, hi⟩ := h <;> cases hinfo <;> exact .inr hi

/-- Indices at and past the end of a writable u8 space (R31, R40). -/
theorem hostMayNotWrite_byte {id i : Nat} (h : (id = 3 ∧ 256 ≤ i) ∨ (id = 5 ∧ 256 ≤ i) ∨ (id = 9 ∧ Config.ebufCap ≤ i)
    ∨ (id = 10 ∧ Config.pbufCap ≤ i)) : HostMayNotWrite id i := by
  intro info hinfo
  obtain ⟨rfl, hi⟩ | ⟨rfl, hi⟩ | ⟨rfl, hi⟩ | ⟨rfl, hi⟩ := h <;> cases hinfo <;> exact .inr hi

/-- Settles O56: a write that reaches an element changes that element's content alone. -/
theorem hostWritesOneElement : Obligations.HostWritesOneElement := by
  intro s id i v rest h
  have hstep : step s = (s.setPending rest).hostWriteHalf id i v := step_access h rfl
  refine ⟨fun hw => ?_, fun hn => ?_⟩
  · have hid : HostHalfSpace id := by unfold HostHalfSpace; omega
    refine ⟨_, hstep.trans (State.hostWriteHalf_of_may (hostMayWrite_half hw) v), rfl, rfl, rfl, rfl, rfl, fun draw id' i' => ?_⟩
    have hc := s.mem.content_writeHalf hid i v id' i'
    rw [State.setMem_mem, State.setPending_mem]
    split
    · next he => rw [if_pos he] at hc; exact Memory.hostElem_of_content hc draw
    · next he => rw [if_neg he] at hc; exact Memory.hostElem_congr hc draw
  · refine hstep.trans (State.hostWriteHalf_ignored ?_ v)
    obtain h | h | h | h | h := hn
    · exact hostMayNotWrite_space (.inl h) i
    · exact hostMayNotWrite_space (.inr (.inl h)) i
    · exact hostMayNotWrite_space (.inr (.inr (.inl h))) i
    · exact hostMayNotWrite_space (.inr (.inr (.inr h))) i
    · exact hostMayNotWrite_half h

/-- Settles O60: a write that reaches an element changes that element's content alone; a u16 element refuses a byte. -/
theorem hostWritesOneByte : Obligations.HostWritesOneByte := by
  intro s id i v rest h
  have hstep : step s = (s.setPending rest).hostWriteByte id i v := step_access h rfl
  refine ⟨fun hw => ?_, fun hn => ?_, fun hw => hstep.trans (State.hostWriteByte_refused (hostMayWrite_half hw) v)⟩
  · have hid : HostByteSpace id := by unfold HostByteSpace; omega
    exact ⟨_, hstep.trans (State.hostWriteByte_of_may (hostMayWrite_byte hw) v), rfl, rfl, rfl, rfl, rfl,
      s.mem.content_writeByte hid i v⟩
  · refine hstep.trans (State.hostWriteByte_ignored ?_ v)
    obtain h | h | h | h | h | h | h | h | h := hn
    · exact hostMayNotWrite_space (.inl h) i
    · exact hostMayNotWrite_space (.inr (.inl h)) i
    · exact hostMayNotWrite_space (.inr (.inr (.inl h))) i
    · exact hostMayNotWrite_space (.inr (.inr (.inr h))) i
    · exact hostMayNotWrite_byte (.inl h)
    · exact hostMayNotWrite_byte (.inr (.inl h))
    · exact hostMayNotWrite_byte (.inr (.inr (.inl h)))
    · exact hostMayNotWrite_byte (.inr (.inr (.inr h)))
    · exact hostMayNotWrite_half h

end Sys2Proof.Machine
end

section
/-! PROOFS. STATUS.ERR gates nothing (R30): every operation commutes with setting the flag, up to the commands' own rule for it. -/

namespace Sys2Proof.Machine

section
variable (s : State) (b : Bool)

@[simp] theorem State.withErr_lifecycle : (s.withErr b).lifecycle = s.lifecycle := rfl
@[simp] theorem State.withErr_csr : (s.withErr b).csr = { s.csr with err := b } := rfl
@[simp] theorem State.withErr_mem : (s.withErr b).mem = s.mem := rfl
@[simp] theorem State.withErr_draws : (s.withErr b).draws = s.draws := rfl
@[simp] theorem State.withErr_width : (s.withErr b).width = s.width := rfl
@[simp] theorem State.withErr_nRows : (s.withErr b).nRows = s.nRows := rfl
@[simp] theorem State.withErr_precision : (s.withErr b).precision = s.precision := rfl
@[simp] theorem State.withErr_ecePhase : (s.withErr b).ecePhase = s.ecePhase := rfl
@[simp] theorem State.withErr_readHdr : (s.withErr b).readHdr = s.readHdr := rfl
@[simp] theorem State.withErr_readFtr : (s.withErr b).readFtr = s.readFtr := rfl

theorem State.advance_withErr (n : Nat) : (s.withErr b).advance n = (s.advance n).withErr b := rfl
theorem State.afterFraming_withErr : (s.withErr b).afterFraming = s.afterFraming.withErr b := rfl

/-! ## Transactions and recovery -/

theorem State.issue_withErr (t : Transaction) : (s.withErr b).issue t = (s.issue t).map id (State.withErr b) := by
  obtain ⟨l, c, m, ⟨ctx, port, replies, enc, dec⟩, h, d⟩ := s
  cases replies <;> rfl

theorem State.eceDestroy_withErr : (s.withErr b).eceDestroy = s.eceDestroy.withErr b := by
  unfold State.eceDestroy
  rw [State.issue_withErr]
  rfl

theorem State.eceCreate_withErr (p : Nat) : (s.withErr b).eceCreate p = (s.eceCreate p).map id (State.withErr b) := by
  unfold State.eceCreate
  rw [State.issue_withErr]
  obtain ⟨⟨e, n, o⟩, u⟩ := s.issue (.createContext p)
  cases e <;> rfl

theorem State.eceSetQuant_withErr (q : List Half) :
    (s.withErr b).eceSetQuant q = (s.eceSetQuant q).map id (State.withErr b) := by
  unfold State.eceSetQuant
  rw [State.issue_withErr]
  obtain ⟨⟨e, n, o⟩, u⟩ := s.issue (.setQuantTable 0 q)
  cases e <;> rfl

theorem State.eceSetHuffman_withErr (k : HuffKind) (t : HuffTable) :
    (s.withErr b).eceSetHuffman k t = (s.eceSetHuffman k t).map id (State.withErr b) := by
  unfold State.eceSetHuffman
  rw [State.issue_withErr]
  obtain ⟨⟨e, n, o⟩, u⟩ := s.issue (.setHuffmanTable k 0 t)
  cases e
  · cases k <;> rfl
  · rfl

theorem State.recover_withErr : (s.withErr b).recover = s.recover.map (State.withErr b) := by
  unfold State.recover
  simp only [State.withErr_mem, State.withErr_draws, State.withErr_precision, State.advance_withErr,
    State.eceDestroy_withErr, State.eceCreate_withErr]
  obtain ⟨e, c⟩ := (s.advance 608).eceDestroy.eceCreate s.precision
  cases e
  · simp only [Prod.map_apply, id_eq, Bool.false_eq_true, if_false, State.eceSetQuant_withErr]
    obtain ⟨e, x⟩ := c.eceSetQuant (s.mem.qtab.readRange s.draws 0 64)
    cases e
    · simp only [Prod.map_apply, id_eq, Bool.false_eq_true, if_false, State.eceSetHuffman_withErr]
      obtain ⟨e, y⟩ := x.eceSetHuffman .dc _
      cases e
      · simp only [Prod.map_apply, id_eq, Bool.false_eq_true, if_false, State.eceSetHuffman_withErr]
        obtain ⟨e, z⟩ := y.eceSetHuffman .ac _
        cases e <;> rfl
      · rfl
    · rfl
  · rfl

/-! ## Driving the engine -/

/-- The run with another value of STATUS.ERR in its state. -/
def EngineRun.withErr {α : Type} (b : Bool) : EngineRun α → EngineRun α
  | .ok a t => .ok a (t.withErr b)
  | .bad e t => .bad e (t.withErr b)

theorem State.eceBeginCompress_withErr : (s.withErr b).eceBeginCompress = s.eceBeginCompress.map id (State.withErr b) := by
  unfold State.eceBeginCompress
  rw [State.withErr_width, State.withErr_nRows, State.issue_withErr]
  obtain ⟨⟨e, n, o⟩, u⟩ := s.issue (.beginCompress s.width s.nRows 1)
  cases e <;> rfl

theorem State.acceptRows_withErr (a n : Nat) : (s.withErr b).acceptRows a n = (s.acceptRows a n).withErr b := by
  unfold State.acceptRows
  rw [State.withErr_ecePhase]
  cases s.ecePhase <;> rfl

theorem State.eceWriteScanlines_withErr (done : Nat) :
    (s.withErr b).eceWriteScanlines done = (s.eceWriteScanlines done).map id (State.withErr b) := by
  unfold State.eceWriteScanlines
  rw [State.withErr_width, State.withErr_nRows, State.issue_withErr]
  obtain ⟨⟨e, n, o⟩, u⟩ := s.issue (.writeScanlines (rowPtrs s.width done (s.nRows - done)))
  cases e
  · by_cases hc : n = 0 ∨ s.nRows - done < n
    · simp [hc]
    · simp [hc, State.acceptRows_withErr]
  · rfl

theorem writeRows_withErr (fuel done : Nat) (s : State) :
    writeRows fuel done (s.withErr b) = (writeRows fuel done s).withErr b := by
  induction fuel generalizing done s with
  | zero => rfl
  | succ fuel ih =>
    unfold writeRows
    rw [State.withErr_nRows, State.eceWriteScanlines_withErr]
    split
    · obtain ⟨n, t⟩ := s.eceWriteScanlines done
      cases n with
      | none => rfl
      | some n => exact ih (done + n) t
    · rfl

theorem State.eceFinishCompress_withErr (hdr ftr : List Byte) :
    (s.withErr b).eceFinishCompress hdr ftr = (s.eceFinishCompress hdr ftr).map id (State.withErr b) := by
  unfold State.eceFinishCompress
  rw [State.issue_withErr]
  obtain ⟨⟨e, n, o⟩, u⟩ := s.issue .finishCompress
  cases e <;> rfl

theorem driveCompress_withErr (hdr ftr : List Byte) :
    driveCompress hdr ftr (s.withErr b) = (driveCompress hdr ftr s).withErr b := by
  unfold driveCompress
  rw [State.withErr_nRows, State.eceBeginCompress_withErr]
  obtain ⟨e, u⟩ := s.eceBeginCompress
  cases e
  · simp only [Prod.map_apply, id_eq, Bool.false_eq_true, if_false, writeRows_withErr]
    cases writeRows s.nRows 0 u with
    | bad e t => rfl
    | ok a t =>
      simp only [EngineRun.withErr, State.eceFinishCompress_withErr]
      obtain ⟨o, v⟩ := t.eceFinishCompress hdr ftr
      cases o <;> rfl
  · rfl

theorem State.eceReadHeader_withErr (input : List Byte) :
    (s.withErr b).eceReadHeader input = (s.eceReadHeader input).map id (State.withErr b) := by
  unfold State.eceReadHeader
  rw [State.issue_withErr]
  obtain ⟨⟨e, n, o⟩, u⟩ := s.issue (.readHeader input)
  cases e <;> rfl

theorem State.eceBeginDecompress_withErr :
    (s.withErr b).eceBeginDecompress = s.eceBeginDecompress.map id (State.withErr b) := by
  unfold State.eceBeginDecompress
  rw [State.issue_withErr]
  rfl

theorem State.deliverRows_withErr (a n : Nat) : (s.withErr b).deliverRows a n = (s.deliverRows a n).withErr b := by
  unfold State.deliverRows
  rw [State.withErr_ecePhase]
  cases s.ecePhase <;> rfl

theorem State.eceReadScanlines_withErr (done : Nat) :
    (s.withErr b).eceReadScanlines done = (s.eceReadScanlines done).map id (State.withErr b) := by
  unfold State.eceReadScanlines
  rw [State.withErr_width, State.withErr_nRows, State.issue_withErr]
  obtain ⟨⟨e, n, o⟩, u⟩ := s.issue (.readScanlines (rowPtrs s.width done (s.nRows - done)) (s.nRows - done))
  cases e
  · by_cases h0 : n = 0
    · simp [h0]
    · by_cases hc : s.nRows - done < n
      · simp [h0, hc]
      · simp [h0, hc, State.deliverRows_withErr]
  · rfl

theorem readRows_withErr (fuel done : Nat) (s : State) :
    readRows fuel done (s.withErr b) = (readRows fuel done s).withErr b := by
  induction fuel generalizing done s with
  | zero => rfl
  | succ fuel ih =>
    unfold readRows
    rw [State.withErr_nRows, State.eceReadScanlines_withErr]
    split
    · obtain ⟨n, t⟩ := s.eceReadScanlines done
      cases n with
      | error e => rfl
      | ok n => exact ih (done + n) t
    · rfl

theorem State.eceFinishDecompress_withErr :
    (s.withErr b).eceFinishDecompress = s.eceFinishDecompress.map id (State.withErr b) := by
  unfold State.eceFinishDecompress
  rw [State.issue_withErr]
  obtain ⟨⟨e, n, o⟩, u⟩ := s.issue .finishDecompress
  cases e <;> rfl

theorem driveDecompress_withErr (stream : List Byte) :
    driveDecompress stream (s.withErr b) = (driveDecompress stream s).withErr b := by
  unfold driveDecompress
  rw [State.withErr_nRows, State.eceReadHeader_withErr]
  obtain ⟨e, u⟩ := s.eceReadHeader stream
  cases e
  · simp only [Prod.map_apply, id_eq, Bool.false_eq_true, if_false, State.eceBeginDecompress_withErr]
    obtain ⟨e, v⟩ := u.eceBeginDecompress
    cases e
    · simp only [Prod.map_apply, id_eq, Bool.false_eq_true, if_false, readRows_withErr]
      cases readRows s.nRows 0 v with
      | bad e t => rfl
      | ok a t =>
        simp only [EngineRun.withErr, State.eceFinishDecompress_withErr]
        obtain ⟨e, x⟩ := t.eceFinishDecompress
        cases e <;> rfl
    · rfl
  · rfl

/-! ## Bodies of commands -/

/-- The same end of a body with another value of STATUS.ERR in its state. -/
def BodyResult.withErr (b : Bool) : BodyResult → BodyResult
  | .done t => .done (t.withErr b)
  | .raise e t => .raise e (t.withErr b)
  | .fault r => .fault r

theorem recoverThenRaise_withErr (e : Err) : recoverThenRaise e (s.withErr b) = (recoverThenRaise e s).withErr b := by
  unfold recoverThenRaise
  rw [State.recover_withErr]
  cases s.recover <;> rfl

theorem initBody_withErr : initBody (s.withErr b) = (initBody s).withErr b := by
  unfold initBody
  simp only [State.withErr_csr, State.eceCreate_withErr]
  cases initCheck s.csr.shapeW.toNat s.csr.shapeH.toNat s.csr.shapeD.toNat s.csr.prec.toNat s.csr.rowPitch.toNat
    s.csr.planePitch.toNat with
  | some e => rfl
  | none =>
    obtain ⟨e, u⟩ := s.eceCreate s.csr.prec.toNat
    cases e <;> rfl

theorem inject_withErr (t : StagedTables) : inject t (s.withErr b) = (inject t s).withErr b := by
  unfold inject
  simp only [State.eceSetQuant_withErr]
  obtain ⟨e, q⟩ := s.eceSetQuant t.quant
  cases e
  · simp only [Prod.map_apply, id_eq, Bool.false_eq_true, if_false, State.eceSetHuffman_withErr]
    obtain ⟨e, x⟩ := q.eceSetHuffman .dc (dcTable t)
    cases e
    · simp only [Prod.map_apply, id_eq, Bool.false_eq_true, if_false, State.eceSetHuffman_withErr]
      obtain ⟨e, y⟩ := x.eceSetHuffman .ac (acTable t)
      cases e <;> rfl
    · rfl
  · rfl

theorem configureBody_withErr : configureBody (s.withErr b) = (configureBody s).withErr b := by
  have hr : (s.withErr b).readStaging = s.readStaging := rfl
  unfold configureBody
  simp only [State.withErr_csr, hr, State.advance_withErr, inject_withErr]
  split <;> rfl

theorem verifyBody_withErr : verifyBody (s.withErr b) = (verifyBody s).withErr b := by
  unfold verifyBody
  dsimp only
  change (if Config.ebufCap < s.csr.elen.toNat then _ else _) = _
  split
  · rfl
  · simp only [State.withErr_csr, State.withErr_mem, State.withErr_draws, State.advance_withErr, State.withErr_readHdr,
      State.withErr_readFtr]
    cases verifyFraming (s.mem.ebuf.readRange s.draws 0 s.csr.elen.toNat) (s.advance s.csr.elen.toNat).readHdr
      (s.advance s.csr.elen.toNat).readFtr <;> rfl

theorem stuffBody_withErr : stuffBody (s.withErr b) = (stuffBody s).withErr b := by
  unfold stuffBody
  dsimp only
  change (if Config.pbufCap < s.csr.plen.toNat then _ else _) = _
  split
  · rfl
  · change (if Config.ebufCap < (stuff (s.mem.pbuf.readRange s.draws 0 s.csr.plen.toNat)).length then _ else _) = _
    split <;> rfl

theorem unstuffBody_withErr : unstuffBody (s.withErr b) = (unstuffBody s).withErr b := by
  unfold unstuffBody
  dsimp only
  change (if Config.ebufCap < s.csr.elen.toNat then _ else _) = _
  split
  · rfl
  · simp only [State.withErr_csr, State.withErr_mem, State.withErr_draws]
    cases unstuff (s.mem.ebuf.readRange s.draws 0 s.csr.elen.toNat) with
    | error k => rfl
    | ok out =>
      dsimp only
      split <;> rfl

theorem encodeBody_withErr : encodeBody (s.withErr b) = (encodeBody s).withErr b := by
  have hb : (s.withErr b).voidEncode.mapBlock = s.voidEncode.mapBlock.withErr b := rfl
  unfold encodeBody
  simp only [hb, State.withErr_readHdr, State.withErr_readFtr, State.afterFraming_withErr, driveCompress_withErr]
  generalize s.voidEncode.mapBlock = u
  cases driveCompress u.readHdr u.readFtr u.afterFraming with
  | bad e t => exact recoverThenRaise_withErr t b e
  | ok out t =>
    simp only [EngineRun.withErr]
    cases acceptStream u.readHdr u.readFtr out <;> rfl

theorem decodeBody_withErr : decodeBody (s.withErr b) = (decodeBody s).withErr b := by
  have hs : (s.withErr b).decodeStream = s.decodeStream := rfl
  have hd : (s.withErr b).beforeDecompress = s.beforeDecompress.withErr b := rfl
  rw [decodeBody_eq, decodeBody_eq, hs, hd, driveDecompress_withErr]
  change (if Config.pbufCap < s.csr.plen.toNat then _ else _) = _
  split
  · rfl
  · split
    · rfl
    · cases driveDecompress s.decodeStream s.beforeDecompress with
      | bad e t => exact recoverThenRaise_withErr t b e
      | ok a t => rfl

theorem State.teardown_withErr : (s.withErr b).teardown = s.teardown.withErr b := by
  unfold State.teardown
  rw [State.withErr_lifecycle, State.eceDestroy_withErr]
  split <;> rfl

theorem errAfter_ok {i : Instr} (hi : i ≠ .clrerr) : errAfter i b 0#32 = b := by
  cases i with
  | clrerr => exact absurd rfl hi
  | nop => rfl
  | _ => exact Bool.or_false b

/-- A body that starts with another STATUS.ERR ends in the same way, with STATUS.ERR as its command leaves it (R30, R146). -/
theorem commandBody_withErr (i : Instr) :
    commandBody i (s.withErr b) = (commandBody i s).withErr (errAfter i b 0#32) := by
  by_cases hi : i = .clrerr
  · subst hi
    rfl
  · rw [errAfter_ok b hi]
    cases i with
    | clrerr => exact absurd rfl hi
    | nop | synth | map | unmap => rfl
    | init => exact initBody_withErr s b
    | configure => exact configureBody_withErr s b
    | verify => exact verifyBody_withErr s b
    | stuff => exact stuffBody_withErr s b
    | unstuff => exact unstuffBody_withErr s b
    | encode => exact encodeBody_withErr s b
    | decode => exact decodeBody_withErr s b
    | destroy => exact congrArg BodyResult.done (State.teardown_withErr s b)

/-! ## Ends of commands -/

theorem State.errorEffects_withErr (i : Instr) (c : Cause) :
    (s.withErr b).errorEffects i c = (s.errorEffects i c).withErr b := by
  have hv : (s.withErr b).voidOutputs i = (s.voidOutputs i).withErr b := by cases i <;> rfl
  unfold State.errorEffects
  rw [State.teardown_withErr, hv]
  cases classOf c <;> rfl

/-- Whatever STATUS.ERR was, an error leaves it set (R30, R312). -/
theorem State.takeError_withErr (i : Instr) (e : Err) : (s.withErr b).takeError i e = (s.takeError i e).withErr true := by
  have hf : ∀ u : State, (u.withErr b).finish (errorCode e.cause) e.info
      = (u.finish (errorCode e.cause) e.info).withErr (b || errorCode e.cause != 0#32) := fun _ => rfl
  have hc : (b || errorCode e.cause != 0#32) = true := by simp [errorCode_ne_zero]
  rw [State.takeError, State.errorEffects_withErr, hf, hc]
  rfl

theorem errAfter_error {i : Instr} (hn : i ≠ .nop) (hc : i ≠ .clrerr) {code : Word} (h : code ≠ 0#32) :
    errAfter i b code = true := by
  cases i with
  | nop => exact absurd rfl hn
  | clrerr => exact absurd rfl hc
  | _ => simp [errAfter, h]

theorem runCommand_fault {i : Instr} {body : State → BodyResult} {s : State} {r : Fault} (h : refusedIn i s.lifecycle = false)
    (hb : body s = .fault r) : runCommand i body s = .fault r := by
  simp [runCommand, legalIn_eq_not_refusedIn, h, hb]

theorem clrerr_not_raise {i : Instr} {s u : State} {e : Err} (h : commandBody i s = .raise e u) : i ≠ .clrerr := by
  rintro rfl
  cases h

end

/-- Settles O10: a command is refused, ends, raises or stops alike whatever STATUS.ERR is, and then gives the flag its value. -/
theorem errFlagGatesNothing : Obligations.ErrFlagGatesNothing := by
  intro i s b
  by_cases hi : i = .nop
  · subst hi
    rfl
  rw [exec_eq_runCommand hi, exec_eq_runCommand hi]
  cases hr : refusedIn i s.lifecycle
  · have hb := commandBody_withErr s b i
    cases hbody : commandBody i s with
    | done u =>
      rw [hbody] at hb
      rw [runCommand_done hr hbody, runCommand_done (s := s.withErr b) hr hb]
      rfl
    | raise e u =>
      rw [hbody] at hb
      rw [runCommand_raise hr hbody, runCommand_raise (s := s.withErr b) hr hb, State.takeError_withErr]
      simp only [State.takeError_errcode, errAfter_error b hi (clrerr_not_raise hbody) (errorCode_ne_zero e.cause)]
    | fault r =>
      rw [hbody] at hb
      rw [runCommand_fault hr hbody, runCommand_fault (s := s.withErr b) hr hb]
  · rw [runCommand_refused hr, runCommand_refused (s := s.withErr b) hr]
    have hc : i ≠ .clrerr := by
      rintro rfl
      simp at hr
    simp only [State.refusedWith_csr, Csrs.errResult_errcode, errAfter_error b hi hc (show 0x41#32 ≠ 0#32 by decide)]
    rfl

end Sys2Proof.Machine
end

section
/-! PROOFS. Command words and headers: the decoder and the encoder agree (30_encoding.md rules R100 to R102), what a write of an illegal
word does, which commands are refused (R104), and the bytes of the header (R110). -/

namespace Sys2Proof.Machine

/-! ## The opcode map (R101) -/

/-- Every row of the opcode map gives its command's opcode. -/
theorem fst_eq_opcodeOf_of_mem_opcodeRows : ∀ r ∈ opcodeRows, r.1 = opcodeOf r.2 := by decide

theorem lookup_opcodeRows {b : Byte} {i : Instr} : opcodeRows.lookup b = some i ↔ b = opcodeOf i := by
  constructor
  · intro h
    obtain ⟨l₁, l₂, hl, _⟩ := List.lookup_eq_some_iff.mp h
    exact fst_eq_opcodeOf_of_mem_opcodeRows (b, i) (by simp [hl])
  · rintro rfl
    cases i <;> rfl

/-- Opcodes 0x0B, 0x0C, 0x0D and 0x10 upwards are unassigned; every other number is the opcode of a command (R102). -/
theorem exists_opcodeOf_eq_iff {n : Nat} :
    (∃ i, n = (opcodeOf i).toNat) ↔ n < 0x10 ∧ n ≠ 0x0B ∧ n ≠ 0x0C ∧ n ≠ 0x0D := by
  constructor
  · rintro ⟨i, rfl⟩
    cases i <;> decide
  · rintro ⟨hn, hne⟩
    have assigned : ∀ n < 0x10, n ≠ 0x0B ∧ n ≠ 0x0C ∧ n ≠ 0x0D → n ∈ opcodeRows.map fun r => r.1.toNat := by decide
    obtain ⟨r, hr, rfl⟩ := List.mem_map.mp (assigned n hn hne)
    exact ⟨r.2, congrArg BitVec.toNat (fst_eq_opcodeOf_of_mem_opcodeRows r hr)⟩

/-! ## Decoding and encoding (R100) -/

@[simp] theorem encode_toNat (i : Instr) : (encode i).toNat = (opcodeOf i).toNat :=
  (BitVec.toNat_append 0#24 (opcodeOf i)).trans (by simp)

theorem decode_encode (i : Instr) : decode (encode i) = .ok i := by
  cases i <;> rfl

/-- A word is its reserved bits before its opcode (R100). -/
theorem eq_encode_iff {c : Word} {i : Instr} :
    c = encode i ↔ c.extractLsb' 8 24 = 0#24 ∧ c.extractLsb' 0 8 = opcodeOf i := by
  constructor
  · rintro rfl
    exact ⟨BitVec.extractLsb'_append_eq_left, BitVec.extractLsb'_append_eq_right⟩
  · rintro ⟨hr, ho⟩
    have hc : c.extractLsb' 8 24 ++ c.extractLsb' 0 8 = c :=
      (BitVec.extractLsb'_append_extractLsb'_eq_extractLsb' rfl).trans BitVec.extractLsb'_eq_self
    rw [hr, ho] at hc
    exact hc.symm

theorem decode_eq_ok_iff {c : Word} {i : Instr} : decode c = .ok i ↔ c = encode i := by
  rw [eq_encode_iff, ← lookup_opcodeRows, decode]
  split
  · next hr =>
    split
    · next hl => simp [hr, hl]
    · next hl => simp [hl]
  · next hr => simp [hr]

theorem decode_eq_ok_iff_toNat {c : Word} {i : Instr} : decode c = .ok i ↔ c.toNat = (opcodeOf i).toNat := by
  rw [decode_eq_ok_iff, ← BitVec.toNat_inj, encode_toNat]

/-- Settles O2. -/
theorem decodeExactlyEncodedWords : Obligations.DecodeExactlyEncodedWords :=
  fun _ _ => decode_eq_ok_iff

/-- Settles O1: the word of each row is its command's encoding. -/
theorem opcodeMapIsThatOfTheSpec : Obligations.OpcodeMapIsThatOfTheSpec :=
  ⟨decode_encode .nop, decode_encode .init, decode_encode .configure, decode_encode .synth, decode_encode .verify,
    decode_encode .map, decode_encode .unmap, decode_encode .stuff, decode_encode .unstuff, decode_encode .encode,
    decode_encode .decode, decode_encode .clrerr, decode_encode .destroy⟩

/-! ## Illegal words (R102) -/

theorem State.illegalWord_eq (c : Word) (s : State) : s.illegalWord c = s.refusedWith 0x42#32 c := by
  rw [State.illegalWord, State.finish_err (errorCode_ne_zero _) c.isLt, BitVec.ofNat_toNat, BitVec.setWidth_eq]
  rfl

theorem step_illegalWord {s : State} {c : Word} {rest : List HostAccess} {w : IllegalWord}
    (h : s.host.pending = .writeCsr 0 c :: rest) (hd : decode c = .error w) :
    step s = .next ((s.setPending rest).refusedWith 0x42#32 c) := by
  unfold step
  split
  · next hp => simp [h] at hp
  · next hp =>
    obtain ⟨rfl, rfl⟩ := List.cons.inj (h.symm.trans hp)
    simp only [commandWord, hd, State.illegalWord_eq]

/-- Settles O3: an illegal word is no command's opcode, so the decoder rejects it; every other word is one. -/
theorem illegalWordsReportBadCmd : Obligations.IllegalWordsReportBadCmd := by
  intro s c rest h
  split
  · next hill =>
    cases hd : decode c with
    | error w => exact step_illegalWord h hd
    | ok i =>
      have := exists_opcodeOf_eq_iff.mp ⟨i, decode_eq_ok_iff_toNat.mp hd⟩
      omega
  · next hlegal =>
    obtain ⟨i, hi⟩ := (exists_opcodeOf_eq_iff (n := c.toNat)).mpr (by omega)
    exact ⟨i, decode_eq_ok_iff_toNat.mpr hi, hi⟩

/-! ## Refusals (R104) -/

theorem errorCode_eq_badState (c : Cause) : errorCode c = 0x41#32 ↔ c = .badState := by
  cases c <;> decide

theorem ne_badState_of_class {c : Cause} (h : classOf c ≠ .sequenceError) : c ≠ .badState :=
  fun hc => h (hc ▸ rfl)

/-- BAD_STATE is the frame's own: no body raises it (R147). -/
theorem commandBody_raise_ne_badState {i : Instr} {s u : State} {e : Err} (h : commandBody i s = .raise e u) :
    e.cause ≠ .badState := by
  cases i with
  | nop | map | unmap | synth | clrerr | destroy => cases h
  | init => exact ne_badState_of_class (by simp [(initBody_raise h).2.2])
  | configure => exact ne_badState_of_class (by simp [(configureBody_raise h).2])
  | verify => obtain ⟨_, rfl, _⟩ | ⟨_, hc | hc, _⟩ := verifyBody_raise h <;> simp [*]
  | stuff => obtain ⟨_, rfl, _⟩ | ⟨_, hc, _⟩ := stuffBody_raise h <;> simp [*]
  | unstuff => obtain ⟨_, rfl, _⟩ | ⟨_, hc | hc, _⟩ := unstuffBody_raise h <;> simp [*]
  | encode => exact ne_badState_of_class (by simp [(encodeBody_raise_frame h).1])
  | decode => obtain ⟨_, rfl, _⟩ | ⟨_, _, rfl, _⟩ | ⟨_, _, _, _, _, hc | hc⟩ := decodeBody_raise h <;> simp [*]

/-- Settles O7: the frame refuses where the table says so, and an executed command's code is 0 or that of an error its body raised. -/
theorem refusalsFollowLegalityTable : Obligations.RefusalsFollowLegalityTable := by
  intro i s
  split
  · next hr =>
    have hi : i ≠ .nop := by
      rintro rfl
      cases hl : s.lifecycle <;> simp [hl, refusedIn] at hr
    rw [exec_eq_runCommand hi, runCommand_refused hr]
  · next hr =>
    intro hi t h
    cases exec_next h with
    | nop hn => exact absurd hn hi
    | refused _ hr' => exact absurd hr' hr
    | done _ _ u _ ht => simp [ht]
    | raised _ _ e u hb ht =>
      rw [ht, State.takeError_errcode, ne_eq, errorCode_eq_badState]
      exact commandBody_raise_ne_badState hb

/-! ## Header and footer (R110, R111, R180) -/

theorem sofByte_eq (p : Nat) : sofByte p = BitVec.ofNat 8 (if p = 8 then 0xC0 else 0xC1) := by
  unfold sofByte
  split <;> rfl

theorem lowByte_mod (v : Nat) : lowByte (v % 256) = lowByte v :=
  BitVec.eq_of_toNat_eq (by simp [lowByte])

/-- The two bytes of a u16 field read back big-endian (R71). -/
theorem highByte_lowByte_toNat {v : Nat} (hv : v ≤ 65535) : 256 * (highByte v).toNat + (lowByte v).toNat = v := by
  simp only [highByte, lowByte, BitVec.toNat_ofNat]
  omega

/-- `synth`'s header is the byte table (R110). -/
theorem synthHeader_eq_table (w h d p : Nat) :
    synthHeader w h d p = (List.range 25).map fun k => BitVec.ofNat 8 (headerTable w h d p k) := by
  rw [synthHeader, sofByte_eq, ← lowByte_mod (h * d), ← lowByte_mod w]
  rfl

/-- Settles O21: the header is its table, and its bytes 7 to 10 are the halves of `h × d` and of `w`. -/
theorem headerBytesAreThoseOfTheTable : Obligations.HeaderBytesAreThoseOfTheTable := by
  intro w h d p
  refine ⟨synthHeader_length w h d p, fun k hk => ?_, rfl, fun hv => ⟨_, _, rfl, rfl, highByte_lowByte_toNat hv⟩,
    fun hv => ⟨_, _, rfl, rfl, highByte_lowByte_toNat hv⟩⟩
  simp [synthHeader_eq_table, hk]

end Sys2Proof.Machine
end

section
/-! PROOFS. The lifecycle commands NOP, INIT, DESTROY and CLRERR (40_lifecycle.md): what INIT answers by its checks and by
`create_context`, and what a teardown leaves (R140 to R146). -/

namespace Sys2Proof.Machine

/-! ## A command that is not refused, by how its body ends (R147) -/

theorem exec_of_done {i : Instr} {s t : State} (hi : i ≠ .nop) (hr : refusedIn i s.lifecycle = false)
    (hb : commandBody i s = .done t) : exec i s = .next (t.setCsr t.csr.okResult) := by
  rw [exec_eq_runCommand hi, runCommand_done hr hb]

theorem exec_of_raise {i : Instr} {s t : State} {e : Err} (hi : i ≠ .nop) (hr : refusedIn i s.lifecycle = false)
    (hb : commandBody i s = .raise e t) : exec i s = .next (t.takeError i e) := by
  rw [exec_eq_runCommand hi, runCommand_raise hr hb]

/-! ## NOP and CLRERR (R140, R146) -/

/-- Settles O6: a word with opcode 0 that is not 0 has a reserved bit set, so it is an illegal word. -/
theorem nopChangesNothing : Obligations.NopChangesNothing := by
  refine ⟨rfl, fun _ => rfl, fun s c rest h hop hne => ?_⟩
  have hz : c.toNat ≠ 0 := fun h0 => hne (BitVec.eq_of_toNat_eq h0)
  have hres : c.toNat / 256 ≠ 0 := by omega
  have := illegalWordsReportBadCmd s c rest h
  rwa [if_pos (.inl hres)] at this

/-- Settles O17: CLRERR's body clears the flag, and ending without error clears the result registers. -/
theorem clrerrClearsTheFlag : Obligations.ClrerrClearsTheFlag :=
  ⟨rfl, fun s => exec_of_done (t := s.acknowledge) (by decide) (refusedIn_clrerr s.lifecycle) rfl⟩

/-! ## Teardown by DESTROY and by a ConfigurationError (R144, R145, R315) -/

theorem exec_destroy (s : State) : exec .destroy s = .next (s.teardown.setCsr s.teardown.csr.okResult) :=
  exec_of_done (by decide) (refusedIn_destroy s.lifecycle) rfl

/-- Settles O16: DESTROY is a teardown, which in UNCONFIGURED finds nothing to tear down. -/
theorem destroyEndsTheInstance : Obligations.DestroyEndsTheInstance := by
  intro s
  rw [exec_destroy]
  constructor
  · intro hl
    refine ⟨_, rfl, rfl, ?_, s.teardown_mem, State.teardown_ctx fun h => absurd h hl, ?_, s.teardown_host⟩
    · simp [State.teardown_csr, Csrs.okResult]
    · simp [State.teardown_port, hl]
  · intro hl hs
    rw [State.teardown_unconfigured hl (hs.unconfiguredOk hl)]

/-- A ConfigurationError raised after nothing but ECE transactions tears the instance down and reports itself (R315). -/
theorem EceOnly.tornDown_takeError {s u : State} (hu : EceOnly s u) (hctx : u.lifecycle = .unconfigured → u.ece.ctx = none)
    {e : Err} (hc : classOf e.cause = .configurationError) (hi : e.info < 2 ^ 32) (i : Instr) :
    TornDown s (u.takeError i e) (errorCode e.cause) (BitVec.ofNat 32 e.info) := by
  rw [State.takeError_configuration u hc, State.finish_err (errorCode_ne_zero _) hi]
  refine ⟨rfl, ?_, ?_, State.teardown_ctx hctx, ?_⟩
  · simp [State.teardown_csr, Csrs.errResult, hu.csr]
  · simp [State.teardown_mem, hu.mem]
  · simp [State.teardown_host, hu.host]

/-! ## INIT (R141 to R143) -/

/-- Rows 1 to 6 of R142 on the staged shape, precision and pitches. -/
def State.initError (s : State) : Option Err :=
  initCheck s.csr.shapeW.toNat s.csr.shapeH.toNat s.csr.shapeD.toNat s.csr.prec.toNat s.csr.rowPitch.toNat s.csr.planePitch.toNat

theorem initBody_of_check_fails {s : State} {e : Err} (hc : s.initError = some e) : initBody s = .raise e s := by
  rw [State.initError] at hc
  simp [initBody, hc]

theorem initBody_of_checks_pass {s : State} (hc : s.initError = none) :
    initBody s = if (s.eceCreate s.csr.prec.toNat).1 then .raise ⟨.engineCtx, 0⟩ (s.eceCreate s.csr.prec.toNat).2
      else .done (s.eceCreate s.csr.prec.toNat).2.construct := by
  rw [State.initError] at hc
  simp [initBody, hc]

/-- A legal, densely packed shape passes rows 1 to 6 (R142). -/
theorem initCheck_of_legal {w h d p r q : Nat} (hs : LegalShape w h d p) (hr : r = w) (hq : q = w * h) :
    initCheck w h d p r q = none := by
  obtain ⟨hp, hw, hh, hd, hw8, hh8, hd8, hwr, hhd, hcap⟩ := hs
  simp only [initCheck, none_failed_iff]
  refine ⟨?_, ?_, ?_, ?_, ?_, ?_, ?_, ?_, ?_, ?_, ?_, ?_, trivial⟩ <;> omega

theorem refusedIn_init_unconfigured {s : State} (hl : s.lifecycle = .unconfigured) : refusedIn .init s.lifecycle = false := by
  rw [hl]
  rfl

/-- In UNCONFIGURED there is nothing to tear down, so a failing check changes nothing but the error registers (R315). -/
theorem exec_init_of_check_fails {s : State} {c : Cause} {v : Word} (hl : s.lifecycle = .unconfigured) (hs : s.Inv)
    (hc : s.initError = some ⟨c, v.toNat⟩) : exec .init s = .next (s.refusedWith (errorCode c) v) := by
  rw [exec_of_raise (by decide) (refusedIn_init_unconfigured hl) (initBody_of_check_fails hc),
    State.takeError_configuration s (initCheck_class hc), State.teardown_unconfigured hl (hs.unconfiguredOk hl),
    State.finish_err (errorCode_ne_zero _) v.isLt, BitVec.ofNat_toNat, BitVec.setWidth_eq]
  rfl

/-- Settles O14: each clause names the row of R142 that reports; its hypotheses pass the rows before it. -/
theorem initReportsFirstFailedCheck : Obligations.InitReportsFirstFailedCheck := by
  rintro s W H D P RP PP hl hs rfl rfl rfl hP rfl rfl
  have reports : ∀ (c : Cause) (v : Word), s.initError = some ⟨c, v.toNat⟩ → exec .init s = .next (s.refusedWith (errorCode c) v) :=
    fun _ _ => exec_init_of_check_fails hl hs
  refine ⟨fun hp => reports .badPrec s.csr.prec ?_, fun hp => ⟨fun hw => reports .zeroDim 0#32 ?_,
    fun hw hh => reports .zeroDim 1#32 ?_, fun hw hh hd => reports .zeroDim 2#32 ?_, fun hw hh hd =>
    ⟨fun hw8 => reports .notMult8 0#32 ?_, fun hw8 hh8 => reports .notMult8 1#32 ?_, fun hw8 hh8 hd8 => reports .notMult8 2#32 ?_,
    fun hw8 hh8 hd8 => ⟨fun hwr => reports .dimRange 0#32 ?_, fun hwr hhd => reports .dimRange 1#32 ?_,
    fun hwr hhd hcap => reports .capacity 0#32 ?_, fun hwr hhd hcap =>
    ⟨fun hrp => reports .stride 0#32 ?_, fun hrp hpp => reports .stride 1#32 ?_⟩⟩⟩⟩⟩
  all_goals simp (disch := omega) only [State.initError, initCheck, if_pos, if_neg, BitVec.toNat_ofNat]

/-- Settles O13: the checks pass and `create_context` answers normally, so INIT's body ends in `construct`. -/
theorem initConstructs : Obligations.InitConstructs := by
  intro s r rest hl hlegal hrp hpp hr he
  have hcreate : s.eceCreate s.csr.prec.toNat = (false, { s with ece := { s.ece with
      ctx := some ⟨⟨s.csr.prec.toNat, none, none, none⟩, .idle⟩
      port := s.ece.port ++ [.createContext s.csr.prec.toNat], replies := rest } }) := by
    simp [State.eceCreate, State.issue_of_replies hr, he, State.setCtx]
  have hbody := initBody_of_checks_pass (initCheck_of_legal hlegal hrp hpp)
  rw [hcreate] at hbody
  refine ⟨_, exec_of_done (by decide) (refusedIn_init_unconfigured hl) hbody, rfl, rfl, fun k hk => ?_, rfl, rfl, rfl, rfl, rfl⟩
  simp [State.construct, synthHeader_eq_table, hk]

/-- Settles O15: INIT's body raises ENGINE_CTX after `create_context`, and taking that error finds no context to destroy. -/
theorem initEngineErrorLeavesUnconfigured : Obligations.InitEngineErrorLeavesUnconfigured := by
  intro s r rest hl hs hlegal hrp hpp hr he
  have created := State.eceCreate_answers hr s.csr.prec.toNat
  have hbody := initBody_of_checks_pass (initCheck_of_legal hlegal hrp hpp)
  rw [if_pos (created.failed.trans he)] at hbody
  obtain ⟨hu, hctx, hclass⟩ := initBody_raise hbody
  refine ⟨_, exec_of_raise (by decide) (refusedIn_init_unconfigured hl) hbody,
    hu.tornDown_takeError (fun _ => hctx.trans (hs.no_context hl)) hclass (by decide) .init, ?_⟩
  rw [State.takeError_configuration _ hclass, State.finish_ece, State.teardown_port, if_pos (hu.lifecycle.trans hl), created.port]

end Sys2Proof.Machine
end

section
/-! PROOFS. CONFIGURE (41_table_injector.md): the size checks of R161 row by row, the arrays of R162, and what each answer of the three
injections of R163 leads to. -/

namespace Sys2Proof.Machine

/-! ## Rows 2 to 4 of R161 for one kind, on sixteen counts -/

/-- The proofs below carry every total as a `symbolTotal`: where the sum stands written out, unification unfolds its sixteen terms. -/
theorem symbolTotal_of_eq_map_range {cnt : List Half} {f : Nat → Half} {n : Nat} (h : cnt = (List.range n).map f) :
    symbolTotal cnt = ((List.range n).map fun k => (f k).toNat).sum := by
  rw [h, symbolTotal, List.map_map]
  rfl

theorem huffCheck_of_ncls_ne {info : Nat} {n : Word} {cnt : List Half} (hn : n ≠ 16#32) :
    huffCheck info n.toNat cnt = some ⟨.huffNcls, info⟩ :=
  if_pos fun h => hn (BitVec.eq_of_toNat_eq h)

theorem huffCheck_of_total_gt {info : Nat} {n : Word} {cnt : List Half} (hn : n = 16#32) (ht : 256 < symbolTotal cnt) :
    huffCheck info n.toNat cnt = some ⟨.huffNsym, info⟩ := by
  simp [huffCheck, hn, ht]

section
variable {info : Nat} {n : Word} {cnt : List Half} {f : Nat → Half} (hn : n = 16#32) (hcnt : cnt = (List.range 16).map f)
  (ht : symbolTotal cnt ≤ 256)
include hn hcnt ht

theorem huffCheck_of_count_gt (hf : ∃ k, k < 16 ∧ 255 < (f k).toNat) : huffCheck info n.toNat cnt = some ⟨.huffClassOvf, info⟩ := by
  have hany : cnt.any (fun c => 255 < c.toNat) = true := by simpa [hcnt] using hf
  simp [huffCheck, hn, Nat.not_lt.mpr ht, hany]

theorem huffCheck_of_counts_le (hf : ∀ k, k < 16 → (f k).toNat ≤ 255) : huffCheck info n.toNat cnt = none := by
  have hany : cnt.any (fun c => 255 < c.toNat) = false := by simpa [hcnt] using hf
  simp [huffCheck, hn, Nat.not_lt.mpr ht, hany]

end

/-! ## The staged tables as CONFIGURE reads them, and their arrays (R162) -/

theorem State.readStaging_cntDC {s : State} {f : Nat → Half} (h : ∀ k, k < 16 → s.mem.hsCntDC.get? k = some (f k)) :
    s.readStaging.cntDC = (List.range 16).map f :=
  Space.readRange_of_get? (by simpa using h) _

theorem State.readStaging_cntAC {s : State} {f : Nat → Half} (h : ∀ k, k < 16 → s.mem.hsCntAC.get? k = some (f k)) :
    s.readStaging.cntAC = (List.range 16).map f :=
  Space.readRange_of_get? (by simpa using h) _

theorem State.readStaging_quant {s : State} {f : Nat → Half} (h : ∀ k, k < 64 → s.mem.qtStage.get? k = some (f k)) :
    s.readStaging.quant = (List.range 64).map f :=
  Space.readRange_of_get? (by simpa using h) _

theorem Space.get?_exactly_map_range {w n : Nat} {vs : List (BitVec w)} {f : Nat → BitVec w} (h : vs = (List.range n).map f)
    (k : Nat) (hk : k < n) : (Space.exactly vs).get? k = some (f k) := by
  simp [h, hk]

theorem huffCounts_map_range (f : Nat → Half) :
    huffCounts ((List.range 16).map f) = (List.range 256).map fun k => if k < 16 then (f k).setWidth 8 else 0#8 := by
  apply List.ext_getElem (by simp only [huffCounts_length, List.length_map, List.length_range])
  intro k _ _
  rw [← List.getD_eq_getElem _ 0#8]
  by_cases hk : k < 16
  · rw [huffCounts_getD_lt (by simpa using hk)]
    simp [hk]
  · rw [huffCounts_getD_zero (by simpa using hk)]
    simp [hk]

theorem huffCounts_take_sixteen (f : Nat → Half) :
    (huffCounts ((List.range 16).map f)).take 16 = (List.range 16).map fun k => (f k).setWidth 8 := by
  rw [huffCounts, List.take_left' (by simp), List.map_map]
  rfl

/-- Only the symbols below the total need be specified: no other reaches the array (R162). -/
theorem huffValues_readRange {sp : Space 8} {cnt : List Half} {f : Nat → Byte} {T : Nat} (hT : T = symbolTotal cnt) (hle : T ≤ 256)
    (h : ∀ j, j < T → sp.get? j = some (f j)) (draw : Nat) :
    huffValues cnt (sp.readRange draw 0 256) = (List.range 256).map fun j => if j < T then f j else 0#8 := by
  apply List.ext_getElem (by simp [huffValues_length (hT ▸ hle)])
  intro j _ _
  by_cases hj : j < T
  · have hlt : j < 256 := by omega
    simp [huffValues, ← hT, hj, hlt, Space.readRange, Space.read_of_get? (h j hj)]
  · simp [huffValues, ← hT, List.getElem_append, hj]

/-! ## CONFIGURE's checks and its body -/

/-- Rows 1 to 7 of R161 on the staged counts as one CONFIGURE reads them. -/
def State.configureError (s : State) : Option Err :=
  configureCheck s.csr.qtN.toNat s.csr.hsNclsDC.toNat s.csr.hsNclsAC.toNat s.readStaging.cntDC s.readStaging.cntAC

theorem State.configureError_of_qtN {s : State} (h : s.csr.qtN ≠ 64#32) : s.configureError = some ⟨.qtSize, s.csr.qtN.toNat⟩ :=
  if_pos fun h64 => h (BitVec.eq_of_toNat_eq h64)

theorem State.configureError_of_dc {s : State} {e : Err} (h : s.csr.qtN = 64#32)
    (hdc : huffCheck 0 s.csr.hsNclsDC.toNat s.readStaging.cntDC = some e) : s.configureError = some e := by
  simp [State.configureError, configureCheck, h, hdc]

/-- When the quantization table's size and the DC specification pass, the AC specification decides. -/
theorem State.configureError_eq_ac {s : State} (h : s.csr.qtN = 64#32)
    (hdc : huffCheck 0 s.csr.hsNclsDC.toNat s.readStaging.cntDC = none) :
    s.configureError = huffCheck 1 s.csr.hsNclsAC.toNat s.readStaging.cntAC := by
  simp [State.configureError, configureCheck, h, hdc]

theorem configureBody_of_check_fails {s : State} {e : Err} (hc : s.configureError = some e) :
    configureBody s = .raise e (s.advance 608) := by
  rw [State.configureError] at hc
  simp [configureBody, hc]

theorem configureBody_of_checks_pass {s : State} (hc : s.configureError = none) :
    configureBody s = inject s.readStaging (s.advance 608) := by
  rw [State.configureError] at hc
  simp [configureBody, hc]

theorem inject_not_fault (t : StagedTables) (s : State) (r : Fault) : inject t s ≠ .fault r := by
  unfold inject
  dsimp only
  split
  · simp
  · split
    · simp
    · split <;> simp

theorem configureBody_not_fault (s : State) (r : Fault) : configureBody s ≠ .fault r := by
  cases hc : s.configureError with
  | some e => simp [configureBody_of_check_fails hc]
  | none =>
    rw [configureBody_of_checks_pass hc]
    exact inject_not_fault _ _ r

theorem refusedIn_configure {l : Lifecycle} (hl : l ≠ .unconfigured) : refusedIn .configure l = false := by
  cases l with
  | unconfigured => exact absurd rfl hl
  | constructed | ready => rfl

theorem exec_configure_answers (s : State) : ∃ t, exec .configure s = .next t :=
  runCommand_answers (configureBody_not_fault s)

/-- An error of CONFIGURE tears the instance down, with `destroy_context` as the last transaction (R166). -/
theorem tornDown_of_configureBody_raise {s t u : State} {e : Err} (hl : s.lifecycle ≠ .unconfigured)
    (hb : configureBody s = .raise e u) (hi : e.info < 2 ^ 32) (ht : exec .configure s = .next t) :
    TornDown s t (errorCode e.cause) (BitVec.ofNat 32 e.info) ∧ t.ece.port = u.ece.port ++ [.destroyContext] := by
  obtain ⟨hu, hclass⟩ := configureBody_raise hb
  have hlu : u.lifecycle ≠ .unconfigured := hu.lifecycle ▸ hl
  rw [exec_of_raise (by decide) (refusedIn_configure hl) hb] at ht
  cases ht
  refine ⟨hu.tornDown_takeError (fun h => absurd h hlu) hclass hi .configure, ?_⟩
  rw [State.takeError_configuration u hclass, State.finish_ece, State.teardown_port, if_neg hlu]

/-! ## The first failing check (rows 1 to 7 of R161) -/

/-- Settles O19: each clause names the row of R161 that reports; its hypotheses pass the rows before it. -/
theorem configureReportsFirstFailedCheck : Obligations.ConfigureReportsFirstFailedCheck := by
  intro s cd ca TD TA hl hcd hca hTD hTA
  have hcntDC := State.readStaging_cntDC hcd
  have hcntAC := State.readStaging_cntAC hca
  rw [← symbolTotal_of_eq_map_range hcntDC] at hTD
  rw [← symbolTotal_of_eq_map_range hcntAC] at hTA
  obtain ⟨t, ht⟩ := exec_configure_answers s
  have reports : ∀ (c : Cause) (v : Word), s.configureError = some ⟨c, v.toNat⟩ →
      TornDown s t (errorCode c) v ∧ t.ece.port = s.ece.port ++ [.destroyContext] := by
    intro c v hc
    simpa using tornDown_of_configureBody_raise hl (configureBody_of_check_fails hc) v.isLt ht
  refine ⟨t, ht, fun hq => reports .qtSize _ (State.configureError_of_qtN hq), fun hq => ?_⟩
  have dcReports := fun c hc => reports c 0#32 (State.configureError_of_dc hq hc)
  refine ⟨fun hn => dcReports .huffNcls (huffCheck_of_ncls_ne hn), fun hn =>
    ⟨fun htot => dcReports .huffNsym (huffCheck_of_total_gt hn (hTD ▸ htot)),
    fun htot hbig => dcReports .huffClassOvf (huffCheck_of_count_gt hn hcntDC (hTD ▸ htot) hbig), fun htot hfit => ?_⟩⟩
  have hdc := huffCheck_of_counts_le (info := 0) hn hcntDC (hTD ▸ htot) hfit
  have acReports := fun c hc => reports c 1#32 ((State.configureError_eq_ac hq hdc).trans hc)
  exact ⟨fun hn => acReports .huffNcls (huffCheck_of_ncls_ne hn),
    fun hn htot => acReports .huffNsym (huffCheck_of_total_gt hn (hTA ▸ htot)),
    fun hn htot hbig => acReports .huffClassOvf (huffCheck_of_count_gt hn hcntAC (hTA ▸ htot) hbig)⟩

/-! ## Tables that pass every check, and the engine's answers to their injection (R163, row 8 of R161) -/

theorem configureBody_of_tables_pass {s : State} {cd ca : Nat → Half}
    (hq : s.csr.qtN = 64#32) (hnd : s.csr.hsNclsDC = 16#32) (hna : s.csr.hsNclsAC = 16#32)
    (hcd : ∀ k, k < 16 → s.mem.hsCntDC.get? k = some (cd k) ∧ (cd k).toNat ≤ 255)
    (hca : ∀ k, k < 16 → s.mem.hsCntAC.get? k = some (ca k) ∧ (ca k).toNat ≤ 255)
    (htd : symbolTotal s.readStaging.cntDC ≤ 256) (hta : symbolTotal s.readStaging.cntAC ≤ 256) :
    configureBody s = inject s.readStaging (s.advance 608) := by
  have hdc := huffCheck_of_counts_le (info := 0) hnd (State.readStaging_cntDC fun k hk => (hcd k hk).1) htd fun k hk => (hcd k hk).2
  have hac := huffCheck_of_counts_le (info := 1) hna (State.readStaging_cntAC fun k hk => (hca k hk).1) hta fun k hk => (hca k hk).2
  exact configureBody_of_checks_pass ((State.configureError_eq_ac hq hdc).trans hac)

/-- The injection stops at the first transaction that answers an engine error, and ends when all three answer normally. -/
theorem inject_run (t : StagedTables) {s : State} {r1 r2 r3 : Reply} {rest : List Reply} (hr : s.ece.replies = r1 :: r2 :: r3 :: rest) :
    (r1.error = true →
      ∃ u, inject t s = .raise ⟨.engineCtx, 1⟩ u ∧ u.ece.port = s.ece.port ++ [.setQuantTable 0 t.quant])
    ∧ (r1.error = false → r2.error = true →
      ∃ u, inject t s = .raise ⟨.engineCtx, 2⟩ u
        ∧ u.ece.port = s.ece.port ++ [.setQuantTable 0 t.quant, .setHuffmanTable .dc 0 (dcTable t)])
    ∧ (r1.error = false → r2.error = false → r3.error = true →
      ∃ u, inject t s = .raise ⟨.engineCtx, 3⟩ u
        ∧ u.ece.port = s.ece.port ++
          [.setQuantTable 0 t.quant, .setHuffmanTable .dc 0 (dcTable t), .setHuffmanTable .ac 0 (acTable t)])
    ∧ (r1.error = false → r2.error = false → r3.error = false →
      ∃ u, inject t s = .done u
        ∧ u.ece.port = s.ece.port ++
          [.setQuantTable 0 t.quant, .setHuffmanTable .dc 0 (dcTable t), .setHuffmanTable .ac 0 (acTable t)]
        ∧ u.ece.replies = rest) := by
  have a1 := State.eceSetQuant_answers hr t.quant
  have a2 := State.eceSetHuffman_answers a1.replies .dc (dcTable t)
  have a3 := State.eceSetHuffman_answers a2.replies .ac (acTable t)
  simp only [inject, a1.failed, a2.failed, a3.failed]
  refine ⟨fun h1 => ⟨_, if_pos h1, a1.port⟩, fun h1 h2 => ?_, fun h1 h2 h3 => ?_, fun h1 h2 h3 => ?_⟩
  · exact ⟨_, by rw [h1, h2]; rfl, by simp [a2.port, a1.port]⟩
  · exact ⟨_, by rw [h1, h2, h3]; rfl, by simp [a3.port, a2.port, a1.port]⟩
  · refine ⟨_, by rw [h1, h2, h3]; rfl, ?_, ?_⟩
    · simp [State.install, a3.port, a2.port, a1.port]
    · exact a3.replies

/-- Settles O20: the injection's error is the body's, and the tables in its transactions are the staged ones. -/
theorem configureEngineErrorTearsDown : Obligations.ConfigureEngineErrorTearsDown := by
  intro s cd ca r1 r2 r3 rest TD TA hl hq hnd hna hcd hca hTD hTA htd hta hr
  have hcntDC := State.readStaging_cntDC fun k hk => (hcd k hk).1
  have hcntAC := State.readStaging_cntAC fun k hk => (hca k hk).1
  rw [← symbolTotal_of_eq_map_range hcntDC] at hTD
  rw [← symbolTotal_of_eq_map_range hcntAC] at hTA
  have hbody := configureBody_of_tables_pass hq hnd hna hcd hca (hTD ▸ htd) (hTA ▸ hta)
  obtain ⟨t, ht⟩ := exec_configure_answers s
  have reports : ∀ n calls, n < 2 ^ 32 →
      (∃ u, inject s.readStaging (s.advance 608) = .raise ⟨.engineCtx, n⟩ u ∧ u.ece.port = s.ece.port ++ calls) →
      TornDown s t 0x1B#32 (BitVec.ofNat 32 n) ∧ t.ece.port = s.ece.port ++ (calls ++ [.destroyContext]) := by
    rintro n calls hn ⟨u, hu, hport⟩
    obtain ⟨htorn, hdestroy⟩ := tornDown_of_configureBody_raise hl (hbody.trans hu) hn ht
    exact ⟨htorn, by rw [hdestroy, hport, List.append_assoc]⟩
  obtain ⟨atQuant, atDC, atAC, _⟩ := inject_run s.readStaging (s := s.advance 608) hr
  refine ⟨t, s.readStaging.quant, dcTable s.readStaging, acTable s.readStaging, ht, fun f hf => State.readStaging_quant hf,
    ?_, ?_, fun f hf => ?_, fun f hf => ?_, fun h1 => reports 1 _ (by decide) (atQuant h1),
    fun h1 h2 => reports 2 _ (by decide) (atDC h1 h2), fun h1 h2 h3 => reports 3 _ (by decide) (atAC h1 h2 h3)⟩
  · rw [dcTable, hcntDC, huffCounts_take_sixteen]
  · rw [acTable, hcntAC, huffCounts_take_sixteen]
  · rw [dcTable]
    exact huffValues_readRange hTD htd hf _
  · rw [acTable]
    exact huffValues_readRange hTA hta hf _

/-- Settles O18: the body ends by installing the staged tables in the shadows, whose slots are those of the arrays. -/
theorem configureInjectsTables : Obligations.ConfigureInjectsTables := by
  intro s q cd ca sd sa r1 r2 r3 rest TD TA hl hq hnd hna hqt hcd hca hTD hTA htd hta hsd hsa hr h1 h2 h3
  have hcntDC := State.readStaging_cntDC fun k hk => (hcd k hk).1
  have hcntAC := State.readStaging_cntAC fun k hk => (hca k hk).1
  rw [← symbolTotal_of_eq_map_range hcntDC] at hTD
  rw [← symbolTotal_of_eq_map_range hcntAC] at hTA
  have hquant := State.readStaging_quant hqt
  have hvalDC : huffValues s.readStaging.cntDC s.readStaging.symDC = (List.range 256).map fun j => if j < TD then sd j else 0#8 :=
    huffValues_readRange hTD htd hsd _
  have hvalAC : huffValues s.readStaging.cntAC s.readStaging.symAC = (List.range 256).map fun j => if j < TA then sa j else 0#8 :=
    huffValues_readRange hTA hta hsa _
  obtain ⟨_, _, _, allNormal⟩ := inject_run s.readStaging (s := s.advance 608) hr
  obtain ⟨u, hinj, hport, hreplies⟩ := allNormal h1 h2 h3
  obtain ⟨v, hv, rfl, _⟩ := inject_done hinj
  have hbody := (configureBody_of_tables_pass hq hnd hna hcd hca (hTD ▸ htd) (hTA ▸ hta)).trans hinj
  refine ⟨_, exec_of_done (by decide) (refusedIn_configure hl) hbody, rfl, congrArg Csrs.okResult hv.csr,
    Space.get?_exactly_map_range hquant,
    Space.get?_exactly_map_range ((congrArg huffCounts hcntDC).trans (huffCounts_map_range cd)),
    Space.get?_exactly_map_range ((congrArg huffCounts hcntAC).trans (huffCounts_map_range ca)),
    Space.get?_exactly_map_range hvalDC, Space.get?_exactly_map_range hvalAC, ?_, ?_, hreplies, hv.host⟩
  · simp [State.install, hv.mem]
  · rw [hquant, dcTable, acTable, hvalDC, hvalAC, hcntDC, hcntAC, huffCounts_take_sixteen, huffCounts_take_sixteen] at hport
    exact hport

end Sys2Proof.Machine
end

section
/-! PROOFS. SYNTH, VERIFY and the framing they speak of (42_header_footer.md): on which bytes of the header precision and shape have an
influence, what `verify_framing` decides, and what the two commands write (R181 to R185). -/

namespace Sys2Proof.Machine

/-! ## The influence of precision and shape on the header (R181) -/

/-- The bytes before the dimension fields depend on the precision alone. -/
theorem synthHeader_take (w h d w' h' d' p : Nat) : (synthHeader w h d p).take 7 = (synthHeader w' h' d' p).take 7 := rfl

/-- The bytes after the dimension fields are constants. -/
theorem synthHeader_drop (w h d w' h' d' p : Nat) : (synthHeader w h d p).drop 11 = (synthHeader w' h' d' p).drop 11 := rfl

theorem synthHeader_getElem?_of_not_dimension (w h d w' h' d' p : Nat) {k : Nat} (hk : ¬ (7 ≤ k ∧ k ≤ 10)) :
    (synthHeader w h d p)[k]? = (synthHeader w' h' d' p)[k]? := by
  rcases Nat.lt_or_ge k 7 with hlt | hge
  · rw [← List.getElem?_take_of_lt hlt, synthHeader_take w h d w' h' d', List.getElem?_take_of_lt hlt]
  · obtain ⟨j, rfl⟩ : ∃ j, k = 11 + j := Nat.exists_eq_add_of_le (by omega)
    rw [← List.getElem?_drop, synthHeader_drop w h d w' h' d', List.getElem?_drop]

/-- Precision 12 replaces SOF and the precision byte of the header of precision 8. -/
theorem synthHeader_twelve (w h d : Nat) : synthHeader w h d 12 = ((synthHeader w h d 8).set 3 0xC1#8).set 6 0x0C#8 := rfl

theorem synthHeader_precision_iff (w h d k : Nat) : (synthHeader w h d 8)[k]? ≠ (synthHeader w h d 12)[k]? ↔ k = 3 ∨ k = 6 := by
  rw [synthHeader_twelve]
  constructor
  · contrapose!
    rintro ⟨h3, h6⟩
    rw [List.getElem?_set_ne h6.symm, List.getElem?_set_ne h3.symm]
  · rintro (rfl | rfl)
    · exact show some 0xC0#8 ≠ some 0xC1#8 by decide
    · exact show some 0x08#8 ≠ some 0x0C#8 by decide

/-- A u16 field determines the number it holds (R71). -/
theorem eq_of_highByte_lowByte {v v' : Nat} (hv : v ≤ 65535) (hv' : v' ≤ 65535) (hhigh : highByte v = highByte v')
    (hlow : lowByte v = lowByte v') : v = v' := by
  rw [← highByte_lowByte_toNat hv, ← highByte_lowByte_toNat hv', hhigh, hlow]

/-- Settles O22: the shape stands in the two dimension fields only, as `h × d` and as `w`. -/
theorem headerSensitivity : Obligations.HeaderSensitivity := by
  refine ⟨fun w h d k _ => synthHeader_precision_iff w h d k,
    fun w h d w' h' d' p k hk => synthHeader_getElem?_of_not_dimension w h d w' h' d' p hk,
    fun w h d h' d' p hhd => by rw [synthHeader, synthHeader, hhd], ?_⟩
  intro w h d w' h' d' p hw hw' hhd hhd' heq
  have byteEq : ∀ k : Nat, (synthHeader w h d p)[k]? = (synthHeader w' h' d' p)[k]? := fun k => by rw [heq]
  exact ⟨eq_of_highByte_lowByte hw hw' (Option.some.inj (byteEq 9)) (Option.some.inj (byteEq 10)),
    eq_of_highByte_lowByte hhd hhd' (Option.some.inj (byteEq 7)) (Option.some.inj (byteEq 8))⟩

/-! ## What `verify_framing` decides (R184) -/

section
variable {s hdr ftr : List Byte}

/-- HEADER_MISMATCH names the first of the 25 indices at which stream and header differ. -/
theorem verifyFraming_headerMismatch_iff {k : Nat} :
    verifyFraming s hdr ftr = .error ⟨.headerMismatch, k⟩ ↔ k < 25 ∧ s[k]? ≠ hdr[k]? ∧ ∀ j, j < k → s[j]? = hdr[j]? := by
  have hfind : verifyFraming s hdr ftr = .error ⟨.headerMismatch, k⟩
      ↔ ((List.range 25).find? fun j => s[j]? != hdr[j]?) = some k := by
    unfold verifyFraming
    cases (List.range 25).find? fun j => s[j]? != hdr[j]? with
    | some j => simp
    | none =>
      dsimp only
      split_ifs <;> simp
  rw [hfind, List.find?_range_eq_some]
  simp [and_left_comm]

/-- With the right header, the length and then the footer decide. -/
theorem verifyFraming_of_header (h : ∀ j, j < 25 → s[j]? = hdr[j]?) :
    verifyFraming s hdr ftr =
      if s.length < 27 then .error ⟨.footerMismatch, s.length⟩
      else if s[s.length - 2]? ≠ ftr[0]? then .error ⟨.footerMismatch, s.length - 2⟩
      else if s[s.length - 1]? ≠ ftr[1]? then .error ⟨.footerMismatch, s.length - 1⟩
      else .ok () := by
  have hnone : ((List.range 25).find? fun j => s[j]? != hdr[j]?) = none := by simpa using h
  rw [verifyFraming, hnone]

theorem header_eq_or_headerMismatch (s hdr ftr : List Byte) :
    (∀ j, j < 25 → s[j]? = hdr[j]?) ∨ ∃ k, k < 25 ∧ verifyFraming s hdr ftr = .error ⟨.headerMismatch, k⟩ := by
  cases hfind : (List.range 25).find? fun j => s[j]? != hdr[j]? with
  | none => exact .inl (by simpa using hfind)
  | some k => exact .inr ⟨k, List.mem_range.mp (List.mem_of_find?_eq_some hfind), by rw [verifyFraming, hfind]⟩

theorem verifyFraming_ok_iff :
    verifyFraming s hdr ftr = .ok () ↔
      (∀ j, j < 25 → s[j]? = hdr[j]?) ∧ 27 ≤ s.length ∧ s[s.length - 2]? = ftr[0]? ∧ s[s.length - 1]? = ftr[1]? := by
  constructor
  · intro hok
    obtain hheader | ⟨k, _, herr⟩ := header_eq_or_headerMismatch s hdr ftr
    · rw [verifyFraming_of_header hheader] at hok
      split_ifs at hok with hlen h0 h1
      exact ⟨hheader, Nat.le_of_not_lt hlen, not_not.mp h0, not_not.mp h1⟩
    · cases herr.symm.trans hok
  · rintro ⟨hheader, hlen, h0, h1⟩
    rw [verifyFraming_of_header hheader, if_neg (Nat.not_lt.mpr hlen), if_neg (not_not.mpr h0), if_neg (not_not.mpr h1)]

/-- The detail of a mismatch is an index of the header or at most the stream's length. -/
theorem verifyFraming_error_info {e : Err} (h : verifyFraming s hdr ftr = .error e) : e.info < 25 ∨ e.info ≤ s.length := by
  obtain hheader | ⟨k, hk, herr⟩ := header_eq_or_headerMismatch s hdr ftr
  · rw [verifyFraming_of_header hheader] at h
    split_ifs at h <;> cases h
    · exact .inr (Nat.le_refl _)
    · exact .inr (Nat.sub_le _ _)
    · exact .inr (Nat.sub_le _ _)
  · cases herr.symm.trans h
    exact .inl hk

/-- A well-framed stream begins with the header, ends with the footer, and is long enough for both (R114). -/
theorem exists_entropyRegion_iff (hh : hdr.length = 25) (hf : ftr.length = 2) :
    (∃ e, s = hdr ++ e ++ ftr) ↔ hdr <+: s ∧ 27 ≤ s.length ∧ ftr <:+ s := by
  constructor
  · rintro ⟨e, rfl⟩
    refine ⟨⟨e ++ ftr, (List.append_assoc ..).symm⟩, ?_, List.suffix_append ..⟩
    simp only [List.length_append, hh, hf]
    omega
  · rintro ⟨⟨r, rfl⟩, hlen, hsuffix⟩
    rw [List.length_append, hh] at hlen
    obtain ⟨e, rfl⟩ := List.suffix_of_suffix_length_le hsuffix (List.suffix_append hdr r) (by omega)
    exact ⟨e, (List.append_assoc ..).symm⟩

theorem header_prefix_iff (hh : hdr.length = 25) : hdr <+: s ↔ ∀ j, j < 25 → s[j]? = hdr[j]? := by
  rw [List.prefix_iff_getElem?, ← hh]
  refine forall₂_congr fun j hj => ?_
  rw [List.getElem?_eq_getElem hj]

theorem footer_suffix_iff (hf : ftr.length = 2) (hlen : 27 ≤ s.length) :
    ftr <:+ s ↔ s[s.length - 2]? = ftr[0]? ∧ s[s.length - 1]? = ftr[1]? := by
  obtain ⟨x, y, rfl⟩ := List.length_eq_two.mp hf
  have hlast : 1 + s.length - 2 = s.length - 1 := by omega
  rw [List.suffix_iff_getElem?]
  constructor
  · rintro ⟨_, h⟩
    exact ⟨by simpa using h 0 Nat.two_pos, by simpa [hlast] using h 1 Nat.one_lt_two⟩
  · rintro ⟨h0, h1⟩
    refine ⟨hf.trans_le (by omega), fun i hi => ?_⟩
    match i, hi with
    | 0, _ => simpa using h0
    | 1, _ => simpa [hlast] using h1

end

/-- Settles O25: the 25 compared bytes are a prefix of the stream, and the two last ones a suffix. -/
theorem verifyFramingAcceptsExactlyWellFramed : Obligations.VerifyFramingAcceptsExactlyWellFramed := by
  intro s hdr ftr hh hf
  rw [verifyFraming_ok_iff, exists_entropyRegion_iff hh hf, header_prefix_iff hh]
  exact and_congr_right fun _ => and_congr_right fun hlen => (footer_suffix_iff hf hlen).symm

/-- Settles O26: with the right header every clause takes its branch of the length and footer checks. -/
theorem verifyFramingNamesFirstMismatch : Obligations.VerifyFramingNamesFirstMismatch := by
  intro s hdr ftr _ _
  refine ⟨fun k => verifyFraming_headerMismatch_iff, fun hheader => ?_⟩
  rw [verifyFraming_of_header hheader]
  refine ⟨fun hlen => if_pos hlen, fun hlen h0 => ?_, fun hlen h0 h1 => ?_, fun hlen h0 h1 => ?_⟩
  · rw [if_neg (Nat.not_lt.mpr hlen), if_pos h0]
  · rw [if_neg (Nat.not_lt.mpr hlen), if_neg (not_not.mpr h0), if_pos h1]
  · rw [if_neg (Nat.not_lt.mpr hlen), if_neg (not_not.mpr h0), if_neg (not_not.mpr h1)]

/-! ## Where SYNTH and VERIFY are executed (R104) -/

theorem refusedIn_synth_verify {i : Instr} {l : Lifecycle} (hi : i = .synth ∨ i = .verify) (hl : l ≠ .unconfigured) :
    refusedIn i l = false := by
  cases l with
  | unconfigured => exact absurd rfl hl
  | constructed | ready => rcases hi with rfl | rfl <;> rfl

/-! ## SYNTH (R182) -/

/-- The state with header and footer synthesized from the latched configuration. -/
def State.synthesized (s : State) : State :=
  s.setMem { s.mem with hdr := .exactly (synthHeader s.width s.height s.depth s.precision), ftr := .exactly synthFooter }

theorem exec_synth {s : State} (hl : s.lifecycle ≠ .unconfigured) :
    exec .synth s = .next (s.synthesized.setCsr s.csr.okResult) :=
  exec_of_done (t := s.synthesized) (by decide) (refusedIn_synth_verify (.inl rfl) hl) rfl

/-- Settles O23: the header's bytes are those of its table. -/
theorem synthWritesHeaderAndFooter : Obligations.SynthWritesHeaderAndFooter := by
  intro s hl
  refine ⟨_, exec_synth hl, rfl, rfl, fun k hk => ?_, rfl, rfl, rfl, rfl, rfl⟩
  obtain ⟨_, hbytes, _⟩ := headerBytesAreThoseOfTheTable s.width s.height s.depth s.precision
  exact (Space.get?_exactly ..).trans (hbytes k hk)

/-- Where HDR and FTR hold what SYNTH stores, it stores nothing new (R46). -/
theorem State.FramedOk.synthesized {s : State} (h : s.FramedOk) : s.synthesized = s := by
  obtain ⟨_, hhdr, hftr⟩ := h
  rw [State.synthesized, ← hhdr, ← hftr]
  rfl

/-- Settles O24: outside UNCONFIGURED the invariant says that header and footer are synthesized. -/
theorem synthNeverChangesAValue : Obligations.SynthNeverChangesAValue := by
  intro s hs hl
  rw [exec_synth hl, (hs.framedOk hl).synthesized]

/-! ## VERIFY (R185) -/

theorem State.FramedOk.readHdr {s : State} (h : s.FramedOk) : s.readHdr = synthHeader s.width s.height s.depth s.precision := by
  obtain ⟨_, hhdr, _⟩ := h
  rw [State.readHdr, hhdr]
  exact Space.readRange_exactly (synthHeader ..) _

theorem State.FramedOk.readFtr {s : State} (h : s.FramedOk) : s.readFtr = synthFooter := by
  obtain ⟨_, _, hftr⟩ := h
  rw [State.readFtr, hftr]
  exact Space.readRange_exactly synthFooter _

/-- On a specified stream that fits EBUF, VERIFY's body ends as `verify_framing` does (R184). -/
theorem verifyBody_of_stream {s : State} {b : List Byte} (hs : s.FramedOk) (hn : s.csr.elen.toNat = b.length)
    (hcap : b.length ≤ Config.ebufCap) (hb : ∀ k, k < b.length → s.mem.ebuf.get? k = b[k]?) :
    (verifyFraming b (synthHeader s.width s.height s.depth s.precision) synthFooter = .ok () →
      verifyBody s = .done (s.advance b.length).afterFraming)
    ∧ ∀ e, verifyFraming b (synthHeader s.width s.height s.depth s.precision) synthFooter = .error e →
      verifyBody s = .raise e (s.advance b.length).afterFraming := by
  have hstream : s.mem.ebuf.readRange s.draws 0 b.length = b := Space.readRange_of_list (by simpa using hb) _
  have hhdr : (s.advance b.length).readHdr = synthHeader s.width s.height s.depth s.precision :=
    State.FramedOk.readHdr (s := s.advance b.length) hs
  have hftr : (s.advance b.length).readFtr = synthFooter := State.FramedOk.readFtr (s := s.advance b.length) hs
  simp only [verifyBody, hn, if_neg (Nat.not_lt.mpr hcap), hstream, hhdr, hftr]
  exact ⟨fun hok => by rw [hok], fun e herr => by rw [herr]⟩

/-- A framing error of VERIFY voids nothing: it changes only the error registers (R316). -/
theorem State.takeError_verify {e : Err} (hc : e.cause = .headerMismatch ∨ e.cause = .footerMismatch) (hi : e.info < 2 ^ 32)
    (s : State) : s.takeError .verify e = s.setCsr (s.csr.errResult (errorCode e.cause) (BitVec.ofNat 32 e.info)) := by
  have hclass : classOf e.cause = .framingViolation := by rcases hc with hc | hc <;> rw [hc] <;> rfl
  rw [State.takeError_perCall s (.inl hclass)]
  exact State.finish_err (errorCode_ne_zero _) hi

/-- Settles O27: the body ends as `verify_framing` does, which accepts exactly the well-framed streams. -/
theorem verifyChecksTheStream : Obligations.VerifyChecksTheStream := by
  intro s b hl hs hn hcap hb
  have hr := refusedIn_synth_verify (i := .verify) (.inr rfl) hl
  have haccepts := verifyFramingAcceptsExactlyWellFramed b (synthHeader s.width s.height s.depth s.precision) synthFooter
    (synthHeader_length ..) rfl
  obtain ⟨accepted, rejected⟩ := verifyBody_of_stream hs hn hcap hb
  cases hv : verifyFraming b (synthHeader s.width s.height s.depth s.precision) synthFooter with
  | ok _ => exact ⟨_, exec_of_done (by decide) hr (accepted hv), rfl, rfl, rfl, rfl, fun _ => rfl, nofun⟩
  | error e =>
    have hcause := verifyFraming_error hv
    have hinfo : e.info < 2 ^ 32 := by
      have := verifyFraming_error_info hv
      have := s.csr.elen.isLt
      omega
    have hexec := exec_of_raise (i := .verify) (by decide) hr (rejected e hv)
    rw [State.takeError_verify hcause hinfo] at hexec
    refine ⟨_, hexec, rfl, rfl, rfl, rfl, fun hframed => ?_, ?_⟩
    · cases hv.symm.trans (haccepts.mpr hframed)
    · rintro _ ⟨⟩
      exact ⟨rfl, hcause.imp (congrArg errorCode) (congrArg errorCode)⟩

end Sys2Proof.Machine
end

section
/-! PROOFS. MAP and UNMAP (43_scanline_mapper.md): rows and block coordinates, the sample conversions, and what the two commands store,
alone and one after the other (R200 to R207). -/

namespace Sys2Proof.Machine

/-! ## Rows, coordinates and indices (R200, R201) -/

theorem rowOf_lt {h d y z : Nat} (hy : y < h) (hz : z < d) : rowOf h y z < h * d :=
  calc y + h * z < h + h * z := Nat.add_lt_add_right hy _
    _ = h * (z + 1) := by ring
    _ ≤ h * d := Nat.mul_le_mul_left h hz

theorem coordOf_rowOf {h y : Nat} (hy : y < h) (z : Nat) : coordOf h (rowOf h y z) = (y, z) := by
  have hh : 0 < h := Nat.zero_lt_of_lt hy
  rw [coordOf, rowOf, Nat.add_mul_mod_self_left, Nat.add_mul_div_left _ _ hh, Nat.mod_eq_of_lt hy, Nat.div_eq_of_lt hy,
    Nat.zero_add]

theorem coordOf_fst_lt {h d i : Nat} (hi : i < h * d) : (coordOf h i).1 < h :=
  Nat.mod_lt i (Nat.pos_of_mul_pos_right (Nat.zero_lt_of_lt hi))

theorem coordOf_snd_lt {h d i : Nat} (hi : i < h * d) : (coordOf h i).2 < d :=
  Nat.div_lt_of_lt_mul hi

theorem rowOf_coordOf (h i : Nat) : rowOf h (coordOf h i).1 (coordOf h i).2 = i :=
  Nat.mod_add_div i h

/-- The cell index of a pixel is the block index of its sample. -/
theorem rowPtr_rowOf (w h x y z : Nat) : rowPtr w (rowOf h y z) + x = blockAddr w h x y z := by
  simp only [rowPtr, rowOf, blockAddr]
  ring

/-- A block index numbers the columns of all rows as a row number numbers the rows of all planes. -/
theorem blockAddr_eq_rowOf (w h x y z : Nat) : blockAddr w h x y z = rowOf w x (rowOf h y z) := by
  simp only [blockAddr, rowOf]
  ring

theorem blockAddr_lt {w h d x y z : Nat} (hx : x < w) (hy : y < h) (hz : z < d) : blockAddr w h x y z < w * h * d := by
  rw [blockAddr_eq_rowOf, Nat.mul_assoc]
  exact rowOf_lt hx (rowOf_lt hy hz)

/-- Settles O28. -/
theorem scanlineCoordinatesCorrespond : Obligations.ScanlineCoordinatesCorrespond := fun w h _ =>
  ⟨fun _ z hy hz => ⟨rowOf_lt hy hz, coordOf_rowOf hy z⟩,
    fun i hi => ⟨coordOf_fst_lt hi, coordOf_snd_lt hi, rowOf_coordOf h i⟩,
    fun x y z => rowPtr_rowOf w h x y z⟩

/-! ## NARROW_P and WIDEN_P (R202, R203) -/

theorem cellBits_toNat (p : Nat) (v : Half) : (cellBits p v).toNat = v.toNat % 2 ^ esw p := by
  by_cases hp : p = 8
  · subst hp
    rw [cellBits_eight, esw_eight, BitVec.toNat_ofNat]
    omega
  · rw [cellBits_of_ne hp, esw_of_ne hp, Nat.mod_eq_of_lt v.isLt]

/-- Settles O29: both conversions keep the low ESW bits, and P is at most ESW. -/
theorem narrowAndWidenAreInverse : Obligations.NarrowAndWidenAreInverse := by
  intro p hp
  have precision_le_esw : p ≤ esw p := by rcases hp with rfl | rfl <;> decide
  have container : 2 ^ esw p = if p = 8 then 256 else 65536 := by rcases hp with rfl | rfl <;> rfl
  refine ⟨fun v => ?_, fun v hv => ?_, fun v hv => ?_⟩
  · rw [narrow, cellBits_toNat, container]
  · exact cellBits_of_lt (hv.trans_le (Nat.pow_le_pow_right Nat.two_pos precision_le_esw))
  · have both : cellBits p (cellBits p v) = v := (cellBits_idem p v).trans (cellBits_of_lt hv)
    exact ⟨both, both⟩

/-- An element that got the low ESW bits of what a source element reads as: a value below 2^ESW, and that of the source element where
this is specified. -/
theorem exists_toNat_of_cellBits_read {o : Option Half} {p draw n : Nat} {src : Space 16}
    (ho : o = some (cellBits p (src.read draw n))) :
    ∃ c, o = some c ∧ c.toNat < 2 ^ esw p ∧ ∀ v, src.get? n = some v → c.toNat = v.toNat % 2 ^ esw p :=
  ⟨_, ho, cellBits_lt p _, fun v hv => by rw [cellBits_toNat, Space.read_of_get? hv]⟩

/-! ## MAP and UNMAP (R204, R206) -/

theorem refusedIn_map_unmap {i : Instr} {l : Lifecycle} (hi : i = .map ∨ i = .unmap) (hl : l ≠ .unconfigured) :
    refusedIn i l = false := by
  cases l with
  | unconfigured => exact absurd rfl hl
  | constructed | ready => rcases hi with rfl | rfl <;> rfl

theorem exec_map {s : State} (hl : s.lifecycle ≠ .unconfigured) :
    exec .map s = .next (s.mapBlock.setCsr s.csr.okResult) :=
  exec_of_done (t := s.mapBlock) (by decide) (refusedIn_map_unmap (.inl rfl) hl) rfl

theorem exec_unmap {s : State} (hl : s.lifecycle ≠ .unconfigured) :
    exec .unmap s = .next (s.unmapRows.setCsr s.csr.okResult) :=
  exec_of_done (t := s.unmapRows) (by decide) (refusedIn_map_unmap (.inr rfl) hl) rfl

theorem State.mapBlock_get?_of_lt {s : State} {n : Nat} (hn : n < s.nSamp) :
    s.mapBlock.mem.xbuf.get? n = some (narrow s.precision (s.mem.blkIn.read (s.draws + n) n)) :=
  (s.mapBlock_get? n).trans (if_pos hn)

theorem State.mapBlock_get?_of_ge {s : State} {n : Nat} (hn : s.nSamp ≤ n) :
    s.mapBlock.mem.xbuf.get? n = s.mem.xbuf.get? n :=
  (s.mapBlock_get? n).trans (if_neg (Nat.not_lt.mpr hn))

theorem State.unmapRows_get?_of_lt {s : State} {n : Nat} (hn : n < s.nSamp) :
    s.unmapRows.mem.blkOut.get? n = some (widen s.precision (s.mem.xbuf.read (s.draws + n) n)) :=
  (s.unmapRows_get? n).trans (if_pos hn)

theorem State.unmapRows_get?_of_ge {s : State} {n : Nat} (hn : s.nSamp ≤ n) :
    s.unmapRows.mem.blkOut.get? n = s.mem.blkOut.get? n :=
  (s.unmapRows_get? n).trans (if_neg (Nat.not_lt.mpr hn))

/-- Settles O30: the cell of a pixel has the index of its sample, which lies below NSAMP. -/
theorem mapStoresNarrowedSamples : Obligations.MapStoresNarrowedSamples := by
  intro s hl
  refine ⟨_, exec_map hl, rfl, rfl, fun x y z hx hy hz => ?_, fun i hi => State.mapBlock_get?_of_ge hi, rfl, rfl, rfl⟩
  have hn : blockAddr s.width s.height x y z < s.nSamp := blockAddr_lt hx hy hz
  have hcell : (y + s.height * z) * s.width + x = blockAddr s.width s.height x y z := rowPtr_rowOf ..
  rw [hcell]
  exact exists_toNat_of_cellBits_read (State.mapBlock_get?_of_lt hn)

/-- Settles O31: the element of a sample has the index of its pixel's cell, which lies below NSAMP. -/
theorem unmapStoresWidenedCells : Obligations.UnmapStoresWidenedCells := by
  intro s hl
  refine ⟨_, exec_unmap hl, rfl, rfl, fun x y z hx hy hz => ?_, fun i hi => State.unmapRows_get?_of_ge hi, rfl, rfl, rfl⟩
  have hn : blockAddr s.width s.height x y z < s.nSamp := blockAddr_lt hx hy hz
  have hcell : (y + s.height * z) * s.width + x = blockAddr s.width s.height x y z := rowPtr_rowOf ..
  rw [hcell]
  exact exists_toNat_of_cellBits_read (State.unmapRows_get?_of_lt hn)

/-! ## MAP, then UNMAP (R207) -/

theorem widen_narrow (p : Nat) (v : Half) : widen p (narrow p v) = narrow p v :=
  cellBits_idem p v

/-- Settles O32: UNMAP reads the cells that MAP stored, whatever the draws, and widening a narrowed sample changes nothing. -/
theorem mapThenUnmapCopiesTheBlock : Obligations.MapThenUnmapCopiesTheBlock := by
  intro s hl
  refine ⟨_, _, exec_map hl, exec_unmap hl, fun n v hn hv => ?_, fun n hn => ?_, rfl⟩
  · have hcell : s.mapBlock.mem.xbuf.get? n = some (narrow s.precision v) := by
      rw [State.mapBlock_get?_of_lt hn, Space.read_of_get? hv]
    calc (s.mapBlock.setCsr s.csr.okResult).unmapRows.mem.blkOut.get? n
      _ = some (widen s.precision (s.mapBlock.mem.xbuf.read (s.mapBlock.draws + n) n)) := State.unmapRows_get?_of_lt hn
      _ = some (narrow s.precision v) := by rw [Space.read_of_get? hcell, widen_narrow]
  · exact State.unmapRows_get?_of_ge (s := s.mapBlock.setCsr s.csr.okResult) hn

end Sys2Proof.Machine
end

section
/-! PROOFS. The Stuffing Codec (44_stuffing_codec.md): `stuff` and `unstuff` as functions on byte sequences (R220 to R223), and the two
commands that run them on PBUF and EBUF (R224, R225). -/

namespace Sys2Proof.Machine

/-! ## `stuff` byte by byte (R220) -/

@[simp] theorem stuff_cons_ff (x : List Byte) : stuff (0xFF#8 :: x) = 0xFF#8 :: 0x00#8 :: stuff x := rfl

theorem stuff_cons_of_ne {b : Byte} (hb : b ≠ 0xFF#8) (x : List Byte) : stuff (b :: x) = b :: stuff x := if_neg hb

theorem stuff_append (a b : List Byte) : stuff (a ++ b) = stuff a ++ stuff b := by
  induction a with
  | nil => rfl
  | cons c a ih =>
    by_cases hc : c = 0xFF#8
    · simp [hc, ih]
    · simp [stuff_cons_of_ne hc, ih]

theorem length_stuff (x : List Byte) : (stuff x).length = x.length + x.count 0xFF#8 := by
  induction x with
  | nil => rfl
  | cons b x ih =>
    by_cases hb : b = 0xFF#8
    · simp [hb, ih]
      omega
    · simp [stuff_cons_of_ne hb, hb, ih]
      omega

/-- The bytes that `stuff` inserts are 0x00, so it adds no 0xFF. -/
theorem count_stuff (x : List Byte) : (stuff x).count 0xFF#8 = x.count 0xFF#8 := by
  induction x with
  | nil => rfl
  | cons b x ih =>
    by_cases hb : b = 0xFF#8
    · simp [hb, ih]
    · simp [stuff_cons_of_ne hb, hb, ih]

/-! ## `unstuff` byte by byte (R221) -/

theorem unstuffFrom_escaped (k : Nat) (y : List Byte) :
    unstuffFrom k (0xFF#8 :: 0x00#8 :: y) = (0xFF#8 :: ·) <$> unstuffFrom (k + 2) y := by
  rw [unstuffFrom, if_pos rfl, if_pos rfl]
  cases unstuffFrom (k + 2) y <;> rfl

theorem unstuffFrom_cons_of_ne {b : Byte} (hb : b ≠ 0xFF#8) (k : Nat) (y : List Byte) :
    unstuffFrom k (b :: y) = (b :: ·) <$> unstuffFrom (k + 1) y := by
  rw [unstuffFrom.eq_def]
  simp only [if_neg hb]
  cases unstuffFrom (k + 1) y <;> rfl

theorem unstuffFrom_unescaped {r : List Byte} (hr : r.head? ≠ some 0x00#8) (k : Nat) : unstuffFrom k (0xFF#8 :: r) = .error k := by
  cases r with
  | nil => rfl
  | cons z r =>
    have hz : z ≠ 0x00#8 := by simpa using hr
    rw [unstuffFrom, if_pos rfl, if_neg hz]

/-- The scan passes over stuffed bytes and has unstuffed them. -/
theorem unstuffFrom_stuff_append (k : Nat) (x r : List Byte) :
    unstuffFrom k (stuff x ++ r) = (x ++ ·) <$> unstuffFrom (k + (stuff x).length) r := by
  induction x generalizing k with
  | nil => exact (id_map (unstuffFrom k r)).symm
  | cons b x ih =>
    by_cases hb : b = 0xFF#8
    · subst hb
      rw [stuff_cons_ff, List.cons_append, List.cons_append, unstuffFrom_escaped, ih, Functor.map_map, Nat.add_right_comm]
      rfl
    · rw [stuff_cons_of_ne hb, List.cons_append, unstuffFrom_cons_of_ne hb, ih, Functor.map_map, Nat.add_right_comm]
      rfl

theorem unstuff_stuff (x : List Byte) : unstuff (stuff x) = .ok x := by
  simpa [unstuff, unstuffFrom] using unstuffFrom_stuff_append 0 x []

theorem unstuff_stuff_append_unescaped (x : List Byte) {r : List Byte} (hr : r.head? ≠ some 0x00#8) :
    unstuff (stuff x ++ 0xFF#8 :: r) = .error (stuff x).length := by
  simp [unstuff, unstuffFrom_stuff_append, unstuffFrom_unescaped hr]

theorem getElem?_append_cons_succ_length (a r : List Byte) (b : Byte) : (a ++ b :: r)[a.length + 1]? = r.head? := by
  simp [List.getElem?_append_right, List.head?_eq_getElem?]

/-- Every sequence is stuffed up to its end or up to an unescaped 0xFF: the recursion of `unstuff`, said through `stuff`. -/
theorem stuffed_or_unescaped : ∀ y : List Byte,
    (∃ x, y = stuff x) ∨ ∃ x r, y = stuff x ++ 0xFF#8 :: r ∧ r.head? ≠ some 0x00#8
  | [] => .inl ⟨[], rfl⟩
  | [b] => by
    by_cases hb : b = 0xFF#8
    · exact .inr ⟨[], [], by rw [hb]; rfl, by simp⟩
    · exact .inl ⟨[b], (stuff_cons_of_ne hb []).symm⟩
  | b :: z :: y => by
    by_cases hb : b = 0xFF#8
    · subst hb
      by_cases hz : z = 0x00#8
      · subst hz
        obtain ⟨x, rfl⟩ | ⟨x, r, rfl, hr⟩ := stuffed_or_unescaped y
        · exact .inl ⟨0xFF#8 :: x, rfl⟩
        · exact .inr ⟨0xFF#8 :: x, r, rfl, hr⟩
      · exact .inr ⟨[], z :: y, rfl, by simpa using hz⟩
    · obtain ⟨x, hx⟩ | ⟨x, r, hx, hr⟩ := stuffed_or_unescaped (z :: y)
      · exact .inl ⟨b :: x, by rw [stuff_cons_of_ne hb, hx]⟩
      · exact .inr ⟨b :: x, r, by rw [stuff_cons_of_ne hb, hx]; rfl, hr⟩

theorem unstuff_eq_ok_iff {x y : List Byte} : unstuff y = .ok x ↔ y = stuff x := by
  constructor
  · intro h
    obtain ⟨x', rfl⟩ | ⟨x', r, rfl, hr⟩ := stuffed_or_unescaped y
    · cases (unstuff_stuff x').symm.trans h
      rfl
    · cases (unstuff_stuff_append_unescaped x' hr).symm.trans h
  · rintro rfl
    exact unstuff_stuff x

/-- Settles O34: what precedes the first unescaped 0xFF is stuffed, and the scan passes over stuffed bytes. -/
theorem unstuffReportsFirstUnescaped : Obligations.UnstuffReportsFirstUnescaped := by
  intro y k
  simp only [unstuff_eq_ok_iff]
  constructor
  · intro h
    obtain ⟨x, rfl⟩ | ⟨x, r, rfl, hr⟩ := stuffed_or_unescaped y
    · cases (unstuff_stuff x).symm.trans h
    · cases (unstuff_stuff_append_unescaped x hr).symm.trans h
      exact ⟨by simp, by rwa [getElem?_append_cons_succ_length], x, List.take_left' rfl⟩
  · rintro ⟨hff, hnext, x, hx⟩
    obtain ⟨hk, hff⟩ := List.getElem?_eq_some_iff.mp hff
    have hlen : (stuff x).length = k := by rw [← hx, List.length_take_of_le hk.le]
    have hy : stuff x ++ 0xFF#8 :: y.drop (k + 1) = y := by
      rw [← hx, ← hff, List.cons_getElem_drop_succ, List.take_append_drop]
    rw [← hy, unstuff_stuff_append_unescaped x (by rwa [List.head?_drop]), hlen]

/-! ## Well-stuffed sequences (R115) -/

theorem WellStuffed.cons {b : Byte} {y : List Byte} (hy : WellStuffed y) (hb : b = 0xFF#8 → y[0]? = some 0x00#8) :
    WellStuffed (b :: y) := by
  intro k hk
  cases k with
  | zero => exact hb (by simpa using hk)
  | succ k => exact hy k hk

theorem wellStuffed_stuff (x : List Byte) : WellStuffed (stuff x) := by
  induction x with
  | nil => exact fun k hk => by simp [stuff] at hk
  | cons b x ih =>
    by_cases hb : b = 0xFF#8
    · subst hb
      exact (ih.cons (by simp)).cons fun _ => rfl
    · rw [stuff_cons_of_ne hb]
      exact ih.cons fun h => absurd h hb

theorem WellStuffed.exists_eq_stuff {y : List Byte} (hy : WellStuffed y) : ∃ x, y = stuff x := by
  obtain hx | ⟨x, r, rfl, hr⟩ := stuffed_or_unescaped y
  · exact hx
  · have hnext := hy (stuff x).length (by simp)
    rw [getElem?_append_cons_succ_length] at hnext
    exact absurd hnext hr

/-! ## The laws of R222 and R223 -/

theorem stuff_injective : Function.Injective stuff := fun x x' h =>
  Except.ok.inj ((unstuff_stuff x).symm.trans ((congrArg unstuff h).trans (unstuff_stuff x')))

/-- A 0xFF survives the first stuffing and is stuffed again, so the result is longer. -/
theorem stuff_stuff_ne {x : List Byte} (hx : 0xFF#8 ∈ x) : stuff (stuff x) ≠ x := by
  intro h
  have hpos : 0 < x.count 0xFF#8 := List.count_pos_iff.mpr hx
  have hlen := congrArg List.length h
  rw [length_stuff, length_stuff] at hlen
  omega

/-- Settles O33: a sequence unstuffs to `x` exactly when it is `stuff x`, and the laws of `unstuff` are those of `stuff`. -/
theorem stuffingLaws : Obligations.StuffingLaws := by
  refine ⟨unstuff_stuff, fun _ _ h => stuff_injective h, ?_, ?_, ?_, stuff_append, ?_, rfl, rfl, fun _ => stuff_stuff_ne⟩
  · simp only [unstuff_eq_ok_iff, implies_true]
  · intro y
    simp only [unstuff_eq_ok_iff]
    exact ⟨fun ⟨x, hx⟩ => hx ▸ wellStuffed_stuff x, WellStuffed.exists_eq_stuff⟩
  · exact fun _ _ h => (unstuff_eq_ok_iff.mp h).symm
  · simp only [unstuff_eq_ok_iff]
    rintro _ _ x z rfl rfl
    exact (stuff_append x z).symm

theorem length_le_length_stuff (x : List Byte) : x.length ≤ (stuff x).length := by
  rw [length_stuff]
  exact Nat.le_add_right ..

theorem length_stuff_le (x : List Byte) : (stuff x).length ≤ 2 * x.length := by
  rw [length_stuff, Nat.two_mul]
  exact Nat.add_le_add_left List.count_le_length _

/-- Settles O35: `stuff` adds one byte per 0xFF, and no 0xFF. -/
theorem stuffingLengths : Obligations.StuffingLengths := by
  refine ⟨fun x => ⟨length_stuff x, length_le_length_stuff x, length_stuff_le x⟩, fun y x h => ?_, fun n => ?_⟩
  · rw [unstuff_eq_ok_iff.mp h]
    exact ⟨by rw [count_stuff, length_stuff], length_stuff_le x, length_le_length_stuff x⟩
  · rw [length_stuff, List.count_replicate_self, List.length_replicate, Nat.two_mul]

/-! ## Ending with an error (R147) -/

theorem State.finish_csr_of_ne_zero {code : Word} (hc : code ≠ 0#32) (s : State) (info : Nat) :
    (s.finish code info).csr = s.csr.errResult code (s.fit info) := by
  simp [Csrs.errResult, hc]

/-! ## STUFF (R224) -/

/-- On a specified payload within PBUF, STUFF's body stores the stuffed payload or raises OVERFLOW. -/
theorem stuffBody_of_payload {s : State} {p : List Byte} (hn : s.csr.plen.toNat = p.length) (hcap : p.length ≤ Config.pbufCap)
    (hp : ∀ k, k < p.length → s.mem.pbuf.get? k = p[k]?) :
    stuffBody s = if Config.ebufCap < (stuff p).length then .raise ⟨.overflow, (stuff p).length⟩ (s.advance p.length)
      else .done (((s.advance p.length).setMem { s.mem with ebuf := .exactly (stuff p) }).setElen (stuff p).length) := by
  have hread : s.mem.pbuf.readRange s.draws 0 p.length = p := Space.readRange_of_list (by simpa using hp) _
  simp only [stuffBody, hn, if_neg (Nat.not_lt.mpr hcap), hread]
  rfl

/-- Settles O36: the body stores exactly the stuffed payload, or its OVERFLOW voids EBUF. -/
theorem stuffWritesTheStuffedPayload : Obligations.StuffWritesTheStuffedPayload := by
  intro s p hn hcap hp
  have hbody := stuffBody_of_payload hn hcap hp
  split
  · next hfits =>
    rw [if_neg (Nat.not_lt.mpr hfits)] at hbody
    exact ⟨_, exec_of_done (by decide) (refusedIn_stuff _) hbody, rfl, rfl, rfl, rfl, rfl, Space.get?_exactly _, State.fit_of_lt _⟩
  · next hover =>
    rw [if_pos (Nat.lt_of_not_le hover)] at hbody
    have hexec := exec_of_raise (i := .stuff) (by decide) (refusedIn_stuff _) hbody
    rw [State.takeError_perCall _ (.inl rfl)] at hexec
    exact ⟨_, hexec, rfl, rfl, rfl, rfl, State.finish_csr_of_ne_zero (errorCode_ne_zero .overflow) _ _, Space.get?_unspecified,
      State.fit_of_lt _⟩

/-! ## UNSTUFF (R225) -/

/-- On a specified sequence within EBUF, UNSTUFF's body ends as `unstuff` does, or raises OVERFLOW. -/
theorem unstuffBody_of_sequence {s : State} {y : List Byte} (hn : s.csr.elen.toNat = y.length) (hcap : y.length ≤ Config.ebufCap)
    (hy : ∀ k, k < y.length → s.mem.ebuf.get? k = y[k]?) :
    (∀ k, unstuff y = .error k → unstuffBody s = .raise ⟨.unescapedFf, k⟩ (s.advance y.length))
    ∧ ∀ p, unstuff y = .ok p →
        unstuffBody s = if Config.pbufCap < p.length then .raise ⟨.overflow, p.length⟩ (s.advance y.length)
          else .done (((s.advance y.length).setMem { s.mem with pbuf := .exactly p }).setPlen p.length) := by
  have hread : s.mem.ebuf.readRange s.draws 0 y.length = y := Space.readRange_of_list (by simpa using hy) _
  simp only [unstuffBody, hn, if_neg (Nat.not_lt.mpr hcap), hread]
  exact ⟨fun k herr => by rw [herr], fun p hok => by rw [hok]; rfl⟩

/-- The index that `unstuff` reports is one of the sequence's. -/
theorem unstuff_error_lt_length {y : List Byte} {k : Nat} (h : unstuff y = .error k) : k < y.length := by
  obtain ⟨hff, _, _⟩ := (unstuffReportsFirstUnescaped y k).mp h
  exact (List.getElem?_eq_some_iff.mp hff).1

/-- An error of UNSTUFF's body clears PLEN, voids PBUF and reports itself (R316). -/
theorem State.takeError_unstuff {e : Err} (hc : e.cause = .unescapedFf ∨ e.cause = .overflow) (hi : e.info < 2 ^ 32) (s : State) :
    s.takeError .unstuff e = (s.setMem { s.mem with pbuf := .unspecified 8 }).setCsr
      { s.csr.errResult (errorCode e.cause) (BitVec.ofNat 32 e.info) with plen := 0#32 } := by
  have hclass : classOf e.cause = .framingViolation := by rcases hc with hc | hc <;> rw [hc] <;> rfl
  rw [State.takeError_perCall s (.inl hclass), State.finish_err (errorCode_ne_zero _) hi]
  rfl

/-- Settles O37: the body ends as `unstuff` does, whose payload and whose index are below 2^32 as ELEN is. -/
theorem unstuffWritesThePayload : Obligations.UnstuffWritesThePayload := by
  intro s y hn hcap hy
  have hylen : y.length < 2 ^ 32 := hn ▸ s.csr.elen.isLt
  obtain ⟨rejected, accepted⟩ := unstuffBody_of_sequence hn hcap hy
  have raises := fun e u (hb : unstuffBody s = .raise e u) => exec_of_raise (i := .unstuff) (by decide) (refusedIn_unstuff _) hb
  cases hu : unstuff y with
  | error k =>
    have hk : k < 2 ^ 32 := (unstuff_error_lt_length hu).trans hylen
    have hexec := raises _ _ (rejected k hu)
    rw [State.takeError_unstuff (.inl rfl) hk] at hexec
    refine ⟨_, hexec, rfl, rfl, rfl, rfl, ?_, nofun⟩
    rintro _ ⟨⟩
    exact ⟨rfl, Space.get?_unspecified⟩
  | ok p =>
    have hp : p.length < 2 ^ 32 := (unstuffFrom_length_le hu).trans_lt hylen
    have hbody := accepted p hu
    by_cases hfits : p.length ≤ Config.pbufCap
    · rw [if_neg (Nat.not_lt.mpr hfits)] at hbody
      refine ⟨_, exec_of_done (by decide) (refusedIn_unstuff _) hbody, rfl, rfl, rfl, rfl, nofun, ?_⟩
      rintro _ ⟨⟩
      rw [if_pos hfits, State.setPlen_csr, State.fit_of_lt _ hp]
      exact ⟨rfl, Space.get?_exactly p⟩
    · rw [if_pos (Nat.lt_of_not_le hfits)] at hbody
      have hexec := raises _ _ hbody
      rw [State.takeError_unstuff (.inr rfl) hp] at hexec
      refine ⟨_, hexec, rfl, rfl, rfl, rfl, nofun, ?_⟩
      rintro _ ⟨⟩
      rw [if_neg hfits]
      exact ⟨rfl, Space.get?_unspecified⟩

end Sys2Proof.Machine
end

section
/-! PROOFS. The Block Encoder (45_block_encoder.md): what ENCODE keeps, which engine outputs it accepts, what it answers on normal
answers and on failing runs (R240 to R245), and the stream that a DECODE after it presents (R242, R262). -/

namespace Sys2Proof.Machine

/-! ## What ENCODE keeps, update by update (R243, R316) -/

theorem KeepsButEncodeOutputs.nSamp {s t : State} (h : KeepsButEncodeOutputs s t) : t.nSamp = s.nSamp := by
  obtain ⟨_, hcsr, _⟩ := h
  simp only [State.nSamp, State.width, State.height, State.depth]
  rw [hcsr]

theorem KeepsButEncodeOutputs.trans {s t u : State} (h : KeepsButEncodeOutputs s t) (k : KeepsButEncodeOutputs t u) :
    KeepsButEncodeOutputs s u := by
  have hn := h.nSamp
  obtain ⟨hl, hcsr, hmem, hx, hh⟩ := h
  obtain ⟨kl, kcsr, kmem, kx, kh⟩ := k
  exact ⟨kl.trans hl, kcsr.trans (by rw [hcsr]), kmem.trans (by rw [hmem]),
    fun i hi => (kx i (hn.le.trans hi)).trans (hx i hi), kh.trans hh⟩

theorem EceOnly.keepsButEncodeOutputs {s t : State} (h : EceOnly s t) : KeepsButEncodeOutputs s t :=
  ⟨h.lifecycle, by rw [h.csr], by rw [h.mem], fun i _ => by rw [h.mem], h.host⟩

theorem State.finish_keepsButEncodeOutputs (s : State) (code : Word) (info : Nat) :
    KeepsButEncodeOutputs s (s.finish code info) :=
  ⟨rfl, rfl, rfl, fun _ _ => rfl, rfl⟩

theorem State.voidEncode_keepsButEncodeOutputs (s : State) : KeepsButEncodeOutputs s s.voidEncode :=
  ⟨rfl, rfl, rfl, fun _ hi => (Space.get?_voidBelow ..).trans (if_pos hi), rfl⟩

theorem State.mapBlock_keepsButEncodeOutputs (s : State) : KeepsButEncodeOutputs s s.mapBlock :=
  ⟨rfl, rfl, rfl, fun _ hi => State.mapBlock_get?_of_ge hi, rfl⟩

theorem State.storePayload_keepsButEncodeOutputs (s : State) (out p : List Byte) :
    KeepsButEncodeOutputs s (s.storePayload out p) :=
  ⟨rfl, rfl, rfl, fun _ _ => rfl, rfl⟩

theorem State.beforeCompress_keepsButEncodeOutputs (s : State) : KeepsButEncodeOutputs s s.beforeCompress :=
  (s.voidEncode_keepsButEncodeOutputs.trans s.voidEncode.mapBlock_keepsButEncodeOutputs).trans
    (s.voidEncode.mapBlock.advance_eceOnly 27).keepsButEncodeOutputs

/-- Nothing but ENCODE's outputs differs while it drives the engine, and after a recovery. -/
theorem EceOnly.keepsFromEncode {s u : State} (h : EceOnly s.beforeCompress u) : KeepsButEncodeOutputs s u :=
  s.beforeCompress_keepsButEncodeOutputs.trans h.keepsButEncodeOutputs

/-! ## How ENCODE ends (R147, R312) -/

theorem refusedIn_encode_ready {s : State} (hl : s.lifecycle = .ready) : refusedIn .encode s.lifecycle = false := by
  rw [hl]
  rfl

theorem exec_of_fault {i : Instr} {s : State} {r : Fault} (hi : i ≠ .nop) (hr : refusedIn i s.lifecycle = false)
    (hb : commandBody i s = .fault r) : exec i s = .fault r := by
  rw [exec_eq_runCommand hi]
  simp [runCommand, legalIn_eq_not_refusedIn, hr, hb]

/-- A command that succeeds has run its body to the end. -/
theorem exec_next_ok {i : Instr} {s t : State} (hi : i ≠ .nop) (h : exec i s = .next t) (hc : t.csr.errcode = 0#32) :
    ∃ u, commandBody i s = .done u ∧ t = u.setCsr u.csr.okResult := by
  cases exec_next h with
  | nop h0 _ => exact absurd h0 hi
  | refused _ _ ht => simp [ht] at hc
  | done _ _ u hb ht => exact ⟨u, hb, ht⟩
  | raised _ _ e u _ ht => exact absurd (by simpa [ht] using hc) (errorCode_ne_zero e.cause)

/-- A per-call error of ENCODE voids its outputs and reports itself (R316). -/
theorem State.takeError_encode {e : Err} (hc : classOf e.cause = .framingViolation) (u : State) :
    u.takeError .encode e = u.voidEncode.finish (errorCode e.cause) e.info :=
  State.takeError_perCall u (.inl hc)

/-- What an error of ENCODE leaves, when all before it kept everything but ENCODE's outputs. -/
theorem KeepsButEncodeOutputs.takeError {s u : State} {e : Err} (h : KeepsButEncodeOutputs s u)
    (hc : classOf e.cause = .framingViolation) :
    KeepsButEncodeOutputs s (u.takeError .encode e) ∧ EncodeVoided s (u.takeError .encode e) := by
  rw [State.takeError_encode hc]
  refine ⟨(h.trans u.voidEncode_keepsButEncodeOutputs).trans (State.finish_keepsButEncodeOutputs _ _ _), rfl, rfl,
    fun i hi => ?_, Space.get?_unspecified, Space.get?_unspecified⟩
  have hlt : ¬ u.nSamp ≤ i := by rw [h.nSamp]; omega
  exact (Space.get?_voidBelow ..).trans (if_neg hlt)

/-- The registers after an error of ENCODE whose detail fits ERRINFO. -/
theorem State.takeError_encode_result {e : Err} (hc : classOf e.cause = .framingViolation) (hi : e.info < 2 ^ 32) (u : State) :
    (u.takeError .encode e).csr.errcode = errorCode e.cause ∧ (u.takeError .encode e).csr.errinfo = BitVec.ofNat 32 e.info
      ∧ (u.takeError .encode e).csr.err = true := by
  rw [State.takeError_encode hc, State.finish_csr_of_ne_zero (errorCode_ne_zero _), State.fit_of_lt _ hi]
  exact ⟨rfl, rfl, rfl⟩

theorem State.takeError_encode_ece {e : Err} (hc : classOf e.cause = .framingViolation) (u : State) :
    (u.takeError .encode e).ece = u.ece := by
  rw [State.takeError_encode hc]
  rfl

theorem encodeBody_done_keeps {s u : State} (h : encodeBody s = .done u) : KeepsButEncodeOutputs s u := by
  obtain ⟨out, p, v, hd, _, rfl⟩ := encodeBody_done h
  exact (driveCompress_ok_eceOnly hd).keepsFromEncode.trans (v.storePayload_keepsButEncodeOutputs out p)

/-- Settles O42: each update of ENCODE keeps everything but its outputs, and every error that it raises voids them. -/
theorem encodeKeepsEverythingElse : Obligations.EncodeKeepsEverythingElse := by
  intro s t h
  cases exec_next h with
  | nop hi _ => cases hi
  | refused _ hr ht =>
    rw [ht]
    refine ⟨⟨rfl, rfl, rfl, fun _ _ => rfl, rfl⟩, fun hl => ?_⟩
    cases hr.symm.trans (refusedIn_encode_ready hl)
  | done _ _ u hb ht =>
    rw [ht, ← State.finish_ok]
    exact ⟨(encodeBody_done_keeps hb).trans (u.finish_keepsButEncodeOutputs _ _), fun _ hne => absurd rfl hne⟩
  | raised _ _ e u hb ht =>
    obtain ⟨hc, hu⟩ := encodeBody_raise_frame hb
    obtain ⟨hkeeps, hvoided⟩ := hu.keepsFromEncode.takeError hc
    rw [ht]
    exact ⟨hkeeps, fun _ _ => hvoided⟩

/-! ## Which outputs ENCODE accepts (R241 steps 3 to 5) -/

theorem entropyRegion_framed {hdr ftr : List Byte} (hh : hdr.length = 25) (hf : ftr.length = 2) (e : List Byte) :
    entropyRegion (hdr ++ e ++ ftr) = e := by
  have hlen : (hdr ++ e ++ ftr).length - 27 = e.length := by
    simp only [List.length_append, hh, hf]
    omega
  rw [entropyRegion, hlen, List.append_assoc, List.drop_left' hh, List.take_left]

/-- ENCODE accepts exactly the framed stuffed payloads that fit EBUF (R114, R241). -/
theorem acceptStream_ok_iff {hdr ftr b p : List Byte} (hh : hdr.length = 25) (hf : ftr.length = 2) :
    acceptStream hdr ftr b = .ok p ↔ b.length ≤ Config.ebufCap ∧ b = hdr ++ stuff p ++ ftr := by
  constructor
  · intro h
    obtain ⟨hle, hv, hu⟩ := acceptStream_ok h
    obtain ⟨e, rfl⟩ := (verifyFramingAcceptsExactlyWellFramed b hdr ftr hh hf).mp hv
    rw [entropyRegion_framed hh hf, unstuff_eq_ok_iff] at hu
    exact ⟨hle, by rw [hu]⟩
  · rintro ⟨hle, rfl⟩
    have hv := (verifyFramingAcceptsExactlyWellFramed _ hdr ftr hh hf).mpr ⟨stuff p, rfl⟩
    rw [acceptStream, if_neg (Nat.not_lt.mpr hle), hv, entropyRegion_framed hh hf, unstuff_stuff]

theorem acceptStream_of_verifyFraming_error {hdr ftr b : List Byte} {e : Err} (hle : b.length ≤ Config.ebufCap)
    (hv : verifyFraming b hdr ftr = .error e) : acceptStream hdr ftr b = .error e := by
  rw [acceptStream, if_neg (Nat.not_lt.mpr hle), hv]

theorem unstuff_error_of_wellStuffed_take {y : List Byte} {k : Nat} (hk : WellStuffed (y.take k)) (hff : y[k]? = some 0xFF#8)
    (hnext : y[k + 1]? ≠ some 0x00#8) : unstuff y = .error k := by
  obtain ⟨x, hx⟩ := hk.exists_eq_stuff
  exact (unstuffReportsFirstUnescaped y k).mpr ⟨hff, hnext, x, unstuff_eq_ok_iff.mpr hx⟩

/-- The order of R320, spelled by `RejectedWith`, is that of ENCODE's checks; the detail is below 25 or at
most the output's length. -/
theorem RejectedWith.acceptStream_error {hdr ftr b : List Byte} {code : Word} {info : Nat} (hh : hdr.length = 25)
    (hf : ftr.length = 2) (h : RejectedWith hdr ftr b code info) :
    ∃ c, acceptStream hdr ftr b = .error ⟨c, info⟩ ∧ errorCode c = code ∧ (info < 25 ∨ info ≤ b.length) := by
  obtain ⟨hover, rfl, rfl⟩ | ⟨hle, ⟨hk, hne, hbefore, rfl⟩ | ⟨hheader, rfl, hfooter⟩ | ⟨e, rfl, hpre, hff, hnext, rfl⟩⟩ := h
  · exact ⟨.overflow, by rw [acceptStream, if_pos hover], rfl, .inr le_rfl⟩
  · have hv := (verifyFraming_headerMismatch_iff (ftr := ftr)).mpr ⟨hk, hne, hbefore⟩
    exact ⟨.headerMismatch, acceptStream_of_verifyFraming_error hle hv, rfl, .inl hk⟩
  · obtain ⟨hshort, hfirst, hsecond, _⟩ := (verifyFramingNamesFirstMismatch b hdr ftr hh hf).2 hheader
    have hv : verifyFraming b hdr ftr = .error ⟨.footerMismatch, info⟩ := by
      obtain ⟨hlen, rfl⟩ | ⟨hlen, h0, rfl⟩ | ⟨hlen, h0, h1, rfl⟩ := hfooter
      · exact hshort hlen
      · exact hfirst hlen h0
      · exact hsecond hlen h0 h1
    exact ⟨.footerMismatch, acceptStream_of_verifyFraming_error hle hv, rfl, verifyFraming_error_info hv⟩
  · have hv := (verifyFramingAcceptsExactlyWellFramed _ hdr ftr hh hf).mpr ⟨e, rfl⟩
    have hu := unstuff_error_of_wellStuffed_take hpre hff hnext
    have hlt := unstuff_error_lt_length hu
    refine ⟨.unescapedFf, ?_, rfl, .inr ?_⟩
    · rw [acceptStream, if_neg (Nat.not_lt.mpr hle), hv, entropyRegion_framed hh hf, hu]
    · simp only [List.length_append]
      omega

/-! ## ENCODE on normal answers (R241, R242) -/

/-- The header ENCODE checks the stream against (R46). -/
abbrev State.header (s : State) : List Byte := synthHeader s.width s.height s.depth s.precision

theorem State.FramedOk.readHdr_mapBlock {s : State} (h : s.FramedOk) : s.voidEncode.mapBlock.readHdr = s.header :=
  State.FramedOk.readHdr (s := s.voidEncode.mapBlock) h

theorem State.FramedOk.readFtr_mapBlock {s : State} (h : s.FramedOk) : s.voidEncode.mapBlock.readFtr = synthFooter :=
  State.FramedOk.readFtr (s := s.voidEncode.mapBlock) h

/-- With HDR and FTR synthesized, an engine run that ends normally decides ENCODE's body by the acceptance of its output. -/
theorem encodeBody_of_output {s u : State} {out : List Byte} (hs : s.FramedOk)
    (hd : driveCompress s.header synthFooter s.beforeCompress = .ok out u) :
    (∀ p, acceptStream s.header synthFooter out = .ok p → encodeBody s = .done (u.storePayload out p))
    ∧ ∀ e, acceptStream s.header synthFooter out = .error e → encodeBody s = .raise e u := by
  have hd : driveCompress s.header synthFooter s.voidEncode.mapBlock.afterFraming = .ok out u := hd
  simp only [encodeBody, hs.readHdr_mapBlock, hs.readFtr_mapBlock, hd]
  exact ⟨fun p ha => by rw [ha], fun e ha => by rw [ha]⟩

/-- What driving the engine through ENCODE's image with normal answers leaves in `u`, with the output `out` after the last answer. -/
structure NormalCompress (s : State) (counts : List Reply) (last : Reply) (rest : List Reply) (out : List Byte) (u : State) :
    Prop where
  run : driveCompress s.header synthFooter s.beforeCompress = .ok out u
  ece : u.ece = { s.ece with
    replies := rest
    port := s.ece.port ++ [.beginCompress s.width s.nRows 1] ++ writeCalls s.width s.nRows 0 counts ++ [.finishCompress] }
  own : last.output = none → out = s.eceEnc s.encodeKey
  other : ∀ b e, last.output = some b → acceptStream s.header synthFooter b = .error e → out = b

/-- XBUF holds the narrowed block when ENCODE drives the engine (R241 step 1). -/
theorem State.beforeCompress_xbufHolds (s : State) :
    s.beforeCompress.XbufHolds fun n => narrow s.precision (s.mem.blkIn.read (s.draws + n) n) :=
  (State.advance_eceOnly _ 27).xbufHolds s.voidEncode.mapBlock_xbufHolds

/-- The image that ENCODE hands over is ECE_ENC's argument (R242). -/
theorem State.encodeKey_eq (s : State) :
    s.encodeKey = ⟨s.eceCfg, s.width, s.nRows,
      imageRows s.width s.precision (fun n => narrow s.precision (s.mem.blkIn.read (s.draws + n) n)) 0 s.nRows⟩ := by
  rw [s.imageRows_mapBlock, State.encodeKey]

theorem State.Inv.ctx_ready {s : State} (hs : s.Inv) (hl : s.lifecycle = .ready) : s.ece.ctx = some ⟨s.eceCfg, .idle⟩ := by
  obtain ⟨tabs, _, _, _, _, _, _, _, hctx⟩ := hs.readyWith hl
  rw [State.eceCfg, hctx]

theorem exists_normalCompress {s : State} {first last : Reply} {counts rest : List Reply} (hl : s.lifecycle = .ready) (hs : s.Inv)
    (hr : s.ece.replies = first :: (counts ++ last :: rest)) (hf : first.error = false) (hc : RowCounts 0 s.nRows counts)
    (hlast : last.error = false) : ∃ out u, NormalCompress s counts last rest out u := by
  obtain ⟨out, u, hd, hreplies, hport, hown, hother⟩ := driveCompress_run (s := s.beforeCompress) (hdr := s.header)
    (ftr := synthFooter) hr hf hc hlast s.beforeCompress_xbufHolds
  have e := driveCompress_ok_eceOnly hd
  have hctx : u.ece.ctx = s.ece.ctx := (driveCompress_beforeCompress_ctx hd).trans (hs.ctx_ready hl).symm
  refine ⟨out, u, hd, ?_, fun ho => (hown ho).trans (congrArg s.eceEnc s.encodeKey_eq.symm), hother⟩
  calc u.ece = ⟨u.ece.ctx, u.ece.port, u.ece.replies, u.ece.encTable, u.ece.decTable⟩ := rfl
    _ = ⟨s.ece.ctx, _, rest, s.ece.encTable, s.ece.decTable⟩ := by rw [hctx, hport, hreplies, e.encTable, e.decTable]; rfl

theorem State.length_le_length_framedStream (s : State) (p : List Byte) : p.length ≤ (s.framedStream p).length := by
  have := length_le_length_stuff p
  simp only [State.framedStream, List.length_append]
  omega

/-- Settles O39: the output is ECE_ENC's, and it is accepted because it is the framing around a stuffed payload. -/
theorem encodeProducesThePayload : Obligations.EncodeProducesThePayload := by
  intro s first last counts rest p hl hs hr hf hc hlast hout henc hcap hlen
  obtain ⟨out, u, hu⟩ := exists_normalCompress hl hs hr hf hc hlast
  have hframed := hs.framedOk (by rw [hl]; decide)
  obtain rfl : out = s.framedStream p := (hu.own hout).trans henc
  have hbody := (encodeBody_of_output hframed hu.run).1 p ((acceptStream_ok_iff (synthHeader_length ..) rfl).mpr ⟨hcap, rfl⟩)
  have hplen : p.length < 2 ^ 32 := (s.length_le_length_framedStream p).trans_lt hlen
  have e := driveCompress_ok_eceOnly hu.run
  refine ⟨_, exec_of_done (i := .encode) (by decide) (refusedIn_encode_ready hl) hbody, ?_, ?_, Space.get?_exactly _,
    Space.get?_exactly _, fun n hn => ?_, hu.ece⟩
  · rw [← State.finish_ok]
    exact (encodeBody_done_keeps hbody).trans (State.finish_keepsButEncodeOutputs _ _ _)
  · simp only [State.setCsr_csr, State.storePayload, State.setPlen_csr, State.setElen_csr, State.setMem_csr, State.fit_of_lt _ hlen,
      State.fit_of_lt _ hplen, e.csr]
    rfl
  · calc u.mem.xbuf.get? n = s.voidEncode.mapBlock.mem.xbuf.get? n := by rw [e.mem]; rfl
      _ = some (narrow s.precision (s.mem.blkIn.read (s.draws + n) n)) := State.mapBlock_get?_of_lt (s := s.voidEncode) hn

/-- Settles O40: a rejected output is the run's output, be it ECE_ENC's or not, and its error follows `RejectedWith`. -/
theorem encodeRejectsBadStreams : Obligations.EncodeRejectsBadStreams := by
  intro s first last counts rest b code info hl hs hr hf hc hlast hout hlen hrej
  obtain ⟨c, haccept, rfl, hinfo⟩ := hrej.acceptStream_error (synthHeader_length ..) rfl
  obtain ⟨out, u, hu⟩ := exists_normalCompress hl hs hr hf hc hlast
  obtain rfl : out = b := by
    obtain hother | ⟨hown, rfl⟩ := hout
    · exact hu.other b _ hother haccept
    · exact hu.own hown
  have hbody := (encodeBody_of_output (hs.framedOk (by rw [hl]; decide)) hu.run).2 _ haccept
  have hclass := acceptStream_error haccept
  obtain ⟨hkeeps, hvoided⟩ := (driveCompress_ok_eceOnly hu.run).keepsFromEncode.takeError hclass
  obtain ⟨hcode, herrinfo, herr⟩ := State.takeError_encode_result (e := ⟨c, info⟩) hclass (by simp only; omega) u
  refine ⟨_, exec_of_raise (i := .encode) (by decide) (refusedIn_encode_ready hl) hbody, hkeeps, hvoided, hcode, herrinfo, herr, ?_⟩
  rw [State.takeError_encode_ece hclass, hu.ece]
  exact ⟨rfl, rfl, rfl⟩

/-! ## ENCODE on failing runs (R241 label E, R298) -/

/-- Not more rows are accepted than the image has. -/
theorem CompressFails.rows_le {w n k : Nat} {answers : List Reply} {calls : List Transaction}
    (h : CompressFails w n answers calls k) : k ≤ n := by
  cases h with
  | atBegin => exact Nat.zero_le _
  | atRows _ _ _ _ _ _ hk => exact hk.le
  | atFinish => exact le_rfl

theorem State.FramedOk.nRows_lt {s : State} (h : s.FramedOk) : s.nRows < 2 ^ 32 := by
  obtain ⟨⟨_, _, _, _, _, _, _, _, hrows, _⟩, _⟩ := h
  exact hrows.trans_lt (by decide)

theorem State.takeError_encode_sameInstance {e : Err} (hc : classOf e.cause = .framingViolation) (u : State) :
    SameInstance u (u.takeError .encode e) := by
  rw [State.takeError_encode hc]
  exact ⟨⟨rfl, ⟨rfl, rfl, rfl, rfl⟩, rfl⟩, rfl⟩

/-- A failing run decides ENCODE's body by its recovery. -/
theorem encodeBody_of_bad {s u : State} {e : Err} (hs : s.FramedOk)
    (hd : driveCompress s.header synthFooter s.beforeCompress = .bad e u) : encodeBody s = recoverThenRaise e u := by
  have hd : driveCompress s.header synthFooter s.voidEncode.mapBlock.afterFraming = .bad e u := hd
  simp only [encodeBody, hs.readHdr_mapBlock, hs.readFtr_mapBlock, hd]

/-- Settles O41: the recovery reads the tables back from the shadows, which no transaction of the failed run has touched. -/
theorem encodeEngineErrorRecovers : Obligations.EncodeEngineErrorRecovers := by
  intro s tabs answers rest calls k rd rc rq rh ra hl hm hready hfails hr
  have hframed : s.FramedOk := hready.1
  obtain ⟨u, hd, hreplies, hport⟩ := driveCompress_fails (s := s.beforeCompress) (hdr := s.header) (ftr := synthFooter) hfails hr
  have hbody := encodeBody_of_bad hframed hd
  have e := driveCompress_bad_eceOnly hd
  have hsame : SameButContext s u := s.beforeCompress_sameButContext.trans e.toXbuf.sameButContext
  have hprec : u.precision = s.precision := hsame.cfg.precision
  obtain ⟨recovers, faults⟩ := State.recover_run (by rw [hprec]; exact hsame.shadowTables hready) hreplies
  refine ⟨fun h1 h2 h3 h4 => ?_, fun hbad => ?_⟩
  · obtain ⟨v, hrec, hvreplies, hvport⟩ := recovers h1 h2 h3 h4
    rw [recoverThenRaise, hrec] at hbody
    have hclass : classOf (Err.mk .engineError k).cause = .framingViolation := rfl
    obtain ⟨hkeeps, hvoided⟩ := (e.trans (State.recover_spec hrec).1).keepsFromEncode.takeError hclass
    obtain ⟨hcode, herrinfo, herr⟩ := State.takeError_encode_result hclass (hfails.rows_le.trans_lt hframed.nRows_lt) v
    refine ⟨_, exec_of_raise (i := .encode) (by decide) (refusedIn_encode_ready hl) hbody, hkeeps, hvoided, hcode, herrinfo, herr,
      (State.takeError_encode_sameInstance hclass v).readyWith ((hsame.afterRecovery hready hrec).readyWith hready), ?_⟩
    rw [State.takeError_encode_ece hclass, hvport, hport, hprec]
    exact ⟨hvreplies, rfl⟩
  · rw [recoverThenRaise, faults hbad] at hbody
    exact exec_of_fault (i := .encode) (by decide) (refusedIn_encode_ready hl) hbody

/-! ## A successful ENCODE (R242, R245) -/

/-- What a successful ENCODE of the payload `p` has stored: the stream that ECE_ENC gave, framed as R262 says, and the payload. -/
structure EncodedPayload (s t : State) (p : List Byte) : Prop where
  stream : s.eceEnc s.encodeKey = s.framedStream p
  ebuf : t.mem.ebuf = .exactly (s.framedStream p)
  pbuf : t.mem.pbuf = .exactly p
  elen : (s.framedStream p).length < 2 ^ 32 → t.csr.elen = BitVec.ofNat 32 (s.framedStream p).length
  plen : p.length < 2 ^ 32 → t.csr.plen = BitVec.ofNat 32 p.length

/-- Other bytes than ECE_ENC's come only on a run that fails (R300 c), so a success has stored ECE_ENC's. -/
theorem exec_encode_ok {s t : State} (hl : s.lifecycle = .ready) (hs : s.Inv) (h : exec .encode s = .next t)
    (hc : t.csr.errcode = 0#32) : ∃ p, EncodedPayload s t p := by
  obtain ⟨v, hb, rfl⟩ := exec_next_ok (by decide) h hc
  obtain ⟨out, p, u, hd, ha, rfl⟩ := encodeBody_done hb
  have hframed := hs.framedOk (by rw [hl]; decide)
  rw [hframed.readHdr_mapBlock, hframed.readFtr_mapBlock] at ha hd
  have hown : out = s.eceEnc s.encodeKey := by
    rw [s.encodeKey_eq]
    obtain hown | ⟨e, he⟩ := (driveCompress_ok hd s.beforeCompress_xbufHolds).2
    · exact hown
    · cases ha.symm.trans he
  obtain ⟨_, hout⟩ := (acceptStream_ok_iff (synthHeader_length ..) rfl).mp ha
  obtain rfl : out = s.framedStream p := hout
  exact ⟨p, hown.symm, rfl, rfl, State.fit_of_lt _, State.fit_of_lt _⟩

/-- Equal specified blocks map to equal rows, whatever the draws (R205). -/
theorem State.blockRows_congr {s t : State} (hcfg : s.csr.SameCfg t.csr)
    (hblk : ∀ n, n < s.nSamp → ∃ v, s.mem.blkIn.get? n = some v ∧ t.mem.blkIn.get? n = some v) : t.blockRows = s.blockRows := by
  simp only [State.blockRows, mapRows_eq, hcfg.width, hcfg.height, hcfg.depth, hcfg.precision]
  refine List.map_congr_left fun i hi => List.map_congr_left fun x hx => ?_
  have hn : i * s.width + x < s.nSamp := by
    calc i * s.width + x = rowOf s.width x i := by rw [rowOf]; ring
      _ < s.width * (s.height * s.depth) := rowOf_lt (List.mem_range.mp hx) (List.mem_range.mp hi)
      _ = s.nSamp := by rw [State.nSamp, Nat.mul_assoc]
  obtain ⟨v, hs, ht⟩ := hblk _ hn
  rw [Space.read_of_get? hs, Space.read_of_get? ht]

theorem State.framedStream_congr {s t : State} (hcfg : s.csr.SameCfg t.csr) (p : List Byte) :
    t.framedStream p = s.framedStream p := by
  simp only [State.framedStream, hcfg.width, hcfg.height, hcfg.depth, hcfg.precision]

theorem State.framedStream_injective (s : State) : Function.Injective s.framedStream := fun _ _ h =>
  stuff_injective (List.append_cancel_left (List.append_cancel_right h))

/-- Settles O43: both streams are ECE_ENC's of one argument, and a framed stream determines its payload. -/
theorem encodeIsDeterministic : Obligations.EncodeIsDeterministic := by
  rintro s s' t t' hl hl' hs hs' ⟨hw, hh, hd, hp, hece, htable, hblk⟩ h h' hc hc'
  have hcfg : s.csr.SameCfg s'.csr := ⟨hw.symm, hh.symm, hd.symm, hp.symm⟩
  obtain ⟨p, encoded⟩ := exec_encode_ok hl hs h hc
  obtain ⟨p', encoded'⟩ := exec_encode_ok hl' hs' h' hc'
  have hkey : s'.encodeKey = s.encodeKey := by
    rw [State.encodeKey, State.encodeKey, hece, hcfg.width, State.nRows_congr hh.symm hd.symm, State.blockRows_congr hcfg hblk]
  have hstream : s.framedStream p = s.framedStream p' :=
    calc s.framedStream p = s.eceEnc s.encodeKey := encoded.stream.symm
      _ = s'.eceEnc s'.encodeKey := by rw [hkey, State.eceEnc_congr htable]
      _ = s.framedStream p' := encoded'.stream.trans (State.framedStream_congr hcfg p')
  obtain rfl := s.framedStream_injective hstream
  exact ⟨encoded.pbuf.trans encoded'.pbuf.symm,
    by rw [encoded.ebuf, encoded'.ebuf, State.framedStream_congr hcfg]⟩

/-! ## A DECODE after it (R262) -/

/-- DECODE frames the payload that PBUF and PLEN hold (R261 step 1). -/
theorem State.decodeStream_of_payload {s : State} {p : List Byte} (hs : s.FramedOk) (hn : s.csr.plen.toNat = p.length)
    (hp : ∀ k, k < p.length → s.mem.pbuf.get? k = p[k]?) : s.decodeStream = s.framedStream p := by
  have hread : s.mem.pbuf.readRange s.draws 0 p.length = p := Space.readRange_of_list (by simpa using hp) _
  rw [State.decodeStream, State.FramedOk.readHdr (s := (s.advance s.csr.plen.toNat).voidDecode) hs,
    State.FramedOk.readFtr (s := (s.advance s.csr.plen.toNat).voidDecode) hs, hn, hread]
  rfl

theorem State.eceReadHeader_port (s : State) (stream : List Byte) :
    (s.eceReadHeader stream).2.ece.port = s.ece.port ++ [.readHeader stream] := by
  unfold State.eceReadHeader
  dsimp only
  split <;> exact s.issue_port _

theorem State.port_prefix_eceReadScanlines (s : State) (done : Nat) : s.ece.port <+: (s.eceReadScanlines done).2.ece.port := by
  have hissue : s.ece.port <+: (s.issue (.readScanlines (rowPtrs s.width done (s.nRows - done)) (s.nRows - done))).2.ece.port :=
    ⟨_, (s.issue_port _).symm⟩
  unfold State.eceReadScanlines
  dsimp only
  split_ifs
  · exact hissue
  · exact hissue
  · exact hissue
  · rw [(State.deliverRows_ece _ _ _).2]
    exact hissue

theorem port_prefix_readRows (fuel done : Nat) (s : State) : s.ece.port <+: (readRows fuel done s).state.ece.port := by
  induction fuel generalizing done s with
  | zero => exact List.prefix_rfl
  | succ fuel ih =>
    unfold readRows
    split
    · have h := s.port_prefix_eceReadScanlines done
      generalize s.eceReadScanlines done = a at h
      obtain ⟨n, t⟩ := a
      cases n with
      | error e => exact h
      | ok n => exact h.trans (ih _ _)
    · exact List.prefix_rfl

/-- Whatever the engine answers, `read_header` with the whole stream is the first transaction of a decompression (R261, R288). -/
theorem port_prefix_driveDecompress (stream : List Byte) (s : State) :
    s.ece.port ++ [.readHeader stream] <+: (driveDecompress stream s).state.ece.port := by
  have h0 : s.ece.port ++ [.readHeader stream] <+: (s.eceReadHeader stream).2.ece.port :=
    s.eceReadHeader_port stream ▸ List.prefix_rfl
  unfold driveDecompress
  dsimp only
  generalize s.eceReadHeader stream = b at h0
  split
  · exact h0
  · have h1 : s.ece.port ++ [.readHeader stream] <+: b.2.eceBeginDecompress.2.ece.port :=
      h0.trans ⟨_, (b.2.issue_port .beginDecompress).symm⟩
    generalize b.2.eceBeginDecompress = c at h1
    split
    · exact h1
    · have h2 := h1.trans (port_prefix_readRows s.nRows 0 c.2)
      generalize readRows s.nRows 0 c.2 = r at h2
      cases r with
      | bad e t => exact h2
      | ok a t =>
        have h3 : s.ece.port ++ [.readHeader stream] <+: t.eceFinishDecompress.2.ece.port := by
          refine h2.trans ⟨[.finishDecompress], ?_⟩
          unfold State.eceFinishDecompress
          dsimp only
          split <;> exact (t.issue_port _).symm
        dsimp only
        generalize t.eceFinishDecompress = f at h3
        split <;> exact h3

/-- What a successful DECODE has stored and presented: the stream it built, whole. -/
theorem exec_decode_ok {s t : State} (h : exec .decode s = .next t) (hc : t.csr.errcode = 0#32) :
    t.mem.ebuf = .exactly s.decodeStream ∧ t.mem.pbuf = s.mem.pbuf
      ∧ (s.decodeStream.length < 2 ^ 32 → t.csr.elen = BitVec.ofNat 32 s.decodeStream.length)
      ∧ ∃ calls, t.ece.port = s.ece.port ++ .readHeader s.decodeStream :: calls := by
  obtain ⟨u, hb, rfl⟩ := exec_next_ok (by decide) h hc
  obtain ⟨_, _, v, hd, rfl⟩ := decodeBody_done hb
  have e := driveDecompress_ok_eceAndXbuf hd
  obtain ⟨x, hx⟩ := e.mem
  have hport := port_prefix_driveDecompress s.decodeStream s.beforeDecompress
  rw [hd] at hport
  obtain ⟨calls, hcalls⟩ := hport
  refine ⟨congrArg Memory.ebuf hx, (congrArg Memory.pbuf hx).trans rfl, fun hlen => ?_, calls, ?_⟩
  · exact (congrArg Csrs.elen e.csr).trans (State.fit_of_lt _ hlen)
  · rw [List.append_assoc] at hcalls
    exact hcalls.symm

/-- A sequence that ends before an unspecified element is not longer than its index. -/
theorem length_le_of_get?_exactly {w : Nat} {vs : List (BitVec w)} {n : Nat} (h : (Space.exactly vs).get? n = none) :
    vs.length ≤ n :=
  List.getElem?_eq_none_iff.mp ((Space.get?_exactly vs n).symm.trans h)

/-- Settles O50: ENCODE stores the payload of the stream, and DECODE frames the payload to the same stream. -/
theorem decodePresentsTheEncodedStream : Obligations.DecodePresentsTheEncodedStream := by
  intro s t u hl hs h hc hshort hdec hdc
  obtain ⟨p, encoded⟩ := exec_encode_ok hl hs h hc
  obtain ⟨⟨htl, hcsr, _⟩, _⟩ := encodeKeepsEverythingElse s t h
  have hcfg : s.csr.SameCfg t.csr := by
    rw [hcsr]
    exact ⟨rfl, rfl, rfl, rfl⟩
  have hlen : (s.framedStream p).length < 2 ^ 32 := by
    have := hshort (2 ^ 32 - 1) le_rfl
    rw [encoded.ebuf] at this
    have := length_le_of_get?_exactly this
    omega
  have hplen : p.length < 2 ^ 32 := (s.length_le_length_framedStream p).trans_lt hlen
  have hstream : t.decodeStream = s.framedStream p := by
    rw [State.decodeStream_of_payload ((inv_exec hs h).framedOk (by rw [htl, hl]; decide)) (p := p), State.framedStream_congr hcfg]
    · rw [encoded.plen hplen, BitVec.toNat_ofNat, Nat.mod_eq_of_lt hplen]
    · intro k _
      rw [encoded.pbuf, Space.get?_exactly]
  obtain ⟨hebuf, hpbuf, helen, calls, hport⟩ := exec_decode_ok hdec hdc
  rw [hstream] at hebuf helen hport
  exact ⟨hebuf.trans encoded.ebuf.symm, (helen hlen).trans (encoded.elen hlen).symm, hpbuf, _, calls, hebuf, hport⟩

end Sys2Proof.Machine
end

section
/-! PROOFS. The Block Decoder (46_block_decoder.md): what DECODE keeps whatever the engine answers (R266, R316), the block that it
stores when the engine answers normally (R261 to R265), and its failing runs (R267, R298). -/

namespace Sys2Proof.Machine

/-! ## What DECODE keeps, update by update (R266, R316) -/

theorem KeepsButDecodeOutputs.nSamp {s t : State} (h : KeepsButDecodeOutputs s t) : t.nSamp = s.nSamp := by
  obtain ⟨_, hcsr, _⟩ := h
  simp only [State.nSamp, State.width, State.height, State.depth]
  rw [hcsr]

theorem KeepsButDecodeOutputs.refl (s : State) : KeepsButDecodeOutputs s s := ⟨rfl, rfl, rfl, fun _ _ => ⟨rfl, rfl⟩, rfl⟩

theorem KeepsButDecodeOutputs.trans {s t u : State} (h : KeepsButDecodeOutputs s t) (k : KeepsButDecodeOutputs t u) :
    KeepsButDecodeOutputs s u := by
  have hn := h.nSamp
  obtain ⟨hl, hcsr, hmem, hx, hh⟩ := h
  obtain ⟨kl, kcsr, kmem, kx, kh⟩ := k
  refine ⟨kl.trans hl, kcsr.trans (by rw [hcsr]), kmem.trans (by rw [hmem]), fun i hi => ?_, kh.trans hh⟩
  obtain ⟨kxbuf, kblk⟩ := kx i (hn.le.trans hi)
  obtain ⟨hxbuf, hblk⟩ := hx i hi
  exact ⟨kxbuf.trans hxbuf, kblk.trans hblk⟩

theorem EceAndXbuf.keepsButDecodeOutputs {s t : State} (h : EceAndXbuf s t)
    (hx : ∀ i, s.nSamp ≤ i → t.mem.xbuf.get? i = s.mem.xbuf.get? i) : KeepsButDecodeOutputs s t := by
  obtain ⟨x, hmem⟩ := h.mem
  exact ⟨h.lifecycle, by rw [h.csr], by rw [hmem], fun i hi => ⟨hx i hi, by rw [hmem]⟩, h.host⟩

theorem EceOnly.keepsButDecodeOutputs {s t : State} (h : EceOnly s t) : KeepsButDecodeOutputs s t :=
  h.toXbuf.keepsButDecodeOutputs fun _ _ => by rw [h.mem]

theorem State.finish_keepsButDecodeOutputs (s : State) (code : Word) (info : Nat) :
    KeepsButDecodeOutputs s (s.finish code info) :=
  ⟨rfl, rfl, rfl, fun _ _ => ⟨rfl, rfl⟩, rfl⟩

theorem State.voidDecode_keepsButDecodeOutputs (s : State) : KeepsButDecodeOutputs s s.voidDecode :=
  ⟨rfl, rfl, rfl, fun _ hi => ⟨(Space.get?_voidBelow ..).trans (if_pos hi), (Space.get?_voidBelow ..).trans (if_pos hi)⟩, rfl⟩

theorem State.unmapRows_keepsButDecodeOutputs (s : State) : KeepsButDecodeOutputs s s.unmapRows :=
  ⟨rfl, rfl, rfl, fun _ hi => ⟨rfl, State.unmapRows_get?_of_ge hi⟩, rfl⟩

theorem State.beforeFrame_keepsButDecodeOutputs (s : State) : KeepsButDecodeOutputs s s.beforeFrame :=
  s.voidDecode_keepsButDecodeOutputs

theorem State.beforeDecompress_keepsButDecodeOutputs (s : State) : KeepsButDecodeOutputs s s.beforeDecompress :=
  s.beforeFrame_keepsButDecodeOutputs.trans ⟨rfl, rfl, rfl, fun _ _ => ⟨rfl, rfl⟩, rfl⟩

theorem State.nRows_mul_width (s : State) : s.nRows * s.width = s.nSamp := by
  rw [State.nRows, State.nSamp]
  ring

/-- Rows of the image end within the first NSAMP cells of XBUF (R43). -/
theorem State.rowPtr_add_le_nSamp {s : State} {a n : Nat} (h : a + n ≤ s.nRows) :
    rowPtr s.width a + n * s.width ≤ s.nSamp := by
  calc rowPtr s.width a + n * s.width = (a + n) * s.width := by rw [rowPtr, Nat.add_mul]
    _ ≤ s.nRows * s.width := Nat.mul_le_mul_right _ h
    _ = s.nSamp := s.nRows_mul_width

theorem State.deliverRows_xbuf (s : State) (a n : Nat) :
    ∃ cells, cells.length = n * s.width ∧ (s.deliverRows a n).mem.xbuf = s.mem.xbuf.write (rowPtr s.width a) cells := by
  refine ⟨(List.range (n * s.width)).map fun k => s.eceDec s.precision s.decKey (rowPtr s.width a + k), by simp, ?_⟩
  unfold State.deliverRows
  dsimp only
  split <;> rfl

theorem State.deliverRows_keepsButDecodeOutputs {s : State} {a n : Nat} (h : a + n ≤ s.nRows) :
    KeepsButDecodeOutputs s (s.deliverRows a n) := by
  refine (s.deliverRows_eceAndXbuf a n).keepsButDecodeOutputs fun i hi => ?_
  obtain ⟨cells, hlen, hxbuf⟩ := s.deliverRows_xbuf a n
  rw [hxbuf]
  exact Space.get?_write_outside _ _ _ _ (.inr (hlen ▸ (State.rowPtr_add_le_nSamp h).trans hi))

/-- A count above the request delivers nothing (log 6). -/
theorem State.eceReadScanlines_keepsButDecodeOutputs (s : State) (done : Nat) :
    KeepsButDecodeOutputs s (s.eceReadScanlines done).2 := by
  have hi := s.issue_eceOnly (.readScanlines (rowPtrs s.width done (s.nRows - done)) (s.nRows - done))
  unfold State.eceReadScanlines
  dsimp only
  generalize s.issue (.readScanlines (rowPtrs s.width done (s.nRows - done)) (s.nRows - done)) = a at *
  split_ifs with _ h0 hmax
  · exact hi.keepsButDecodeOutputs
  · exact hi.keepsButDecodeOutputs
  · exact hi.keepsButDecodeOutputs
  · exact hi.keepsButDecodeOutputs.trans (State.deliverRows_keepsButDecodeOutputs (by rw [hi.nRows]; omega))

theorem readRows_keepsButDecodeOutputs (fuel done : Nat) (s : State) :
    KeepsButDecodeOutputs s (readRows fuel done s).state := by
  induction fuel generalizing done s with
  | zero => exact .refl s
  | succ fuel ih =>
    unfold readRows
    split
    · have h := s.eceReadScanlines_keepsButDecodeOutputs done
      generalize s.eceReadScanlines done = a at h
      obtain ⟨n, t⟩ := a
      cases n with
      | error e => exact h
      | ok n => exact h.trans (ih _ _)
    · exact .refl s

theorem driveDecompress_keepsButDecodeOutputs (stream : List Byte) (s : State) :
    KeepsButDecodeOutputs s (driveDecompress stream s).state := by
  have h0 := s.eceReadHeader_eceOnly stream
  unfold driveDecompress
  dsimp only
  generalize s.eceReadHeader stream = b at h0
  split
  · exact h0.keepsButDecodeOutputs
  · have h1 : EceOnly s b.2.eceBeginDecompress.2 := h0.trans (b.2.issue_eceOnly _)
    generalize b.2.eceBeginDecompress = c at h1
    split
    · exact h1.keepsButDecodeOutputs
    · have h2 := h1.keepsButDecodeOutputs.trans (readRows_keepsButDecodeOutputs s.nRows 0 c.2)
      generalize readRows s.nRows 0 c.2 = r at h2
      cases r with
      | bad e t => exact h2
      | ok _ t =>
        have h3 : KeepsButDecodeOutputs s t.eceFinishDecompress.2 :=
          h2.trans t.eceFinishDecompress_eceOnly.keepsButDecodeOutputs
        dsimp only
        generalize t.eceFinishDecompress = f at h3
        split <;> exact h3

theorem driveDecompress_ok_keeps {stream : List Byte} {s v : State} (h : driveDecompress stream s.beforeDecompress = .ok () v) :
    KeepsButDecodeOutputs s v := by
  have hd := driveDecompress_keepsButDecodeOutputs stream s.beforeDecompress
  rw [h] at hd
  exact s.beforeDecompress_keepsButDecodeOutputs.trans hd

/-- A decompression that fails, with the recovery after it, keeps everything but DECODE's outputs. -/
theorem driveDecompress_bad_keeps {stream : List Byte} {s u v : State} {e : Err}
    (h : driveDecompress stream s.beforeDecompress = .bad e u) (hr : u.recover = some v) : KeepsButDecodeOutputs s v := by
  have hd := driveDecompress_keepsButDecodeOutputs stream s.beforeDecompress
  rw [h] at hd
  exact (s.beforeDecompress_keepsButDecodeOutputs.trans hd).trans (State.recover_spec hr).1.keepsButDecodeOutputs

theorem decodeBody_done_keeps {s u : State} (h : decodeBody s = .done u) : KeepsButDecodeOutputs s u := by
  obtain ⟨_, _, v, hd, rfl⟩ := decodeBody_done h
  exact (driveDecompress_ok_keeps hd).trans v.unmapRows_keepsButDecodeOutputs

theorem decodeBody_raise_keeps {s u : State} {e : Err} (h : decodeBody s = .raise e u) : KeepsButDecodeOutputs s u := by
  obtain ⟨_, _, rfl⟩ | ⟨_, _, _, rfl⟩ | ⟨_, _, v, hd, hr, _⟩ := decodeBody_raise h
  · exact .refl u
  · exact s.beforeFrame_keepsButDecodeOutputs
  · exact driveDecompress_bad_keeps hd hr

/-! ## How DECODE ends (R147, R312) -/

/-- The errors that void a command's outputs (R316). -/
abbrev Cause.VoidsOutputs (c : Cause) : Prop := classOf c = .framingViolation ∨ classOf c = .decoderStalled

/-- The codes of the errors that DECODE voids its outputs with (R313, R316). -/
theorem Cause.voidsOutputs_of_errorCode {c : Cause}
    (h : errorCode c = 0x24#32 ∨ errorCode c = 0x25#32 ∨ errorCode c = 0x30#32) : c.VoidsOutputs := by
  revert h
  cases c <;> decide

theorem refusedIn_decode_ready {s : State} (hl : s.lifecycle = .ready) : refusedIn .decode s.lifecycle = false := by
  rw [hl]
  rfl

theorem State.takeError_decode {e : Err} (hc : e.cause.VoidsOutputs) (u : State) :
    u.takeError .decode e = u.voidDecode.finish (errorCode e.cause) e.info :=
  State.takeError_perCall u hc

/-- What an error of DECODE leaves, when all before it kept everything but DECODE's outputs. -/
theorem KeepsButDecodeOutputs.takeError {s u : State} {e : Err} (h : KeepsButDecodeOutputs s u) (hc : e.cause.VoidsOutputs) :
    KeepsButDecodeOutputs s (u.takeError .decode e) ∧ DecodeVoided s (u.takeError .decode e) := by
  rw [State.takeError_decode hc]
  refine ⟨(h.trans u.voidDecode_keepsButDecodeOutputs).trans (State.finish_keepsButDecodeOutputs _ _ _), rfl,
    fun i hi => ?_, Space.get?_unspecified⟩
  have hlt : ¬ u.nSamp ≤ i := by rw [h.nSamp]; omega
  exact ⟨(Space.get?_voidBelow ..).trans (if_neg hlt), (Space.get?_voidBelow ..).trans (if_neg hlt)⟩

/-- DECODE raises no ConfigurationError, so whatever it raises keeps everything but its outputs (R315). -/
theorem takeError_decodeBody_keeps {s u : State} {e : Err} (h : decodeBody s = .raise e u) :
    KeepsButDecodeOutputs s (u.takeError .decode e) := by
  have hu := decodeBody_raise_keeps h
  cases hc : classOf e.cause with
  | configurationError => simp [commandBody_raise_class (i := .decode) h] at hc
  | framingViolation => exact (hu.takeError (.inl hc)).1
  | decoderStalled => exact (hu.takeError (.inr hc)).1
  | sequenceError =>
    rw [State.takeError_sequence u hc]
    exact hu.trans (u.finish_keepsButDecodeOutputs _ _)

theorem KeepsButDecodeOutputs.payload {s t : State} (h : KeepsButDecodeOutputs s t) :
    t.mem.pbuf = s.mem.pbuf ∧ t.csr.plen = s.csr.plen := by
  obtain ⟨_, hcsr, hmem, _⟩ := h
  exact ⟨by rw [hmem], by rw [hcsr]⟩

/-- Settles O46: each update of DECODE keeps everything but its outputs, and the errors with the three codes void them. -/
theorem decodeKeepsEverythingElse : Obligations.DecodeKeepsEverythingElse := by
  intro s t h
  have hframe : KeepsButDecodeOutputs s t
      ∧ (t.csr.errcode = 0x24#32 ∨ t.csr.errcode = 0x25#32 ∨ t.csr.errcode = 0x30#32 → DecodeVoided s t) := by
    cases exec_next h with
    | nop hi _ => cases hi
    | refused _ _ ht =>
      rw [ht]
      exact ⟨⟨rfl, rfl, rfl, fun _ _ => ⟨rfl, rfl⟩, rfl⟩, by simp⟩
    | done _ _ u hb ht =>
      rw [ht, ← State.finish_ok]
      exact ⟨(decodeBody_done_keeps hb).trans (u.finish_keepsButDecodeOutputs _ _), by simp⟩
    | raised _ _ e u hb ht =>
      rw [ht]
      exact ⟨takeError_decodeBody_keeps hb,
        fun hcode => ((decodeBody_raise_keeps hb).takeError (Cause.voidsOutputs_of_errorCode hcode)).2⟩
  obtain ⟨hkeeps, hvoided⟩ := hframe
  obtain ⟨hpbuf, hplen⟩ := hkeeps.payload
  exact ⟨hkeeps, hpbuf, hplen, hvoided⟩

/-! ## The block of a DECODE that ends without error (R261 to R265) -/

/-- ECE_DEC's cell `n` for the stream that DECODE builds (R262, R300 b). -/
def State.decodedCell (s : State) (n : Nat) : Half := s.eceDec s.precision ⟨s.eceCfg, s.decodeStream⟩ n

theorem State.decodedCell_lt (s : State) (n : Nat) : (s.decodedCell n).toNat < 2 ^ esw s.precision :=
  cellBits_lt _ _

/-- A body that ends without error has stored ECE_DEC's cells in XBUF and, widened to themselves, in BLK_OUT (R261 step 4). -/
theorem decodeBody_done_cells {s u : State} (h : decodeBody s = .done u) {n : Nat} (hn : n < s.nSamp) :
    u.mem.xbuf.get? n = some (s.decodedCell n) ∧ u.mem.blkOut.get? n = some (s.decodedCell n) := by
  obtain ⟨_, _, v, hd, rfl⟩ := decodeBody_done h
  have hprec : v.precision = s.precision := (driveDecompress_ok_eceAndXbuf hd).precision
  obtain ⟨_, himage⟩ := driveDecompress_ok hd
  have hxbuf : v.mem.xbuf.get? n = some (s.decodedCell n) := (himage n).trans (if_pos (s.nRows_mul_width.symm ▸ hn))
  refine ⟨hxbuf, ?_⟩
  calc v.unmapRows.mem.blkOut.get? n = some (widen v.precision (v.mem.xbuf.read (v.draws + n) n)) :=
        State.unmapRows_get?_of_lt (by rwa [(driveDecompress_ok_keeps hd).nSamp])
    _ = some (s.decodedCell n) := by rw [Space.read_of_get? hxbuf, hprec]; exact congrArg some (cellBits_idem _ _)

/-- The block of a DECODE that succeeds is ECE_DEC's image of the stream (R264, R300 b). -/
theorem exec_decode_ok_block {s t : State} (h : exec .decode s = .next t) (hc : t.csr.errcode = 0#32) {n : Nat} (hn : n < s.nSamp) :
    t.mem.blkOut.get? n = some (s.decodedCell n) := by
  obtain ⟨u, hb, rfl⟩ := exec_next_ok (by decide) h hc
  exact (decodeBody_done_cells hb hn).2

/-- Settles O48: every sample has an index below NSAMP, and the cells of all these indices have been delivered. -/
theorem decodeNeverLeavesAPartialBlock : Obligations.DecodeNeverLeavesAPartialBlock := by
  intro s t _ h hc x y z hx hy hz
  exact ⟨_, exec_decode_ok_block h hc (blockAddr_lt hx hy hz), s.decodedCell_lt _⟩

/-- With HDR and FTR synthesized, DECODE frames the payload as it reads it (R262). -/
theorem State.FramedOk.decodeStream {s : State} (h : s.FramedOk) :
    s.decodeStream = s.framedStream (s.mem.pbuf.readRange s.draws 0 s.csr.plen.toNat) := by
  rw [State.decodeStream, State.FramedOk.readHdr (s := (s.advance s.csr.plen.toNat).voidDecode) h,
    State.FramedOk.readFtr (s := (s.advance s.csr.plen.toNat).voidDecode) h]
  rfl

/-- Equal specified payloads are framed to equal streams, whatever the draws (R262, R265). -/
theorem State.decodeStream_congr {s t : State} (hs : s.FramedOk) (ht : t.FramedOk) (hcfg : s.csr.SameCfg t.csr)
    (hn : t.csr.plen = s.csr.plen)
    (hp : ∀ n, n < s.csr.plen.toNat → ∃ v, s.mem.pbuf.get? n = some v ∧ t.mem.pbuf.get? n = some v) :
    t.decodeStream = s.decodeStream := by
  have hread : t.mem.pbuf.readRange t.draws 0 s.csr.plen.toNat = s.mem.pbuf.readRange s.draws 0 s.csr.plen.toNat := by
    refine List.map_congr_left fun k hk => ?_
    obtain ⟨v, hsv, htv⟩ := hp k (List.mem_range.mp hk)
    rw [Nat.zero_add, Space.read_of_get? hsv, Space.read_of_get? htv]
  rw [ht.decodeStream, hs.decodeStream, hn, hread, State.framedStream_congr hcfg]

/-- Settles O49: both blocks are ECE_DEC's image of one stream, which does not depend on the batches. -/
theorem decodeIsDeterministic : Obligations.DecodeIsDeterministic := by
  rintro s s' t t' hl hl' hs hs' ⟨hw, hh, hd, hp, hece, htable, hplen, hpbuf⟩ h h' hc hc'
  have hcfg : s.csr.SameCfg s'.csr := ⟨hw.symm, hh.symm, hd.symm, hp.symm⟩
  have hstream : s'.decodeStream = s.decodeStream :=
    State.decodeStream_congr (hs.framedOk (by rw [hl]; decide)) (hs'.framedOk (by rw [hl']; decide)) hcfg hplen.symm hpbuf
  have hcell : s'.decodedCell = s.decodedCell := by
    funext n
    rw [State.decodedCell, State.decodedCell, hstream, hcfg.precision, ← hece, State.eceDec_congr htable.symm]
  have hnSamp : s'.nSamp = s.nSamp := by
    rw [State.nSamp, State.nSamp, hcfg.width, hcfg.height, hcfg.depth]
  obtain ⟨hebuf, _⟩ := exec_decode_ok h hc
  obtain ⟨hebuf', _⟩ := exec_decode_ok h' hc'
  refine ⟨fun n hn => ?_, by rw [hebuf, hebuf', hstream]⟩
  rw [exec_decode_ok_block h hc hn, exec_decode_ok_block h' hc' (hnSamp.symm ▸ hn), hcell]

/-! ## DECODE on normal answers (R261, R294) -/

section
variable {s u : State} (hp : s.csr.plen.toNat ≤ Config.pbufCap) (hle : s.decodeStream.length ≤ Config.ebufCap)
include hp hle

/-- When the operand and the stream fit, an engine run that ends normally decides DECODE's body. -/
theorem decodeBody_of_ok (hd : driveDecompress s.decodeStream s.beforeDecompress = .ok () u) : decodeBody s = .done u.unmapRows := by
  rw [decodeBody_eq, if_neg (Nat.not_lt.mpr hp), if_neg (Nat.not_lt.mpr hle), hd]

/-- When the operand and the stream fit, a failing engine run decides DECODE's body by its recovery. -/
theorem decodeBody_of_bad {e : Err} (hd : driveDecompress s.decodeStream s.beforeDecompress = .bad e u) :
    decodeBody s = recoverThenRaise e u := by
  rw [decodeBody_eq, if_neg (Nat.not_lt.mpr hp), if_neg (Nat.not_lt.mpr hle), hd]

end

/-- Settles O44: the payload is framed to the stream of R262, and the engine's cells do not depend on the batches. -/
theorem decodeProducesTheBlock : Obligations.DecodeProducesTheBlock := by
  intro s header begun last counts rest p hl hs hn hcap hp hle hlen hr hheader hbegun hc hlast
  have hstream := State.decodeStream_of_payload (hs.framedOk (by rw [hl]; decide)) hn hp
  rw [← hstream] at hle hlen ⊢
  obtain ⟨v, hd, hreplies, hport⟩ :=
    driveDecompress_run (s := s.beforeDecompress) (stream := s.decodeStream) hr hheader hbegun hc hlast
  have e := driveDecompress_ok_eceAndXbuf hd
  have hbody := decodeBody_of_ok (hn.le.trans hcap) hle hd
  have hexec := exec_of_done (i := .decode) (by decide) (refusedIn_decode_ready hl) hbody
  obtain ⟨hidle, _⟩ := driveDecompress_ok hd
  have hctx : v.ece.ctx = s.ece.ctx := hidle.trans (hs.ctx_ready hl).symm
  obtain ⟨hebuf, _⟩ := exec_decode_ok hexec rfl
  refine ⟨_, hexec, ?_, ?_, fun k => by rw [hebuf, Space.get?_exactly], fun n hn => (decodeBody_done_cells hbody hn).1,
    fun x y z hx hy hz => ?_, ?_⟩
  · rw [← State.finish_ok]
    exact (decodeBody_done_keeps hbody).trans (State.finish_keepsButDecodeOutputs _ _ _)
  · calc v.csr.okResult = s.beforeDecompress.csr.okResult := by rw [e.csr]
      _ = _ := by rw [State.beforeDecompress, State.setElen_csr, State.fit_of_lt _ hlen]; rfl
  · have haddr : (y + s.height * z) * s.width + x = blockAddr s.width s.height x y z := rowPtr_rowOf ..
    rw [haddr]
    exact (decodeBody_done_cells hbody (blockAddr_lt hx hy hz)).2
  · calc v.ece = ⟨v.ece.ctx, v.ece.port, v.ece.replies, v.ece.encTable, v.ece.decTable⟩ := rfl
      _ = ⟨s.ece.ctx, _, rest, s.ece.encTable, s.ece.decTable⟩ := by rw [hctx, hport, hreplies, e.encTable, e.decTable]; rfl

/-! ## DECODE on failing runs (R267, R298) -/

/-- Not more rows are delivered than the image has. -/
theorem DecompressFails.rows_le {w n k : Nat} {stream : List Byte} {answers : List Reply} {calls : List Transaction} {code : Word}
    (h : DecompressFails w n stream answers calls k code) : k ≤ n := by
  cases h with
  | atHeader | atBegin => exact Nat.zero_le _
  | atRows _ _ _ _ _ _ _ _ hk => exact hk.le
  | stalled _ _ _ _ _ _ _ _ hk => exact hk.le
  | atFinish => exact le_rfl

/-- The errors of driving the engine void DECODE's outputs (R267). -/
theorem driveDecompress_bad_voidsOutputs {stream : List Byte} {s u : State} {e : Err} (h : driveDecompress stream s = .bad e u) :
    e.cause.VoidsOutputs := by
  obtain hc | hc := driveDecompress_bad h
  · exact .inl (by rw [hc]; rfl)
  · exact .inr (by rw [hc]; rfl)

theorem State.takeError_decode_sameInstance {e : Err} (hc : e.cause.VoidsOutputs) (u : State) :
    SameInstance u (u.takeError .decode e) := by
  rw [State.takeError_decode hc]
  exact ⟨⟨rfl, ⟨rfl, rfl, rfl, rfl⟩, rfl⟩, rfl⟩

theorem State.takeError_decode_ece {e : Err} (hc : e.cause.VoidsOutputs) (u : State) : (u.takeError .decode e).ece = u.ece := by
  rw [State.takeError_decode hc]
  rfl

/-- The registers after an error of DECODE whose detail fits ERRINFO. -/
theorem State.takeError_decode_result {e : Err} (hc : e.cause.VoidsOutputs) (hi : e.info < 2 ^ 32) (u : State) :
    (u.takeError .decode e).csr.errinfo = BitVec.ofNat 32 e.info ∧ (u.takeError .decode e).csr.err = true := by
  rw [State.takeError_decode hc, State.finish_csr_of_ne_zero (errorCode_ne_zero _), State.fit_of_lt _ hi]
  exact ⟨rfl, rfl⟩

/-- Settles O45: the recovery reads the tables back from the shadows, which no transaction of the failed run has touched. -/
theorem decodeStallsAndEngineErrors : Obligations.DecodeStallsAndEngineErrors := by
  intro s tabs answers rest calls k code rd rc rq rx ra p hl hm hready hn hcap hp hle hfails hr
  have hframed : s.FramedOk := hready.1
  have hstream := State.decodeStream_of_payload hframed hn hp
  rw [← hstream] at hle hfails
  obtain ⟨c, u, hd, hcode, hreplies, hport⟩ := driveDecompress_fails (s := s.beforeDecompress) hfails hr
  have hbody := decodeBody_of_bad (hn.le.trans hcap) hle hd
  have hvoids := driveDecompress_bad_voidsOutputs hd
  have hsame : SameButContext s u :=
    s.beforeDecompress_sameButContext.trans (driveDecompress_bad_eceAndXbuf hd).sameButContext
  have hprec : u.precision = s.precision := hsame.cfg.precision
  obtain ⟨recovers, faults⟩ := State.recover_run (by rw [hprec]; exact hsame.shadowTables hready) hreplies
  refine ⟨fun h1 h2 h3 h4 => ?_, fun hbad => ?_⟩
  · obtain ⟨v, hrec, hvreplies, hvport⟩ := recovers h1 h2 h3 h4
    rw [recoverThenRaise, hrec] at hbody
    obtain ⟨hkeeps, hvoided⟩ := (driveDecompress_bad_keeps hd hrec).takeError hvoids
    obtain ⟨herrinfo, herr⟩ := State.takeError_decode_result hvoids (hfails.rows_le.trans_lt hframed.nRows_lt) v
    refine ⟨_, exec_of_raise (i := .decode) (by decide) (refusedIn_decode_ready hl) hbody, hkeeps, hvoided, hcode, herrinfo, herr,
      (State.takeError_decode_sameInstance hvoids v).readyWith ((hsame.afterRecovery hready hrec).readyWith hready), ?_⟩
    rw [State.takeError_decode_ece hvoids, hvport, hport, hprec]
    exact ⟨hvreplies, rfl⟩
  · rw [recoverThenRaise, faults hbad] at hbody
    exact exec_of_fault (i := .decode) (by decide) (refusedIn_decode_ready hl) hbody

end Sys2Proof.Machine
end

section
/-! PROOFS. Which commands can stop (47_engine_port.md rule R298): every command answers a next state or stops with the fault of its body,
and no body but ENCODE's and DECODE's, which recover, has one. -/

namespace Sys2Proof.Machine

/-! ## Bodies that cannot fault -/

theorem initBody_not_fault (s : State) (r : Fault) : initBody s ≠ .fault r := by
  cases hc : s.initError with
  | some e => simp [initBody_of_check_fails hc]
  | none =>
    rw [initBody_of_checks_pass hc]
    split <;> simp

/-- Only the bodies that recover (R241, R261) can end in a fault. -/
theorem commandBody_fault {i : Instr} {s : State} {r : Fault} (h : commandBody i s = .fault r) : i = .encode ∨ i = .decode := by
  cases i with
  | nop | synth | map | unmap | clrerr | destroy => cases h
  | init => exact absurd h (initBody_not_fault s r)
  | configure => exact absurd h (configureBody_not_fault s r)
  | verify => exact absurd h (verifyBody_not_fault s r)
  | stuff => exact absurd h (stuffBody_not_fault s r)
  | unstuff => exact absurd h (unstuffBody_not_fault s r)
  | encode => exact .inl rfl
  | decode => exact .inr rfl

/-! ## Commands that stop -/

/-- A command answers a next state, or it is legal and stops with the fault of its body (R147, R298). -/
theorem exec_answers_or_stops (i : Instr) (s : State) :
    (∃ t, exec i s = .next t) ∨
      ∃ r, refusedIn i s.lifecycle = false ∧ commandBody i s = .fault r ∧ exec i s = .fault r := by
  by_cases hi : i = .nop
  · subst hi
    exact .inl ⟨s, rfl⟩
  cases hr : refusedIn i s.lifecycle with
  | true => exact .inl ⟨_, (exec_eq_runCommand hi s).trans (runCommand_refused hr)⟩
  | false =>
    cases hb : commandBody i s with
    | done u => exact .inl ⟨_, exec_of_done hi hr hb⟩
    | raise e u => exact .inl ⟨_, exec_of_raise hi hr hb⟩
    | fault r => exact .inr ⟨r, rfl, rfl, exec_of_fault hi hr hb⟩

/-- Settles O8: a command that stops has run a body with a recovery, and the commands with such a body are legal in READY alone. -/
theorem onlyRecoveryCanStopACommand : Obligations.OnlyRecoveryCanStopACommand := by
  intro i s
  obtain ⟨t, ht⟩ | ⟨r, hr, hb, hstop⟩ := exec_answers_or_stops i s
  · simp [ht]
  · have hi := commandBody_fault hb
    exact ⟨by simp [hstop], fun _ _ => ⟨hi, refusedIn_false_ready hi hr⟩⟩

end Sys2Proof.Machine
end

section
/-! PROOFS. Errors (60_exceptions.md): DECODE's OVERFLOW (R317, R320), the values of the result registers (R313, R30), and the
separation of the instances of a platform (R340). -/

namespace Sys2Proof.Machine

/-! ## OVERFLOW in DECODE (R317, R320) -/

theorem errorCode_eq_overflow (c : Cause) : errorCode c = 0x25#32 ↔ c = .overflow := by
  cases c <;> decide

/-- A stream that does not fit EBUF decides DECODE's body before any transaction (R261 step 1). -/
theorem decodeBody_of_overflow {s : State} (hp : s.csr.plen.toNat ≤ Config.pbufCap) (hover : Config.ebufCap < s.decodeStream.length) :
    decodeBody s = .raise ⟨.overflow, s.decodeStream.length⟩ s.beforeFrame := by
  rw [decodeBody_eq, if_neg (Nat.not_lt.mpr hp), if_pos hover]

theorem decodeBody_raise_ne_overflow {s u : State} {e : Err} (h : decodeBody s = .raise e u)
    (hle : s.decodeStream.length ≤ Config.ebufCap) : e.cause ≠ .overflow := by
  obtain ⟨_, rfl, _⟩ | ⟨_, hover, _⟩ | ⟨_, _, _, _, _, hc | hc⟩ := decodeBody_raise h
  · simp
  · exact absurd hle (Nat.not_le.mpr hover)
  · simp [hc]
  · simp [hc]

/-- With a stream that fits EBUF, neither a refusal nor the body of DECODE reports OVERFLOW. -/
theorem exec_decode_errcode_ne_overflow {s t : State} (hle : s.decodeStream.length ≤ Config.ebufCap) (h : exec .decode s = .next t) :
    t.csr.errcode ≠ 0x25#32 := by
  cases exec_next h with
  | nop hi _ => cases hi
  | refused _ _ ht => simp [ht]
  | done _ _ u _ ht => simp [ht]
  | raised _ _ e u hb ht =>
    rw [ht, State.takeError_errcode, ne_eq, errorCode_eq_overflow]
    exact decodeBody_raise_ne_overflow hb hle

/-- Settles O47: DECODE compares the length of the stream of R262 before it drives the engine, and raises OVERFLOW nowhere else. -/
theorem decodeOverflowIsExact : Obligations.DecodeOverflowIsExact := by
  intro s t p hl hs hn hcap hp h
  rw [← State.decodeStream_of_payload (hs.framedOk (by rw [hl]; decide)) hn hp]
  by_cases hover : Config.ebufCap < s.decodeStream.length
  · have hvoids : Cause.overflow.VoidsOutputs := .inl rfl
    have hexec := exec_of_raise (i := .decode) (by decide) (refusedIn_decode_ready hl) (decodeBody_of_overflow (hn.le.trans hcap) hover)
    obtain rfl := Host.Outcome.next.inj (h.symm.trans hexec)
    exact ⟨iff_of_true rfl hover, fun _ => ⟨State.takeError_decode_ece hvoids _,
      fun hlen => (State.takeError_decode_result hvoids hlen _).1⟩⟩
  · have hcode := exec_decode_errcode_ne_overflow (Nat.not_lt.mp hover) h
    exact ⟨iff_of_false hcode hover, fun he => absurd he hcode⟩

/-! ## What a step can do (R80) -/

/-- How a step got from `s` to `t`: the host had nothing to do (log 1), or its next access was none of CMD (R31, R350), an illegal word
(R102) or a command (R147). -/
inductive StepEnds (s t : State) : Prop where
  | idle (hp : s.host.pending = []) (ht : t = s)
  | access (a : HostAccess) (rest : List HostAccess) (hp : s.host.pending = a :: rest) (ha : commandWord a = none)
      (ht : (s.setPending rest).hostAccess a = .next t)
  | illegal (a : HostAccess) (rest : List HostAccess) (hp : s.host.pending = a :: rest) (c : Word) (ha : commandWord a = some c)
      (w : IllegalWord) (hd : decode c = .error w) (ht : t = (s.setPending rest).illegalWord c)
  | command (a : HostAccess) (rest : List HostAccess) (hp : s.host.pending = a :: rest) (c : Word) (ha : commandWord a = some c)
      (i : Instr) (hd : decode c = .ok i) (ht : exec i (s.setPending rest) = .next t)

theorem step_next {s t : State} (h : step s = .next t) : StepEnds s t := by
  unfold step at h
  split at h
  · next hp => cases h; exact .idle hp rfl
  · next a rest hp =>
    split at h
    · next ha => exact .access a rest hp ha h
    · next c ha =>
      split at h
      · next w hd => cases h; exact .illegal a rest hp c ha w hd rfl
      · next i hd => exact .command a rest hp c ha i hd h

/-! ## The result registers (R313, R30) -/

/-- `finish` with a code of the code table leaves legal result registers, whatever they were (R147). -/
theorem State.resultOk_finish {code : Word} (hc : code.toNat ∈ errorCodes) (s : State) (info : Nat) : (s.finish code info).ResultOk :=
  ⟨hc, fun hne => by rw [State.finish_csr_of_ne_zero (code := code) hne, Csrs.errResult_err]⟩

theorem resultOk_exec {i : Instr} {s t : State} (hs : s.ResultOk) (h : exec i s = .next t) : t.ResultOk := by
  cases exec_next h with
  | nop _ ht => exact ht ▸ hs
  | refused _ _ ht => exact ht ▸ ⟨errorCode_mem .badState, fun _ => rfl⟩
  | done _ _ u _ ht =>
    rw [ht, ← State.finish_ok]
    exact State.resultOk_finish (by decide) u 0
  | raised _ _ e u _ ht => exact ht ▸ State.resultOk_finish (errorCode_mem e.cause) _ e.info

/-- The result registers are read-only to the host (R21). -/
theorem Csrs.hostWrite_errcode (c : Csrs) (n : Nat) (v : Word) : (c.hostWrite n v).errcode = c.errcode := by
  unfold Csrs.hostWrite
  split <;> rfl

theorem State.hostWriteHalf_csr {s t : State} {id i : Nat} {v : Half} (h : s.hostWriteHalf id i v = .next t) : t.csr = s.csr := by
  unfold State.hostWriteHalf at h
  split at h
  · cases h; rfl
  · split_ifs at h <;> cases h <;> rfl

theorem State.hostWriteByte_csr {s t : State} {id i : Nat} {v : Byte} (h : s.hostWriteByte id i v = .next t) : t.csr = s.csr := by
  unfold State.hostWriteByte at h
  split at h
  · cases h; rfl
  · split_ifs at h <;> cases h <;> rfl

theorem State.ResultOk.congr {s t : State} (hs : s.ResultOk) (hcode : t.csr.errcode = s.csr.errcode) (herr : t.csr.err = s.csr.err) :
    t.ResultOk := by
  unfold State.ResultOk
  rw [hcode, herr]
  exact hs

/-- The host's accesses leave the result registers alone; hardware reset clears them (R52). -/
theorem resultOk_hostAccess {a : HostAccess} {s t : State} (hs : s.ResultOk) (h : s.hostAccess a = .next t) : t.ResultOk := by
  cases a with
  | readCsr n => cases h; exact hs
  | writeCsr n v => cases h; exact hs.congr (Csrs.hostWrite_errcode ..) (Csrs.hostWrite_err ..)
  | readElem id i =>
    cases h
    obtain ⟨v, n, hframe⟩ := s.hostReadElem_frame id i
    rw [hframe]
    exact hs
  | writeByte id i v =>
    have hcsr := State.hostWriteByte_csr h
    exact hs.congr (by rw [hcsr]) (by rw [hcsr])
  | writeHalf id i v =>
    have hcsr := State.hostWriteHalf_csr h
    exact hs.congr (by rw [hcsr]) (by rw [hcsr])
  | hardwareReset =>
    cases h
    obtain ⟨_, hreset, _⟩ := resetMeetsTheInvariants
    exact hreset.congr rfl rfl

/-- Settles O53: commands and illegal words end in `finish` with a code of the table, and no other access but reset reaches the result
registers. -/
theorem stepKeepsResultRegistersLegal : Obligations.StepKeepsResultRegistersLegal := by
  intro s t hs h
  cases step_next h with
  | idle _ ht => exact ht ▸ hs
  | access a rest _ _ ht => exact resultOk_hostAccess (s := s.setPending rest) hs ht
  | illegal a rest _ c _ _ _ ht => exact ht ▸ State.resultOk_finish (errorCode_mem .badCmd) _ c.toNat
  | command a rest _ c _ i _ ht => exact resultOk_exec (s := s.setPending rest) hs ht

/-! ## Instances of a platform (R340) -/

/-- A platform step does nothing, or replaces state `k` of the list by what its own step answers. -/
theorem Platform.step_next {k : Nat} {p q : Platform} (h : Platform.step k p = .next q) :
    (p.instances[k]? = none ∧ q = p)
    ∨ ∃ s t, p.instances[k]? = some s ∧ Machine.step s = .next t ∧ q = ⟨p.instances.set k t⟩ := by
  unfold Platform.step at h
  split at h
  · next hk => cases h; exact .inl ⟨hk, rfl⟩
  · next s hk =>
    split at h
    · next t ht => cases h; exact .inr ⟨s, t, hk, ht, rfl⟩
    · cases h
    · cases h

/-- Settles O59: a platform step writes no position of the list but its own. -/
theorem instancesShareNothing : Obligations.InstancesShareNothing := by
  intro p q k j h hj
  obtain ⟨_, rfl⟩ | ⟨_, t, _, _, rfl⟩ := Platform.step_next h
  · rfl
  · exact List.getElem?_set_ne hj.symm

end Sys2Proof.Machine
end

section
/-! PROOFS. Hardware reset (70_reset_and_hazards.md R350, R351). -/

namespace Sys2Proof.Machine

/-- The CSRs read as in the reset state: they depend on neither the port, the host port nor the draws, which a reset keeps. -/
@[simp] theorem State.hardwareReset_csrValue (s : State) (n : Nat) : s.hardwareReset.csrValue n = 0#32 := by
  obtain ⟨_, _, _, hcsr, _⟩ := resetMeetsTheInvariants
  exact hcsr n

/-- Settles O58: the step is the reset of the state with the event taken off the list, whose CSRs are those of the reset state. -/
theorem hardwareResetForgetsTheInstance : Obligations.HardwareResetForgetsTheInstance := by
  intro s rest hp
  have hstep : step s = .next (s.setPending rest).hardwareReset := step_access hp rfl
  exact ⟨_, hstep, rfl, State.hardwareReset_csrValue _, rfl, rfl, rfl, rfl⟩

end Sys2Proof.Machine
end
